-- ==== Sys2Proof/Word.lean ====
section
/-! DEFINITION. The word types of WTOSC (spec/00_scope.md R9, R16, R27, R60). A command word and the
values software can read whole are bit vectors; counts, indices and exact arithmetic are Nat and Int. -/

namespace Sys2Proof

/-- A byte of serialised data (spec/20_memory.md R47, R48) or of a song script (43 R144). -/
abbrev Byte := BitVec 8

/-- A command word on the port: exactly 64 bits (30_encoding.md R60). -/
abbrev CmdWord := BitVec 64

/-- A sample of `OUT`, and an entry of `WAVE`: a 16-bit two's complement integer (20 R41, R47).
Its integer value is `BitVec.toInt`. -/
abbrev Sample := BitVec 16

/-- An IEEE 754 binary32 value, held as its 32-bit encoding `fbits` (00 R14, 41 R100): sign bit 31,
exponent bits 30:23, fraction bits 22:0. -/
abbrev F32 := BitVec 32

end Sys2Proof
end

