-- ==== Sys2Proof/Config.lean ====
section
/-! DEFINITION. What an implementation of WTOSC fixes: the constants of spec/00_scope.md R7, the table
parameters of R8 with their constraints (20_memory.md R42, R43), and the free values. A free value is an
opaque constant: nothing can evaluate it, so a claim that mentions one holds whatever it is. -/

namespace Sys2Proof

/-- The largest explicit note number (00 R7). -/
abbrev noteMax : Int := 84

/-- The three read-only tables of the block (20_memory.md R40): `WAVE`, 128 signed samples; `FTAB`,
8 octaves by 12 semitones, Hz; `SEMI`, the column of each letter code 0 = A .. 6 = G (30 R62). They are
parameters of the step, fixed before reset and written by no command (10 R32, 20 R46). -/
structure Tables where
  wave : Vector Sample 128
  ftab : Vector (Vector (BitVec 16) 12) 8
  semi : Vector (Fin 12) 7
  deriving DecidableEq, Repr, Inhabited

/-- 20_memory.md R42 (a): the octave-4 entries of the seven naturals A, B, C, D, E, F, G. -/
def octaveFourNaturals : List (BitVec 16) := [440, 494, 262, 294, 330, 349, 392]

/-- The constraints the spec puts on the table parameters. R42 (a): the seven octave-4 naturals, in
letter order A to G. R42 (b): rows 0 and 7 each hold more than one zero entry. R43's range is the type
of `semi`; that `semi` is injective follows from R42 (a). -/
abbrev Tables.Admissible (t : Tables) : Prop :=
  t.semi.toList.map (fun c => (t.ftab[4])[c]) = octaveFourNaturals ∧
  2 ≤ (t.ftab[0]).toList.count 0 ∧
  2 ≤ (t.ftab[7]).toList.count 0

namespace Tables

/-- `SEMI_REF` of 20_memory.md R44, in letter order A, B, C, D, E, F, G. -/
def refSemi : Vector (Fin 12) 7 := #v[9, 11, 0, 2, 4, 5, 7]

/-- `FTAB_REF` of 20_memory.md R44. -/
def refFtab : Vector (Vector (BitVec 16) 12) 8 := #v[
  #v[0, 0, 0, 0, 0, 0, 0, 0, 0, 28, 29, 31],
  #v[33, 35, 37, 39, 41, 44, 46, 49, 52, 55, 58, 62],
  #v[65, 69, 73, 78, 82, 87, 92, 98, 104, 110, 117, 123],
  #v[131, 139, 147, 156, 165, 175, 185, 196, 208, 220, 233, 247],
  #v[262, 277, 294, 311, 330, 349, 370, 392, 415, 440, 466, 494],
  #v[523, 554, 587, 622, 659, 698, 740, 784, 831, 880, 932, 988],
  #v[1047, 1109, 1175, 1245, 1319, 1397, 1480, 1568, 1661, 1760, 1865, 1976],
  #v[2093, 0, 0, 0, 0, 0, 0, 0, 0, 0, 0, 0]]

/-- The first quarter of `WAVE_REF` (20_memory.md R44), i = 0..31. -/
def refWaveRise : List Int :=
  [0, 1608, 3212, 4808, 6393, 7962, 9512, 11039, 12539, 14010, 15446, 16846, 18204, 19519, 20787, 22005] ++
  [23170, 24279, 25329, 26319, 27245, 28105, 28898, 29621, 30273, 30852, 31356, 31785, 32137, 32412, 32609, 32728]

/-- The first half of `WAVE_REF`, i = 0..63: the rise, the peak, and the rise backwards. -/
def refWaveHalf : List Int := refWaveRise ++ 32767 :: refWaveRise.tail.reverse

/-- `WAVE_REF`: the half, then the half negated (R44: `WAVE_REF[i + 64] = -WAVE_REF[i]`). -/
def refWave : Vector Sample 128 :=
  ⟨((refWaveHalf ++ refWaveHalf.map fun v => -v).map (BitVec.ofInt 16)).toArray, rfl⟩

/-- The reference instantiation `REF` (20_memory.md R44). It is used by the tests, and below only as one
tables value known to be admissible; no claim about the block rests on it. -/
def ref : Tables := { wave := refWave, ftab := refFtab, semi := refSemi }

end Tables

/-- Free: any three tables at all. -/
opaque Config.rawTables : Tables

/-- The block's tables at reset: any admissible tables (00 R8, D21 OPEN; log 1). Every admissible
value is a value `Config.rawTables` may have, and nothing can tell which it is. -/
def Config.tables : Tables :=
  if Config.rawTables.Admissible then Config.rawTables else Tables.ref

/-- The binary32 operations, as names for the operands on which the spec gives no result. -/
inductive FpOp
  | add | mul | div | wrap
  deriving DecidableEq, Repr

/-- Free: what an operation returns when an operand is not finite or a divisor is zero. 41_oscillator.md
R102: such operands never arise, and a model need not define them (log 2). -/
opaque Config.fpOpen : FpOp → F32 → F32 → F32

/-- Free: what `ffloor` and `ftrunc` return on a value that is not finite (R102; log 2). -/
opaque Config.intOpen : F32 → Int

end Sys2Proof
end

