-- ==== Sys2Proof/Syntax.lean ====
section
/-! DEFINITION. The nine commands of the WTOSC command set, version 1 (spec/30_encoding.md R62, R63), with
their operands as decoded. A value of an operand that the spec calls illegal cannot be written here, but
for the sample rate 0 of `CFGSR`, which `Instr.wf` refuses. -/

namespace Sys2Proof

/-- The note letters, in the order of their codes 0..6 (30 R62). -/
inductive Letter
  | a | b | c | d | e | f | g
  deriving DecidableEq, Repr

/-- The accidental of `NOTE` (30 R62): none, plus one unit, minus one unit. -/
inductive Accidental
  | none | plus | minus
  deriving DecidableEq, Repr

/-- The register index of `RDREG` (42 R131): 0 STATUS, 1 SRATE, 2 FREQ, 3 DUR, 4 PHASE, 5 INC. -/
inductive Reg
  | status | srate | freq | dur | phase | inc
  deriving DecidableEq, Repr

/-- The three synchronous faults of the block (60_exceptions.md R180). None of them stops the machine. -/
inductive Cause
  /-- `OP` is not one of the nine opcodes. -/
  | illegalOpcode
  /-- A must-be-zero bit is set or a field value is illegal. -/
  | illegalOperand
  /-- The frequency of a `NOTE` with its accidental leaves 0..65535. -/
  | freqRange
  deriving DecidableEq, Repr

/-- The commands: one constructor per row of spec/opcode_table.json. Operands are unsigned but `n`,
which is read as two's complement (30 R62). -/
inductive Instr
  /-- `CFGSR sr` (42 R130). -/
  | cfgsr (sr : BitVec 24)
  /-- `RDREG reg` (42 R131). -/
  | rdreg (reg : Reg)
  /-- `CLRERR` (42 R132). -/
  | clrerr
  /-- `NOTE oct, let acc, dur` (40 R82). -/
  | note (oct : Fin 8) (letter : Letter) (acc : Accidental) (dur : BitVec 32)
  /-- `NOTEN n, dur` (40 R83). -/
  | noten (n : BitVec 16) (dur : BitVec 32)
  /-- `REST dur` (40 R84). -/
  | rest (dur : BitVec 32)
  /-- `TONE f, dur` (40 R85). -/
  | tone (f : BitVec 16) (dur : BitVec 32)
  /-- `CANCEL` (40 R86). -/
  | cancel
  /-- `FILL cnt` (41 R108). -/
  | fill (cnt : BitVec 32)
  deriving DecidableEq, Repr

end Sys2Proof
end

