-- ==== Sys2Proof/WellFormed.lean ====
section
/-! DEFINITION. Which instructions an encoding can stand for. The types of the operands already leave out
`let` = 7, `acc` = 3 and `reg` in 6..15; the one check left is that `CFGSR` does not set the rate 0
(spec/30_encoding.md R62, R64 (c)). -/

namespace Sys2Proof

/-- `CFGSR` with `sr` = 0 is illegal (30 R64 (c)); every other instruction is well formed. -/
def Instr.wf : Instr → Bool
  | .cfgsr sr => sr ≠ 0
  | .rdreg _ => true
  | .clrerr => true
  | .note _ _ _ _ => true
  | .noten _ _ => true
  | .rest _ => true
  | .tone _ _ => true
  | .cancel => true
  | .fill _ => true

end Sys2Proof
end

