-- ==== Sys2Proof/Decode.lean ====
section
/-! DEFINITION. The decoder and the encoder of format C64 (spec/30_encoding.md R60 to R65). Decoding is a
total function of the 64-bit word alone: it reads no state (R65). It rejects a word by the name of the
fault the word raises. -/

namespace Sys2Proof

/-! ### The opcode map (R63) -/

/-- The nine opcodes. -/
inductive Op
  | cfgsr | rdreg | clrerr | note | noten | rest | tone | cancel | fill
  deriving DecidableEq, Repr

/-- The `OP` column of R63. -/
def Op.byte : Op → BitVec 8
  | .cfgsr => 0x01
  | .rdreg => 0x02
  | .clrerr => 0x03
  | .note => 0x10
  | .noten => 0x11
  | .rest => 0x12
  | .tone => 0x13
  | .cancel => 0x14
  | .fill => 0x20

/-- The `match` column of R63. -/
def Op.pattern : Op → CmdWord
  | .cfgsr => 0x0100000000000000
  | .rdreg => 0x0200000000000000
  | .clrerr => 0x0300000000000000
  | .note => 0x1000000000000000
  | .noten => 0x1100000000000000
  | .rest => 0x1200000000000000
  | .tone => 0x1300000000000000
  | .cancel => 0x1400000000000000
  | .fill => 0x2000000000000000

/-- The `mask` column of R63: the opcode and the must-be-zero bits. -/
def Op.mask : Op → CmdWord
  | .cfgsr => 0xFF000000FFFFFFFF
  | .rdreg => 0xFFFFFFF0FFFFFFFF
  | .clrerr => 0xFFFFFFFFFFFFFFFF
  | .note => 0xFFFFF88C00000000
  | .noten => 0xFFFF000000000000
  | .rest => 0xFFFFFFFF00000000
  | .tone => 0xFFFF000000000000
  | .cancel => 0xFFFFFFFFFFFFFFFF
  | .fill => 0xFFFFFFFF00000000

/-- The opcode an `OP` byte names, if any (R64 (a)). -/
def opOf (b : BitVec 8) : Option Op :=
  match b with
  | 0x01#8 => some .cfgsr
  | 0x02#8 => some .rdreg
  | 0x03#8 => some .clrerr
  | 0x10#8 => some .note
  | 0x11#8 => some .noten
  | 0x12#8 => some .rest
  | 0x13#8 => some .tone
  | 0x14#8 => some .cancel
  | 0x20#8 => some .fill
  | _ => none

/-! ### Operand fields (R61, R62) -/

/-- `OP`, bits 63:56. -/
def fieldOp (w : CmdWord) : BitVec 8 := w.extractLsb' 56 8

/-- Operand `B`, bits 31:0: a duration or a sample count. -/
def fieldB (w : CmdWord) : BitVec 32 := w.extractLsb' 0 32

/-- `CFGSR` `sr`, bits 55:32. -/
def fieldSr (w : CmdWord) : BitVec 24 := w.extractLsb' 32 24

/-- `NOTEN` `n` and `TONE` `f`, bits 47:32. -/
def fieldHalf (w : CmdWord) : BitVec 16 := w.extractLsb' 32 16

/-- `NOTE` `oct`, bits 42:40. -/
def fieldOct (w : CmdWord) : BitVec 3 := w.extractLsb' 40 3

/-- `NOTE` `let`, bits 38:36. -/
def fieldLet (w : CmdWord) : BitVec 3 := w.extractLsb' 36 3

/-- `NOTE` `acc`, bits 33:32. -/
def fieldAcc (w : CmdWord) : BitVec 2 := w.extractLsb' 32 2

/-- `RDREG` `reg`, bits 35:32. -/
def fieldReg (w : CmdWord) : BitVec 4 := w.extractLsb' 32 4

/-- The letter of a letter code; 7 is illegal (R62). -/
def letterOf (c : BitVec 3) : Option Letter :=
  match c with
  | 0#3 => some .a
  | 1#3 => some .b
  | 2#3 => some .c
  | 3#3 => some .d
  | 4#3 => some .e
  | 5#3 => some .f
  | 6#3 => some .g
  | _ => none

/-- The accidental of its code; 3 is illegal (R62). -/
def accidentalOf (c : BitVec 2) : Option Accidental :=
  match c with
  | 0#2 => some .none
  | 1#2 => some .plus
  | 2#2 => some .minus
  | _ => none

/-- The register of its index; 6..15 are illegal (R62). -/
def regOf (c : BitVec 4) : Option Reg :=
  match c with
  | 0#4 => some .status
  | 1#4 => some .srate
  | 2#4 => some .freq
  | 3#4 => some .dur
  | 4#4 => some .phase
  | 5#4 => some .inc
  | _ => none

/-- The third test of R65, the field values of R64 (c), and the instruction of a word that passes. -/
def decodeFields (op : Op) (w : CmdWord) : Except Cause Instr :=
  match op with
  | .cfgsr => if fieldSr w = 0 then .error .illegalOperand else .ok (.cfgsr (fieldSr w))
  | .rdreg =>
    match regOf (fieldReg w) with
    | some r => .ok (.rdreg r)
    | none => .error .illegalOperand
  | .clrerr => .ok .clrerr
  | .note =>
    match letterOf (fieldLet w), accidentalOf (fieldAcc w) with
    | some l, some a => .ok (.note ⟨(fieldOct w).toNat, (fieldOct w).isLt⟩ l a (fieldB w))
    | _, _ => .error .illegalOperand
  | .noten => .ok (.noten (fieldHalf w) (fieldB w))
  | .rest => .ok (.rest (fieldB w))
  | .tone => .ok (.tone (fieldHalf w) (fieldB w))
  | .cancel => .ok .cancel
  | .fill => .ok (.fill (fieldB w))

/-- R65: the opcode is tested first, then the must-be-zero bits, then the field values. -/
def decode (w : CmdWord) : Except Cause Instr :=
  match opOf (fieldOp w) with
  | none => .error .illegalOpcode
  | some op => if w &&& op.mask = op.pattern then decodeFields op w else .error .illegalOperand

/-! ### The encoder -/

/-- The opcode of an instruction. -/
def Instr.op : Instr → Op
  | .cfgsr _ => .cfgsr
  | .rdreg _ => .rdreg
  | .clrerr => .clrerr
  | .note _ _ _ _ => .note
  | .noten _ _ => .noten
  | .rest _ => .rest
  | .tone _ _ => .tone
  | .cancel => .cancel
  | .fill _ => .fill

/-- The code of a letter (R62). -/
def letterCode : Letter → BitVec 3
  | .a => 0
  | .b => 1
  | .c => 2
  | .d => 3
  | .e => 4
  | .f => 5
  | .g => 6

/-- The code of an accidental (R62). -/
def accidentalCode : Accidental → BitVec 2
  | .none => 0
  | .plus => 1
  | .minus => 2

/-- The index of a register (R62, 42 R131). -/
def regCode : Reg → BitVec 4
  | .status => 0
  | .srate => 1
  | .freq => 2
  | .dur => 3
  | .phase => 4
  | .inc => 5

/-- Operand `A` of `NOTE`: `oct` in 10:8, `let` in 6:4, `acc` in 1:0, all other bits zero (R62). -/
def noteOperandA (oct : BitVec 3) (lt : BitVec 3) (acc : BitVec 2) : BitVec 24 :=
  0#13 ++ oct ++ 0#1 ++ lt ++ 0#2 ++ acc

/-- Operand `A`, bits 55:32 of the word (R61, R62). -/
def operandA : Instr → BitVec 24
  | .cfgsr sr => sr
  | .rdreg r => (regCode r).setWidth 24
  | .clrerr => 0
  | .note o l a _ => noteOperandA (BitVec.ofNat 3 o.val) (letterCode l) (accidentalCode a)
  | .noten n _ => n.setWidth 24
  | .rest _ => 0
  | .tone f _ => f.setWidth 24
  | .cancel => 0
  | .fill _ => 0

/-- Operand `B`, bits 31:0 of the word (R61, R62). -/
def operandB : Instr → BitVec 32
  | .cfgsr _ => 0
  | .rdreg _ => 0
  | .clrerr => 0
  | .note _ _ _ d => d
  | .noten _ d => d
  | .rest d => d
  | .tone _ d => d
  | .cancel => 0
  | .fill c => c

/-- A word of its three fields: `word = OP ++ A ++ B` (R61). -/
def wordOf (op : BitVec 8) (a : BitVec 24) (b : BitVec 32) : CmdWord := op ++ a ++ b

/-- The word of an instruction. -/
def encode (i : Instr) : CmdWord := wordOf i.op.byte (operandA i) (operandB i)

/-! ### What the host of this row reads -/

/-- The command word whose `nbits` low bits are those of `w` and whose other bits are zero. -/
def tableWord (nbits w : Nat) : CmdWord := BitVec.ofNat 64 (w % 2 ^ nbits)

/-- The instruction the decoder reads from the table word `w` of `nbits` bits. -/
def decodeTableWord (nbits w : Nat) : Option Instr :=
  match decode (tableWord nbits w) with
  | .ok i => some i
  | .error _ => none

end Sys2Proof
end

