-- ==== Sys2Proof/Machine/State.lean ====
section
/-! DEFINITION. The state of WTOSC as plain data (spec/10_state.md R20 to R27), the ways a step can stop,
and the state after reset (R31, 70_reset_and_hazards.md R200). -/

namespace Sys2Proof.Machine

/-- A fault that stops the machine: there is none. The three faults of 60_exceptions.md R180 are next
states (R185), and 93_implementation_defined.md Part 2 says that nothing in the block is stuck. The type
has no member, so no claim can rest on one: safe. -/
inductive Fault
  deriving DecidableEq, Repr

/-- A refusal of the model. -/
inductive Refusal
  /-- Raised by `exec` for an instruction whose meaning is not written yet; no arm raises it. Safe. -/
  | notModelled (mnemonic : String)
  deriving DecidableEq, Repr

/-- The response that ends a command (00_scope.md R16): a 4-bit cause code, 0 for no fault; a 32-bit
value; the samples the command emitted, empty for every command but `FILL`. -/
structure Response where
  fault : BitVec 4
  value : BitVec 32
  samples : List Sample
  deriving DecidableEq, Repr

/-- The complete state of the block (R20) with its port, its answers and its table parameters. -/
structure State where
  /-- `FREQ`, Hz, 0 is a rest (R21). -/
  freq : BitVec 16
  /-- `DUR`, samples still owed (R22). -/
  dur : BitVec 32
  /-- `PHASE`, a fractional index into `WAVE`, as its encoding (R23). -/
  phase : F32
  /-- `SRATE`, the sample rate in Hz, never 0 (R24). -/
  srate : BitVec 24
  /-- `ERR`, the sticky fault flag (R25). -/
  err : Bool
  /-- `CAUSE`, the code of the first fault since `ERR` was last 0 (R25). -/
  cause : BitVec 4
  /-- `OUT`, every sample emitted since reset, oldest first (R27). -/
  out : List Sample
  /-- The command words that have arrived and are not executed yet, the next one first (00_scope.md
  R6, R17; log 5). -/
  port : List CmdWord
  /-- The responses answered since reset, oldest first (00_scope.md R16, 20_memory.md R52; log 7). -/
  responses : List Response
  /-- The tables, parameters of the step that no command changes (R32; log 1). -/
  tables : Tables
  deriving DecidableEq, Repr

/-- The state after reset (R31, 70 R200), with any admissible tables. -/
def State.reset : State where
  freq := 0
  dur := 0
  phase := 0x00000000
  srate := 44100
  err := false
  cause := 0
  out := []
  port := []
  responses := []
  tables := Config.tables

/-! Each register has one write. -/

/-- `FREQ <- v`. -/
def State.setFreq (s : State) (v : BitVec 16) : State := { s with freq := v }

/-- `DUR <- v`. -/
def State.setDur (s : State) (v : BitVec 32) : State := { s with dur := v }

/-- `PHASE <- v`. -/
def State.setPhase (s : State) (v : F32) : State := { s with phase := v }

/-- `SRATE <- v`. -/
def State.setSrate (s : State) (v : BitVec 24) : State := { s with srate := v }

/-- `ERR <- e`, `CAUSE <- c`. -/
def State.setError (s : State) (e : Bool) (c : BitVec 4) : State := { s with err := e, cause := c }

/-- `OUT <- OUT ++ [v]`: `emit` of 00_scope.md R15. -/
def State.emit (s : State) (v : Sample) : State := { s with out := s.out ++ [v] }

/-- The words left on the port. -/
def State.setPort (s : State) (ws : List CmdWord) : State := { s with port := ws }

/-- A response is returned, after those of earlier commands (20_memory.md R52). -/
def State.answer (s : State) (r : Response) : State := { s with responses := s.responses ++ [r] }

end Sys2Proof.Machine
end

