-- ==== Sys2Proof/Machine/Flags.lean ====
section
/-! DEFINITION. The status register: the derived bit `ACTIVE`, the fault fields `ERR` and `CAUSE`, and the
32-bit view `STATUS` (spec/10_state.md R25); the fault codes (60_exceptions.md R180). -/

namespace Sys2Proof.Machine

/-- `ACTIVE`: 1 when `DUR != 0`, Playing-Note; 0 in Awaiting-Command (R25). Not state. -/
def active (s : State) : Bool := s.dur ≠ 0

/-- The code of a fault (60 R180). Code 0 means no fault; 4..15 are never produced. -/
def causeCode : Cause → BitVec 4
  | .illegalOpcode => 1
  | .illegalOperand => 2
  | .freqRange => 3

/-- `STATUS = zext_32(CAUSE ++ 0b00 ++ ERR ++ ACTIVE)` (R25). -/
def statusWord (s : State) : BitVec 32 :=
  (s.cause ++ 0#2 ++ BitVec.ofBool s.err ++ BitVec.ofBool (active s)).setWidth 32

/-- The fault fields after a fault: `CAUSE` takes the code only when `ERR` was 0, and `ERR` is set
(60 R185). -/
def logFault (s : State) (c : Cause) : State :=
  s.setError true (if s.err then s.cause else causeCode c)

/-- The fault fields after `CLRERR` (42 R132). -/
def clearFault (s : State) : State := s.setError false 0

end Sys2Proof.Machine
end

