-- ==== Sys2Proof/Machine/Float.lean ====
section
/-! DEFINITION. The binary32 primitives `fadd fsub fmul fdiv cvt ffloor ftrunc` of spec/00_scope.md R14 and
41_oscillator.md R100, R101: the exact result rounded once to nearest, ties to even. Every finite
binary32 value is a whole number of units of 2^-149, the least positive value, so the exact arithmetic
is arithmetic on Int and Nat; only the narrowing at the end rounds. -/

namespace Sys2Proof.Machine

/-- One, in units of 2^-149. -/
def unitsPerOne : Nat := 2 ^ 149

/-- Sign bit 31 (R14). -/
def fsign (x : F32) : Bool := x.msb

/-- Exponent and fraction, bits 30:0 (R14). -/
def fcode (x : F32) : Nat := x.toNat % 2 ^ 31

/-- The encoding of infinity, bits 30:0: the exponent field all ones, the fraction zero. -/
def infCode : Nat := 255 * 2 ^ 23

/-- A value is finite when its exponent field is not all ones (R100: IEEE 754 binary32). -/
def ffinite (x : F32) : Bool := fcode x < infCode

/-- The magnitude, in units of 2^-149, of a finite value whose bits 30:0 are `m`, with the exponent field
`m / 2^23` and the fraction field `m % 2^23`: a subnormal is its fraction; a normal is `1.fraction`,
scaled by its biased exponent less one (R100: bias 127, 23 fraction bits). -/
def magOf (m : Nat) : Nat :=
  if m / 2 ^ 23 = 0 then m % 2 ^ 23 else (2 ^ 23 + m % 2 ^ 23) * 2 ^ (m / 2 ^ 23 - 1)

/-- The magnitude of a finite value in units of 2^-149. -/
def fmag (x : F32) : Nat := magOf (fcode x)

/-- The value of a finite `x` in units of 2^-149; `none` for an infinity or a NaN. -/
def funits (x : F32) : Option Int :=
  if ffinite x then some (if fsign x then -(fmag x : Int) else fmag x) else none

/-- The scale of the exact magnitude `n / d` units: the least power of two that leaves at most 24 bits
before the point, the precision of binary32. -/
def roundScale (n d : Nat) : Nat := (n / d).log2 - 23

/-- The weight of the last significand bit at that scale, times `d`. -/
def roundUnit (n d : Nat) : Nat := d * 2 ^ roundScale n d

/-- The significand rounded down, at most 24 bits. -/
def roundSig (n d : Nat) : Nat := n / roundUnit n d

/-- What is cut off is more than half of the last bit, or half of it when the significand is odd:
nearest, ties to even (R100). -/
abbrev RoundsUp (n d : Nat) : Prop :=
  roundUnit n d < 2 * (n % roundUnit n d) ∨
    (2 * (n % roundUnit n d) = roundUnit n d ∧ roundSig n d % 2 = 1)

/-- Bits 30:0 of the magnitude `n / d` units, rounded once to nearest, ties to even (R100). An encoding
is the scale times 2^23 plus the significand, so that a carry out of the significand steps the
exponent. A magnitude that rounds beyond the largest finite value gives infinity (log 3: IEEE 754;
R102: it never arises). -/
def roundMag (n d : Nat) : Nat :=
  min (roundScale n d * 2 ^ 23 + roundSig n d + if RoundsUp n d then 1 else 0) infCode

/-- A binary32 value of its sign and its rounded magnitude `n / d` units. -/
def fpack (neg : Bool) (n d : Nat) : F32 :=
  BitVec.ofNat 32 (roundMag n d + if neg then 2 ^ 31 else 0)

/-- A rounded value of an exact integer number of units that is not zero, or of zero with a sign. -/
def fround (u : Int) (negZero : Bool) : F32 :=
  if u = 0 then fpack negZero 0 1 else fpack (u < 0) u.natAbs 1

/-- `cvt n`: the binary32 value of an integer (R14), exact for `|n| < 2^24`; `cvt 0 = +0.0`. -/
def cvt (n : Int) : F32 := fround (n * unitsPerOne) false

/-- `fadd(a, b)` (R14). An exact sum of zero is `+0.0`, but `-0.0` when both operands are negative
zeros (IEEE 754 under round to nearest; R102). -/
def fadd (a b : F32) : F32 :=
  match funits a, funits b with
  | some x, some y => fround (x + y) (fsign a && fsign b)
  | _, _ => Config.fpOpen .add a b

/-- The value with its sign bit flipped. -/
def fneg (a : F32) : F32 := a ^^^ 0x80000000

/-- `fsub(a, b)` (R14): the sum of `a` and the negated `b`. -/
def fsub (a b : F32) : F32 := fadd a (fneg b)

/-- `fmul(a, b)` (R14). The product of two unit counts is in units of 2^-298. -/
def fmul (a b : F32) : F32 :=
  if ffinite a ∧ ffinite b then fpack (fsign a ^^ fsign b) (fmag a * fmag b) unitsPerOne
  else Config.fpOpen .mul a b

/-- `fdiv(a, b)` (R14), for a divisor that is not zero. -/
def fdiv (a b : F32) : F32 :=
  if ffinite a ∧ ffinite b ∧ fmag b ≠ 0 then
    fpack (fsign a ^^ fsign b) (fmag a * unitsPerOne) (fmag b)
  else Config.fpOpen .div a b

/-- `ffloor p`: the largest integer not above `p` (R14). -/
def ffloor (p : F32) : Int :=
  match funits p with
  | some u => u / unitsPerOne
  | none => Config.intOpen p

/-- `ftrunc v`: the integer part of `v`, rounding toward zero (R14). -/
def ftrunc (v : F32) : Int :=
  match funits v with
  | some u => u.tdiv unitsPerOne
  | none => Config.intOpen v

/-- `fbits p`: the 32-bit encoding of `p` (R14), which is how `p` is held. -/
def fbits (p : F32) : BitVec 32 := p

/-- `+0.0` (R14). -/
def fzero : F32 := 0x00000000

end Sys2Proof.Machine
end

