-- ==== Sys2Proof/Machine/Oscillator.lean ====
section
/-! DEFINITION. The pure functions of the oscillator (spec/41_oscillator.md R103 to R106). Each named
operation is one rounding, in the order the rule writes it (R100). -/

namespace Sys2Proof.Machine

/-- `PhaseInc(F, SR)`: `128 / (SR / F)`, two rounded divisions (R103). -/
def phaseInc (f : BitVec 16) (sr : BitVec 24) : F32 :=
  let q := fdiv (cvt sr.toNat) (cvt f.toNat)
  fdiv (cvt 128) q

/-- `i & 127` (R104, 20_memory.md R49): the low seven bits, so that an index never leaves `WAVE`. -/
def waveIndex (i : Int) : Fin 128 := (BitVec.ofInt 7 i).toFin

/-- `WAVE[i & 127]` as a binary32 value: a signed entry, converted exactly (20 R50, 41 R101). -/
def waveAt (t : Tables) (i : Int) : F32 := cvt (t.wave[waveIndex i]).toInt

/-- `Interp(p)`: `a + (b - a) * fr` between the two entries around `p` (R104). -/
def interp (t : Tables) (p : F32) : F32 :=
  let i := ffloor p
  let fr := fsub p (cvt i)
  let a := waveAt t i
  let b := waveAt t (i + 1)
  let d := fsub b a
  let x := fmul d fr
  fadd a x

/-- `Cast16(v)`: the integer part of `v` as a 16-bit two's complement sample (R105). -/
def cast16 (v : F32) : Sample := BitVec.ofInt 16 (ftrunc v)

/-- 128, the length of `WAVE`, in units of 2^-149. -/
def unitsPerTurn : Nat := 128 * unitsPerOne

/-- The wrap of R106: `k = ffloor(p1 / 128)` and `p2 = p1 - 128 * k` in exact arithmetic. -/
def phaseWrap (p1 : F32) : F32 :=
  match funits p1 with
  | some u => fround (u - u / unitsPerTurn * unitsPerTurn) false
  | none => Config.fpOpen .wrap p1 p1

/-- `PhaseAdvance(p, inc)`: one rounded addition, then the exact wrap (R106). -/
def phaseAdvance (p inc : F32) : F32 := phaseWrap (fadd p inc)

end Sys2Proof.Machine
end

