-- ==== Sys2Proof/Machine/Operands.lean ====
section
/-! DEFINITION. The operand forms: the two addressing modes of `FTAB` (spec/20_memory.md R50,
40_frequency_lookup.md R82, R83), the accidental, and the register views of `RDREG` (42_system.md R131).
The third addressing mode, `WAVE[i & 127]`, is `waveAt` of Machine/Oscillator.lean. -/

namespace Sys2Proof.Machine

/-- The index of a letter in `SEMI`: its code (30 R62). -/
def letterIndex : Letter → Fin 7
  | .a => 0
  | .b => 1
  | .c => 2
  | .d => 3
  | .e => 4
  | .f => 5
  | .g => 6

/-- `FTAB[o][s]`, a table read (20 R45). -/
def ftabRead (t : Tables) (o : Fin 8) (s : Fin 12) : BitVec 16 := (t.ftab[o])[s]

/-- `FTAB[oct][SEMI[let]]`, Hz (20 R50 (a), 40 R82). -/
def lookupLetter (t : Tables) (oct : Fin 8) (l : Letter) : BitVec 16 :=
  ftabRead t oct (t.semi[letterIndex l])

/-- `clamp(v, lo, hi)` (00 R13). -/
def clamp (v lo hi : Int) : Int := if v < lo then lo else if hi < v then hi else v

/-- The clamped note number `c = clamp(n, 0, 84)`, a count (40 R83, R87). -/
def noteNumber (n : BitVec 16) : Nat := (clamp n.toInt 0 noteMax).toNat

/-- `c div 12`, in 0..7 because `c <= 84` (40 R87). -/
def noteOctave (n : BitVec 16) : Fin 8 := Fin.ofNat 8 (noteNumber n / 12)

/-- `c mod 12`. -/
def noteSemitone (n : BitVec 16) : Fin 12 := Fin.ofNat 12 (noteNumber n % 12)

/-- `FTAB[c div 12][c mod 12]` (20 R50 (b), 40 R83). -/
def lookupNumber (t : Tables) (n : BitVec 16) : BitVec 16 :=
  ftabRead t (noteOctave n) (noteSemitone n)

/-- The range check of a shifted frequency: `none` when it leaves 0..65535 (40 R82). -/
def rangeCheck (f : Int) : Option (BitVec 16) :=
  if f < 0 ∨ 65535 < f then none else some (BitVec.ofInt 16 f)

/-- The looked-up frequency with its accidental: one unit of 1 Hz more or less, in unbounded integers,
then range-checked (40 R82: "a direct unit shift, not a semitone shift"; R87). An entry without an
accidental is in range as it stands (20 R42). -/
def shiftFreq (f0 : BitVec 16) (a : Accidental) : Option (BitVec 16) :=
  match a with
  | .none => some f0
  | .plus => rangeCheck (f0.toNat + 1)
  | .minus => rangeCheck (f0.toNat - 1)

/-- The view `INC`: the encoding of the increment, or zero during a rest, which computes none
(10 R26, 42 R131). -/
def incView (s : State) : BitVec 32 := if s.freq = 0 then 0 else fbits (phaseInc s.freq s.srate)

/-- The value of each register index (42 R131). -/
def regValue (s : State) : Reg → BitVec 32
  | .status => statusWord s
  | .srate => s.srate.setWidth 32
  | .freq => s.freq.setWidth 32
  | .dur => s.dur
  | .phase => fbits s.phase
  | .inc => incView s

end Sys2Proof.Machine
end

