-- ==== Sys2Proof/Machine/Ops.lean ====
section
/-! DEFINITION. The operations the commands share: the response (spec/00_scope.md R15, R16), the fault
entry and its return (60_exceptions.md R185, R186), the note setup (40_frequency_lookup.md R80), the
single-sample step and its repetition (41_oscillator.md R107, R108), and the reset input
(70_reset_and_hazards.md R200). -/

namespace Sys2Proof.Machine

/-- `respond(value)`: the command ends without a fault (00 R15, R16). -/
def respond (value : BitVec 32) (samples : List Sample) (s : State) : State :=
  s.answer { fault := 0, value := value, samples := samples }

/-- `raise c`, the fault entry (60 R185): `DUR <- 0`; `CAUSE` takes the code if `ERR` was 0; `ERR <- 1`;
the response carries the code, the value 0 and no sample. Nothing is saved, no mode changes and
control goes nowhere: the next command is the next word. -/
def raiseFault (c : Cause) (s : State) : State :=
  (logFault (s.setDur 0) c).answer { fault := causeCode c, value := 0, samples := [] }

/-- The return from a fault: the acknowledgement clears `ERR` and `CAUSE` and restores nothing else
(60 R186, 42 R132). -/
def acknowledgeFault (s : State) : State := respond 0 [] (clearFault s)

/-- A note-setup command writes `FREQ` and `DUR` whatever their old values are (40 R80). -/
def setupNote (f : BitVec 16) (dur : BitVec 32) (s : State) : State := (s.setFreq f).setDur dur

/-- The sample a sounding note gives at the present phase: `Cast16(Interp(PHASE))` (41 R107, R113). -/
def soundingSample (s : State) : Sample := cast16 (interp s.tables s.phase)

/-- The phase after one sample of a sounding note (41 R107). -/
def nextPhase (s : State) : F32 := phaseAdvance s.phase (phaseInc s.freq s.srate)

/-- `SampleStep()`, for `DUR > 0` (41 R107): a rest emits 0 and leaves the phase (R110); a sounding note
emits the sample of the phase before the advance. `DUR` falls by one. -/
def sampleStep (s : State) : State :=
  if s.freq = 0 then (s.emit 0).setDur (s.dur - 1)
  else ((s.emit (soundingSample s)).setPhase (nextPhase s)).setDur (s.dur - 1)

/-- `repeat k times: SampleStep()` (41 R108). -/
def sampleSteps : Nat → State → State
  | 0, s => s
  | k + 1, s => sampleSteps k (sampleStep s)

/-- How many samples `FILL cnt` emits: `min(cnt, DUR)` (41 R108). -/
def fillCount (cnt : BitVec 32) (s : State) : Nat := min cnt.toNat s.dur.toNat

/-- A host sends a command word: it arrives at the end of the port, after the words sent before it
(00 R6, 20 R52). -/
def deliver (w : CmdWord) (s : State) : State := s.setPort (s.port ++ [w])

/-- The reset input (70 R200): every piece of state takes its reset value and the words not yet executed
are discarded; the tables are not state and stay. -/
def platformReset (s : State) : State := { State.reset with tables := s.tables }

end Sys2Proof.Machine
end

