-- ==== Sys2Proof/Machine/Fill.lean ====
section
/-! DEFINITION. The oscillator's command `FILL` (spec/41_oscillator.md R108). -/

namespace Sys2Proof.Machine

/-- `FILL cnt` (R108): `min(cnt, DUR)` single-sample steps; the response carries the `DUR` left and the
samples emitted, in order. -/
def execFill (cnt : BitVec 32) (s : State) : Host.Outcome State Fault Refusal :=
  let t := sampleSteps (fillCount cnt s) s
  .next (respond t.dur (t.out.drop s.out.length) t)

end Sys2Proof.Machine
end

