-- ==== Sys2Proof/Machine/Note.lean ====
section
/-! DEFINITION. The note-setup commands `NOTE`, `NOTEN`, `REST`, `TONE`, and `CANCEL`
(spec/40_frequency_lookup.md R82 to R86). -/

namespace Sys2Proof.Machine

/-- `NOTE oct, let acc, dur` (R82): the looked-up frequency with its accidental, or `FREQ_RANGE`, on
which neither `FREQ` nor the duration is written (60 R185). `PHASE` is not written (D14). -/
def execNote (oct : Fin 8) (letter : Letter) (acc : Accidental) (dur : BitVec 32) (s : State) :
    Host.Outcome State Fault Refusal :=
  match shiftFreq (lookupLetter s.tables oct letter) acc with
  | some f => .next (respond 0 [] (setupNote f dur s))
  | none => .next (raiseFault .freqRange s)

/-- `NOTEN n, dur` (R83). -/
def execNoten (n : BitVec 16) (dur : BitVec 32) (s : State) : Host.Outcome State Fault Refusal :=
  .next (respond 0 [] (setupNote (lookupNumber s.tables n) dur s))

/-- `REST dur` (R84). -/
def execRest (dur : BitVec 32) (s : State) : Host.Outcome State Fault Refusal :=
  .next (respond 0 [] (setupNote 0 dur s))

/-- `TONE f, dur` (R85): the only command that sets `PHASE` to `+0.0`, whatever `f` and `dur` are. -/
def execTone (f : BitVec 16) (dur : BitVec 32) (s : State) : Host.Outcome State Fault Refusal :=
  .next (respond 0 [] ((setupNote f dur s).setPhase fzero))

/-- `CANCEL` (R86): `DUR <- 0`; `FREQ`, `PHASE` and `OUT` stay. -/
def execCancel (s : State) : Host.Outcome State Fault Refusal :=
  .next (respond 0 [] (s.setDur 0))

end Sys2Proof.Machine
end

