-- ==== Sys2Proof/Machine/System.lean ====
section
/-! DEFINITION. The system commands `CFGSR`, `RDREG`, `CLRERR` (spec/42_system.md R130 to R132). -/

namespace Sys2Proof.Machine

/-- `CFGSR sr` (R130): `SRATE <- sr`, at any time. The rate 0, which the decoder refuses, faults here as
well, so that `SRATE` never holds 0 whatever instruction is given (10 R24; log 8). -/
def execCfgsr (sr : BitVec 24) (s : State) : Host.Outcome State Fault Refusal :=
  if sr = 0 then .next (raiseFault .illegalOperand s)
  else .next (respond 0 [] (s.setSrate sr))

/-- `RDREG reg` (R131): a read has no side effect. -/
def execRdreg (reg : Reg) (s : State) : Host.Outcome State Fault Refusal :=
  .next (respond (regValue s reg) [] s)

/-- `CLRERR` (R132). -/
def execClrerr (s : State) : Host.Outcome State Fault Refusal :=
  .next (acknowledgeFault s)

end Sys2Proof.Machine
end

