-- ==== Sys2Proof/Machine/Dispatch.lean ====
section
/-! DEFINITION. One arm for each instruction: its meaning. -/

namespace Sys2Proof.Machine

def exec (i : Instr) (s : State) : Host.Outcome State Fault Refusal :=
  match i with
  | .cfgsr sr => Sys2Proof.Machine.execCfgsr sr s
  | .rdreg reg => Sys2Proof.Machine.execRdreg reg s
  | .clrerr => Sys2Proof.Machine.execClrerr s
  | .note oct letter acc dur => Sys2Proof.Machine.execNote oct letter acc dur s
  | .noten n dur => Sys2Proof.Machine.execNoten n dur s
  | .rest dur => Sys2Proof.Machine.execRest dur s
  | .tone f dur => Sys2Proof.Machine.execTone f dur s
  | .cancel => Sys2Proof.Machine.execCancel s
  | .fill cnt => Sys2Proof.Machine.execFill cnt s

end Sys2Proof.Machine
end

