-- ==== Sys2Proof/Machine/Step.lean ====
section
/-! DEFINITION. One step of the block (spec/00_scope.md R17): take the word at the head of the port, decode
it, execute it or raise its decode fault, and remove it. -/

namespace Sys2Proof.Machine

/-- A word taken from the port (R17, 30_encoding.md R65): a legal word is executed, an illegal one raises
the fault the decoder names. -/
def execWord (w : CmdWord) (s : State) : Host.Outcome State Fault Refusal :=
  match decode w with
  | .ok i => exec i s
  | .error c => .next (raiseFault c s)

/-- One step. With no word on the port nothing happens: the block never acts on its own (R17; log 6). -/
def step (s : State) : Host.Outcome State Fault Refusal :=
  match s.port with
  | [] => .next s
  | w :: rest => execWord w (s.setPort rest)

/-- The state whose next step takes the table word `w` of `nbits` bits: the word stands at the head of the
port, before the words already there (log 9). -/
def State.withFetchWord (s : State) (nbits w : Nat) : State :=
  s.setPort (tableWord nbits w :: s.port)

end Sys2Proof.Machine
end

