-- ==== Sys2Proof/Machine/Serial.lean ====
section
/-! DEFINITION. Samples, command words and responses as bytes: little-endian, not switchable
(spec/20_memory.md R47, R48), and the response word (30_encoding.md R69). -/

namespace Sys2Proof.Machine

/-- The `n` low bytes of a number, least significant first. -/
def leBytes : Nat → Nat → List Byte
  | 0, _ => []
  | n + 1, v => BitVec.ofNat 8 v :: leBytes n (v / 2 ^ 8)

/-- The number of a list of bytes, least significant first. -/
def leValue : List Byte → Nat
  | [] => 0
  | b :: bs => b.toNat + 2 ^ 8 * leValue bs

/-- A sample as its two bytes, low byte first (R47). -/
def sampleBytes (v : Sample) : List Byte := leBytes 2 v.toNat

/-- A sequence of samples as bytes, in order (R47). -/
def streamBytes (vs : List Sample) : List Byte := (vs.map sampleBytes).flatten

/-- A command word as its eight bytes (R48). -/
def wordBytes (w : CmdWord) : List Byte := leBytes 8 w.toNat

/-- The command word of eight bytes (R48). -/
def wordOfBytes (bs : List Byte) : Option CmdWord :=
  if bs.length = 8 then some (BitVec.ofNat 64 (leValue bs)) else none

/-- The response as a word: `fault` in 63:60, zero in 59:32, `value` in 31:0 (30 R69). -/
def responseWord (r : Response) : BitVec 64 := r.fault ++ 0#28 ++ r.value

/-- The response word as its eight bytes (R48). -/
def responseBytes (r : Response) : List Byte := leBytes 8 (responseWord r).toNat

/-- What leaves the block for one command: a sample on the sample stream, or a response word. -/
inductive Transfer
  | sample (v : Sample)
  | response (w : BitVec 64)
  deriving DecidableEq, Repr

/-- The samples of a response, in order, come before its response word (30 R69). -/
def transfers (r : Response) : List Transfer :=
  r.samples.map .sample ++ [.response (responseWord r)]

end Sys2Proof.Machine
end

