-- ==== Sys2Proof/Machine/Song.lean ====
section
/-! DEFINITION. The host's Sequencer (spec/43_host_operations.md R144 to R157): the song mini-language, one
command resolved per invocation. It is the macro layer over the block: nothing here is state or
behaviour of the block. -/

namespace Sys2Proof.Machine

/-! ### Parameters and state of the host -/

/-- Articulation, accepted and inert (R153). -/
inductive Articulation
  | legato | normal | staccato
  deriving DecidableEq, Repr

/-- What the spec leaves to the host (00 R12, 43 R146): every function of the host layer takes it. -/
structure HostParams where
  /-- `LOOP_GUARD` (R158). -/
  loopGuard : Nat := 1000
  /-- How the Driver learns `DUR` at a turn for which it has no response of its own yet: by `RDREG DUR`, or
  else from the response of its own last command, however old. R159 allows either (log 13). -/
  pollsDur : Bool
  /-- `HOST_DEFAULT_OCTAVE`, OPEN (R144); one outside 0..6 is clamped (log 19). -/
  defaultOctave : Int
  /-- `HOST_DEFAULT_BPM`, OPEN (R144); one outside 32..255 is clamped (log 19). -/
  defaultBpm : Int
  /-- `HOST_DEFAULT_ARTICULATION`, OPEN (R144). -/
  defaultArticulation : Articulation
  /-- The bytes that count as white space; the source does not list them (R146, N10). -/
  whitespace : List Byte
  /-- How many digits of an argument are known to be read; the source does not say (R146, N10). -/
  argDigits : Nat
  deriving DecidableEq, Repr

/-- A Song Script: an immutable text buffer (R144), as bytes. -/
abbrev Script := List Byte

/-- Why a script was aborted and a warning reported (R157, R165). The form of the diagnostic is left to the
host (91_not_in_source.md N22). DESIGN CHOICE: these three kinds, the code of a block fault kept (log 21). -/
inductive AbortCause
  /-- A missing or non-numeric argument, an unknown letter or suffix (R165). -/
  | malformedCommand
  /-- The loop guard is exhausted (R158, R165). -/
  | runawayScript
  /-- The block answered a fault to a Sequencer command (R157). -/
  | blockFault (code : BitVec 4)
  deriving DecidableEq, Repr

/-- A buffer-fill request in progress (R159): the room asked for, any number of samples (00 R12; log 18);
the samples written so far; the guard count; and whether what the Driver has heard of `DUR` is a response
to a command of its own at this turn or just before it. -/
structure FillRequest where
  want : Nat
  buf : List Sample
  guard : Nat
  fresh : Bool
  deriving DecidableEq, Repr

/-- The state of the host, none of it in the block (R144), with what the rules of the Driver keep. -/
structure HostState where
  /-- The script the Sequencer works on, its own snapshot (R163). -/
  script : Script
  /-- Byte offset of the next character to read; it only advances in one script (R144). -/
  cursor : Nat
  /-- Octave, in 0..6 (R144). -/
  octave : Nat
  /-- Quarter notes per minute, in 32..255: what the tempo is recomputed from when the rate changes
  (70 R204). -/
  bpm : Nat
  /-- Samples per whole note (R144). -/
  tempo : Nat
  /-- Tempo divisor, in 1..64 (R144). -/
  divisor : Nat
  articulation : Articulation
  /-- The rate the host works with: the one the device negotiated (R167), or the one of the last `CFGSR` a
  host sent (70 R204; log 16). -/
  rate : BitVec 24
  /-- A script the control agent has published and the Driver has not picked up (R163; log 12). -/
  published : Option Script
  /-- `DUR` as the response to the Driver's own last command gave it (R159, 70 R205). -/
  heard : BitVec 32
  /-- The fill request in progress (R159). -/
  request : Option FillRequest
  /-- The audible stream: the buffers delivered so far (R160). -/
  audio : List Sample
  /-- The aborts reported, oldest first (R157). -/
  warnings : List AbortCause
  deriving DecidableEq, Repr

/-- `bpm = clamp(n, 32, 255)` (R154). -/
def bpmOf (n : Int) : Nat := (clamp n 32 255).toNat

/-- `tempo = floor(SRATE * 240 / bpm + 1/2)`: the nearest integer, halves upward, in exact arithmetic
(R154, 90_conflicts.md C1). -/
def tempoAt (rate : BitVec 24) (bpm : Nat) : Nat := (2 * (rate.toNat * 240) + bpm) / (2 * bpm)

/-- The tempo of `T<n>` at a rate (R154). -/
def tempoOf (rate : BitVec 24) (n : Int) : Nat := tempoAt rate (bpmOf n)

/-- The host works with a rate, and its tempo is that of the rate (R167; 70 R204: a tempo computed from an
old rate must be recomputed). -/
def HostState.setRate (rate : BitVec 24) (h : HostState) : HostState :=
  { h with rate := rate, tempo := tempoAt rate h.bpm }

/-- The device is opened and its rate read back (70 R202, step 1). A device opened again ends the request
of the old one; the audible stream and the warnings so far stay (log 22). -/
def HostState.openDevice (rate : BitVec 24) (h : HostState) : HostState :=
  { h.setRate rate with request := none }

/-- The Sequencer takes its defaults and an empty script (70 R202, step 3; R144, R161). DESIGN CHOICE: a
default outside the range of its command is clamped (log 19); a script published before is dropped with
the old one (log 22). -/
def HostState.takeDefaults (p : HostParams) (h : HostState) : HostState :=
  { h with
    script := [], cursor := 0, published := none, heard := 0
    octave := (clamp p.defaultOctave 0 6).toNat
    bpm := bpmOf p.defaultBpm, tempo := tempoOf h.rate p.defaultBpm
    divisor := 4, articulation := p.defaultArticulation }

/-- The host of a device opened at a rate for the first time, with its defaults (R144, R161, 70 R202): the
script empty, the divisor 4. -/
def HostState.start (p : HostParams) (rate : BitVec 24) : HostState where
  script := []
  cursor := 0
  octave := (clamp p.defaultOctave 0 6).toNat
  bpm := bpmOf p.defaultBpm
  tempo := tempoOf rate p.defaultBpm
  divisor := 4
  articulation := p.defaultArticulation
  rate := rate
  published := none
  heard := 0
  request := none
  audio := []
  warnings := []

/-! ### Reading the script -/

/-- The byte of an ASCII character. -/
def ascii (c : Char) : Byte := BitVec.ofNat 8 c.toNat

/-- A byte with its letter case removed: commands are case-insensitive (R145). -/
def upper (b : Byte) : Byte := if 0x61 ≤ b ∧ b ≤ 0x7A then b - 0x20 else b

/-- A decimal digit. -/
def isDigit (b : Byte) : Bool := 0x30 ≤ b ∧ b ≤ 0x39

/-- The value of a list of decimal digits. -/
def digitsValue (ds : List Byte) : Nat := ds.foldl (fun v d => 10 * v + (d.toNat - 0x30)) 0

/-- An integer argument as read. -/
inductive Arg
  /-- The value, and how many bytes it takes. -/
  | int (n : Int) (used : Nat)
  /-- Missing or not numeric: the script aborts (R146). -/
  | malformed
  /-- A form the source does not settle: a number after a plus sign or white space, or of more digits than
  the host is known to read (R146, N10, U14; log 11). -/
  | unsettled
  deriving DecidableEq, Repr

/-- Without its first byte when that is a sign. -/
def dropSign (text : Script) : Script :=
  match text with
  | [] => []
  | b :: rest => if b = ascii '+' ∨ b = ascii '-' then rest else text

/-- Some reading of the open points of R146 finds a number here: white space, a sign or none, white space,
and then a digit. -/
def openNumber (p : HostParams) (text : Script) : Bool :=
  ((dropSign (text.dropWhile (· ∈ p.whitespace))).dropWhile (· ∈ p.whitespace)).head?.any isDigit

/-- An integer argument at the head of the text: digits, with a minus sign or without (R146,
90_conflicts.md C5). Where no digit stands there and no reading finds a number, the argument is missing
or not numeric. -/
def parseInt (p : HostParams) (text : Script) : Arg :=
  let neg := text.head? = some (ascii '-')
  let ds := ((if neg then text.tail else text)).takeWhile isDigit
  if ds = [] then
    if openNumber p text then .unsettled else .malformed
  else if p.argDigits < ds.length then .unsettled
  else if neg then .int (-(digitsValue ds : Int)) (ds.length + 1)
  else .int (digitsValue ds) ds.length

/-- The note letter of a byte already in upper case (R149). -/
def noteLetter (b : Byte) : Option Letter :=
  if b = ascii 'A' then some .a
  else if b = ascii 'B' then some .b
  else if b = ascii 'C' then some .c
  else if b = ascii 'D' then some .d
  else if b = ascii 'E' then some .e
  else if b = ascii 'F' then some .f
  else if b = ascii 'G' then some .g
  else none

/-- The optional `+` or `-` after a note letter, and how many bytes it takes (R149). -/
def parseAccidental (text : Script) : Accidental × Nat :=
  match text with
  | [] => (.none, 0)
  | b :: _ => if b = ascii '+' then (.plus, 1) else if b = ascii '-' then (.minus, 1) else (.none, 0)

/-- The optional dot of a dotted note (R149). -/
def parseDot (text : Script) : Bool := text.head? = some (ascii '.')

/-! ### The Sequencer -/

/-- What one invocation of the Sequencer gives (R145, R159). -/
inductive Resolved
  /-- A note-setup command for the block. -/
  | command (i : Instr)
  /-- A command of the host alone: `O < > L M T`. -/
  | quiet
  /-- "song ended" (R155). -/
  | ended
  /-- The script aborts (R157). -/
  | abort (why : AbortCause)
  /-- The script uses a form the source does not settle (R146). -/
  | unsettled
  deriving DecidableEq, Repr

/-- The host with the cursor moved on. -/
def HostState.advance (h : HostState) (n : Nat) : HostState := { h with cursor := h.cursor + n }

/-- `tempo / divisor` (R149, R151; D31: floor). -/
def noteLength (h : HostState) : Nat := h.tempo / h.divisor

/-- The length of a dotted note: two thirds, in exact arithmetic (R149, D31). -/
def dottedLength (h : HostState) : Nat := 2 * noteLength h / 3

/-- A duration as the operand of a block command. Every tempo of R154 fits it. -/
def durOperand (n : Nat) : BitVec 32 := BitVec.ofNat 32 n

/-- A note letter, its accidental and its dot (R149). -/
def resolveNote (h : HostState) (l : Letter) (text : Script) : Resolved × HostState :=
  let (acc, n) := parseAccidental text
  let dot := parseDot (text.drop n)
  let len := if dot then dottedLength h else noteLength h
  (.command (.note (Fin.ofNat 8 h.octave) l acc (durOperand len)),
    h.advance (1 + n + if dot then 1 else 0))

/-- A command that takes an integer argument. -/
def withInt (p : HostParams) (h : HostState) (text : Script)
    (k : Int → HostState → Resolved × HostState) : Resolved × HostState :=
  match parseInt p text with
  | .int n used => k n (h.advance (1 + used))
  | .malformed => (.abort .malformedCommand, h)
  | .unsettled => (.unsettled, h)

/-- `M` and its suffix (R153). `F` and `B` are accepted and change nothing. -/
def resolveArticulation (h : HostState) (text : Script) : Resolved × HostState :=
  match text with
  | [] => (.abort .malformedCommand, h)
  | b :: _ =>
    let c := upper b
    if c = ascii 'L' then (.quiet, { h.advance 2 with articulation := .legato })
    else if c = ascii 'N' then (.quiet, { h.advance 2 with articulation := .normal })
    else if c = ascii 'S' then (.quiet, { h.advance 2 with articulation := .staccato })
    else if c = ascii 'F' ∨ c = ascii 'B' then (.quiet, h.advance 2)
    else (.abort .malformedCommand, h)

/-- `O<int>`: `octave = clamp(n, 0, 6)` (R147). -/
def setOctave (n : Int) (h : HostState) : HostState := { h with octave := (clamp n 0 6).toNat }

/-- `L<int>`: `divisor = clamp(n, 1, 64)` (R152). -/
def setDivisor (n : Int) (h : HostState) : HostState := { h with divisor := (clamp n 1 64).toNat }

/-- `T<int>` (R154). -/
def setTempo (n : Int) (h : HostState) : HostState :=
  { h with bpm := bpmOf n, tempo := tempoOf h.rate n }

/-- The command `P<int>` gives (R150): the argument is a divisor of its own. -/
def restCommand (n : Int) (h : HostState) : Instr :=
  .rest (durOperand (h.tempo / (clamp n 1 64).toNat))

/-- The command `N<int>` gives (R151): the outer clamp only makes the operand fit its field. -/
def numberCommand (n : Int) (h : HostState) : Instr :=
  .noten (BitVec.ofInt 16 (clamp n (-32768) 32767)) (durOperand (noteLength h))

/-- Dispatch on the next significant character `c`, whose text goes on with `rest` (R147 to R156). -/
def dispatchSong (p : HostParams) (h : HostState) (c : Byte) (rest : Script) :
    Resolved × HostState :=
  match noteLetter c with
  | some l => resolveNote h l rest
  | none =>
    if c = ascii 'O' then withInt p h rest fun n h' => (.quiet, setOctave n h')
    else if c = ascii '<' then (.quiet, setOctave (h.octave - 1) (h.advance 1))
    else if c = ascii '>' then (.quiet, setOctave (h.octave + 1) (h.advance 1))
    else if c = ascii 'P' then withInt p h rest fun n h' => (.command (restCommand n h'), h')
    else if c = ascii 'N' then withInt p h rest fun n h' => (.command (numberCommand n h'), h')
    else if c = ascii 'L' then withInt p h rest fun n h' => (.quiet, setDivisor n h')
    else if c = ascii 'M' then resolveArticulation h rest
    else if c = ascii 'T' then withInt p h rest fun n h' => (.quiet, setTempo n h')
    else (.abort .malformedCommand, h)

/-- The host with the cursor at the next significant character (R145: "skip whitespace"). -/
def HostState.skipSpace (p : HostParams) (h : HostState) : HostState :=
  h.advance ((h.script.drop h.cursor).takeWhile (· ∈ p.whitespace)).length

/-- One invocation of the Sequencer (R145). The end of the buffer and a NUL both end the script; the
cursor stays there (R155). -/
def resolve (p : HostParams) (h : HostState) : Resolved × HostState :=
  let h := h.skipSpace p
  match h.script.drop h.cursor with
  | [] => (.ended, h)
  | b :: rest => if b = 0 then (.ended, h) else dispatchSong p h (upper b) rest

/-- Abort (R157): the script is replaced with an empty one and the condition is reported. -/
def HostState.abort (why : AbortCause) (h : HostState) : HostState :=
  { h with script := [], cursor := 0, warnings := h.warnings ++ [why] }

end Sys2Proof.Machine
end

