-- ==== Sys2Proof/Machine/Driver.lean ====
section
/-! DEFINITION. The host's Driver and control surface over the block (spec/43_host_operations.md R140 to
R143, R158 to R170; 70_reset_and_hazards.md R200, R202, R205). Each agent's moves are events; a list of
events is one interleaving of the agents, and every list is allowed (20_memory.md R53). The block is
reached through its port alone (00_scope.md R6). -/

namespace Sys2Proof.Machine

/-- The block and its host. Between events the block's port is empty: the host that sent a word has its
response (log 4). -/
structure System where
  block : State
  host : HostState
  deriving DecidableEq, Repr

/-- Why the host layer gives no next system. Each is a point the source leaves open, so stopping is safe. -/
inductive HostStop
  /-- The script uses an argument form the source does not settle (R146, U14). -/
  | unsettledScript
  /-- `PlayTone` with a frequency or a duration outside `TONE`'s operands (R142, N27). -/
  | toneOutOfRange
  /-- A fill request while one is in progress: there is a single real-time callback (R162). -/
  | requestInProgress
  deriving DecidableEq, Repr

/-! ### The port -/

/-- A host sends a word and the block takes its step (00 R6, R17). -/
def issueWord (w : CmdWord) (b : State) : State :=
  match step (deliver w b) with
  | .next t => t
  | .fault r => nomatch r
  | .refused _ => b

/-- The block's last response. -/
def lastResponse (b : State) : Response :=
  b.responses.getLast?.getD { fault := 0, value := 0, samples := [] }

/-! ### The Driver (R159) -/

/-- The request with the rest of its buffer silent (R155, R157, R160). -/
def FillRequest.silence (r : FillRequest) : FillRequest :=
  { r with buf := r.buf ++ List.replicate (r.want - r.buf.length) 0 }

/-- The system with the request in progress changed. -/
def System.setRequest (r : FillRequest) (y : System) : System :=
  { y with host := { y.host with request := some r } }

/-- The audio subsystem asks for a buffer of `n` samples: one consistent snapshot of the published script
and cursor is taken (R159, R163), and the guard count restarts (R158). DESIGN CHOICE: taking a new script sends
no `CANCEL`, so that a note of the old script issued after the `CANCEL` of `Play` is still drained by the loop
(log 24). -/
def startRequest (n : Nat) (y : System) : Except HostStop System :=
  match y.host.request with
  | some _ => .error .requestInProgress
  | none =>
    let host := match y.host.published with
      | some t => { y.host with script := t, cursor := 0, published := none }
      | none => y.host
    .ok ({ y with host := host }.setRequest { want := n, buf := [], guard := 0, fresh := false })

/-- The full buffer goes to the device, and the callback returns (R159, R160). -/
def deliverBuffer (r : FillRequest) (y : System) : System :=
  { y with host := { y.host with request := none, audio := y.host.audio ++ r.buf } }

/-- The Driver issues a command of its own: the block after it, and what its response says `DUR` is
(R159, 70 R205). -/
def driverIssue (i : Instr) (dur : Response → BitVec 32) (y : System) : System :=
  let t := issueWord (encode i) y.block
  { block := t, host := { y.host with heard := dur (lastResponse t) } }

/-- The Driver reads `DUR` with `RDREG DUR` (R159). -/
def readMove (r : FillRequest) (y : System) : System :=
  (driverIssue (.rdreg .dur) (·.value) y).setRequest { r with fresh := true }

/-- The count of a `FILL` for a room of any size. DESIGN CHOICE: a room beyond the 32-bit operand is filled
by more than one `FILL` (log 18). -/
def fillOperand (room : Nat) : BitVec 32 := BitVec.ofNat 32 (min room (2 ^ 32 - 1))

/-- Playing-Note: delegate to the oscillator for the room that is left (R159). The response says what is
left of the note. -/
def fillMove (r : FillRequest) (y : System) : System :=
  let y' := driverIssue (.fill (fillOperand (r.want - r.buf.length))) (·.value) y
  y'.setRequest { r with buf := r.buf ++ (lastResponse y'.block).samples, fresh := true }

/-- The script aborts: it is emptied and reported, and the rest of the buffer is silence (R157, R159). -/
def abortRequest (why : AbortCause) (r : FillRequest) (y : System) : System :=
  { y with host := y.host.abort why }.setRequest r.silence

/-- After an invocation of the Sequencer that neither ended nor aborted: it counts if it left `DUR` = 0,
and the script aborts when the count exceeds the guard (R158, R159; log 14). -/
def countInvocation (p : HostParams) (leftZero : Bool) (r : FillRequest) (y : System) : System :=
  let guard := if leftZero then r.guard + 1 else r.guard
  if p.loopGuard < guard then abortRequest .runawayScript { r with guard := guard } y
  else y.setRequest { r with guard := guard }

/-- The duration of a command the Sequencer gives: what `DUR` is once the block has accepted it (40 R82 to
R84). -/
def commandDur : Instr → BitVec 32
  | .note _ _ _ d => d
  | .noten _ d => d
  | .rest d => d
  | .tone _ d => d
  | .cfgsr _ => 0
  | .rdreg _ => 0
  | .clrerr => 0
  | .cancel => 0
  | .fill _ => 0

/-- Awaiting-Command: resolve one command with the Sequencer, and issue it if it is the block's (R159). A
fault response, which says that `DUR` is 0, is an abort (R157). Which invocations leave `DUR` = 0 is known
without a further read: every command of the host alone, and every block command of duration 0 (R158). -/
def sequencerMove (p : HostParams) (r : FillRequest) (y : System) : Except HostStop System :=
  match resolve p y.host with
  | (.command i, h) =>
    let y' := driverIssue i (fun a => if a.fault = 0 then commandDur i else 0) { y with host := h }
    if (lastResponse y'.block).fault = 0 then
      .ok (countInvocation p (commandDur i = 0) { r with fresh := true } y')
    else .ok (abortRequest (.blockFault (lastResponse y'.block).fault) r y')
  | (.quiet, h) => .ok (countInvocation p true { r with fresh := false } { y with host := h })
  | (.ended, h) => .ok ({ y with host := h }.setRequest r.silence)
  | (.abort why, h) => .ok (abortRequest why r { y with host := h })
  | (.unsettled, _) => .error .unsettledScript

/-- One move of the Driver's loop (R159). A Driver that polls reads `DUR` at a turn for which it has no
fresh response; then it acts on what its last response said. Between two moves the other agent may send a
word (70 R205 (a)), so that what was heard may be out of date. -/
def driverMove (p : HostParams) (y : System) : Except HostStop System :=
  match y.host.request with
  | none => .ok y
  | some r =>
    if r.want ≤ r.buf.length then .ok (deliverBuffer r y)
    else if p.pollsDur ∧ r.fresh = false then .ok (readMove r y)
    else if y.host.heard = 0 then sequencerMove p r y
    else .ok (fillMove r y)

/-! ### Events -/

/-- The two host agents (R140). -/
inductive Agent
  /-- The callback: it runs the Driver. -/
  | realTime
  /-- The foreground control surface. -/
  | control
  deriving DecidableEq, Repr

/-- What may happen next to the system. Which of these a conforming host does, and in what order, is said
by `Conforming` (Machine/Conforming.lean); the block's rules assume nothing (R170). -/
inductive Event
  /-- The audio subsystem asks for a buffer of any number of samples (R159, 00 R12). -/
  | fillRequest (n : Nat)
  /-- The real-time agent: the Driver makes one move. -/
  | driver
  /-- The control agent publishes a script (R141, R163). -/
  | publish (t : Script)
  /-- An agent sends a command word, other than by a move of the Driver (R170). -/
  | word (a : Agent) (w : CmdWord)
  /-- An agent opens the device and reads back its rate (R167, 70 R202, step 1). -/
  | openDevice (a : Agent) (rate : BitVec 24)
  /-- The Sequencer takes its defaults and an empty script (70 R202, step 3). -/
  | takeDefaults
  /-- The platform asserts the block's reset input (70 R200). -/
  | reset
  deriving DecidableEq, Repr

/-- The host after an agent has sent a command: after `CFGSR` it works with the new rate and has recomputed
its tempo (70 R204; log 16). -/
def HostState.afterCommand : Instr → HostState → HostState
  | .cfgsr sr, h => h.setRate sr
  | .rdreg _, h => h
  | .clrerr, h => h
  | .note _ _ _ _, h => h
  | .noten _ _, h => h
  | .rest _, h => h
  | .tone _ _, h => h
  | .cancel, h => h
  | .fill _, h => h

/-- The host after an agent has sent a word; an illegal one changes nothing of the host. -/
def HostState.afterWord (w : CmdWord) (h : HostState) : HostState :=
  match decode w with
  | .ok i => h.afterCommand i
  | .error _ => h

/-- The system after one event. -/
def System.event (p : HostParams) (e : Event) (y : System) : Except HostStop System :=
  match e with
  | .fillRequest n => startRequest n y
  | .driver => driverMove p y
  | .publish t => .ok { y with host := { y.host with published := some t } }
  | .word _ w => .ok { block := issueWord w y.block, host := y.host.afterWord w }
  | .openDevice _ rate => .ok { y with host := y.host.openDevice rate }
  | .takeDefaults => .ok { y with host := y.host.takeDefaults p }
  | .reset => .ok { y with block := platformReset y.block }

/-- The system after a list of events. -/
def System.events (p : HostParams) : List Event → System → Except HostStop System
  | [], y => .ok y
  | e :: es, y =>
    match y.event p e with
    | .ok y' => System.events p es y'
    | .error r => .error r

/-- `Merge as bs es`: `es` is an interleaving of `as` and `bs` that keeps the order of each (20 R53). -/
inductive Merge {α : Type} : List α → List α → List α → Prop
  | nil : Merge [] [] []
  | left (a : α) (as bs es : List α) : Merge as bs es → Merge (a :: as) bs (a :: es)
  | right (b : α) (as bs es : List α) : Merge as bs es → Merge as (b :: bs) (b :: es)

/-! ### The control surface (R141 to R143) and the boot sequence (70 R202) -/

/-- `Play(script)`: publish the script, then issue `CANCEL` (R141). -/
def playEvents (t : Script) : List Event := [.publish t, .word .control (encode .cancel)]

/-- `duration_samples = floor(sample_rate * durationSeconds)`, in exact arithmetic (R142, D31). -/
def toneDuration (rate : BitVec 24) (seconds : Rat) : Int := ((rate.toNat : Rat) * seconds).floor

/-- `PlayTone(frequencyHz, durationSeconds)`: one `TONE`, for operands that fit it, its length computed at
the rate the host works with (R142, R167). -/
def playToneEvents (h : HostState) (hz : Int) (seconds : Rat) : Except HostStop (List Event) :=
  let dur := toneDuration h.rate seconds
  if 0 ≤ hz ∧ hz ≤ 65535 ∧ 0 ≤ dur ∧ dur < 2 ^ 32 then
    .ok [.word .control (encode (.tone (BitVec.ofInt 16 hz) (BitVec.ofInt 32 dur)))]
  else .error .toneOutOfRange

/-- `Beep()` is `PlayTone(400, 0.2)` (R143). -/
def beepEvents (h : HostState) : Except HostStop (List Event) := playToneEvents h 400 (1 / 5)

/-- The boot sequence after reset, in order (70 R202): open the device, `CFGSR` with the rate it gave, take
the defaults; fill requests may follow. DESIGN CHOICE: for a device that gives the rate 0, of which the
spec says nothing, the sequence holds the illegal word `CFGSR 0`, and is no conforming run (log 20). -/
def bootEvents (a : Agent) (rate : BitVec 24) : List Event :=
  [.openDevice a rate, .word a (encode (.cfgsr rate)), .takeDefaults]

/-! ### One callback without interruption -/

/-- At most this many Driver moves serve a request of `n` samples that nothing interrupts. -/
def moveBound (p : HostParams) (n : Nat) : Nat := 2 * n + 2 * p.loopGuard + 6

/-- Driver moves until the request is served, at most `k`. -/
def driverMoves (p : HostParams) : Nat → System → Except HostStop System
  | 0, y => .ok y
  | k + 1, y =>
    if y.host.request = none then .ok y
    else match driverMove p y with
      | .ok y' => driverMoves p k y'
      | .error r => .error r

/-- The callback: a request of `n` samples served by the Driver alone (R159). -/
def callback (p : HostParams) (n : Nat) (y : System) : Except HostStop System :=
  match startRequest n y with
  | .ok y' => driverMoves p (moveBound p n) y'
  | .error r => .error r

end Sys2Proof.Machine
end

