-- ==== Sys2Proof/Machine/Conforming.lean ====
section
/-! DEFINITION. What a conforming host does (spec/43_host_operations.md R140, R170; 70_reset_and_hazards.md
R202; 60_exceptions.md R193): which agent issues which command, and the order of the boot sequence. -/

namespace Sys2Proof.Machine

/-- Where the host stands in the boot sequence, with the agent that opened the device (70 R202). -/
inductive Stage
  /-- After reset: the device is not open. -/
  | closed
  /-- Step 1 is done: the device is open at a rate. -/
  | opened (a : Agent) (rate : BitVec 24)
  /-- Step 2 is done: the block has the rate. `owesCancel`: `Play` has published its script and not yet
  issued its `CANCEL` (R141). -/
  | configured (a : Agent) (owesCancel : Bool)
  /-- Step 3 is done: fill requests are answered. -/
  | ready (a : Agent) (owesCancel : Bool)
  deriving DecidableEq, Repr

/-- Which commands an agent sends other than by a move of the Driver, once the block has the rate. The agent
that opened the device may send `CFGSR` again (70 R204); either may read back; the control agent sends
`TONE`, and the `CANCEL` that a published script owes. `NOTE`, `NOTEN`, `REST` and `FILL` are the
Driver's alone (R140, R170). -/
def mayIssue (opener a : Agent) (owesCancel : Bool) : Instr → Bool
  | .cfgsr _ => a = opener
  | .rdreg _ => true
  | .clrerr => true
  | .note _ _ _ _ => false
  | .noten _ _ => false
  | .rest _ => false
  | .tone _ _ => a = .control ∧ owesCancel = false
  | .cancel => a = .control ∧ owesCancel = true
  | .fill _ => false

/-- Whether `Play` owes its `CANCEL` after a word that a conforming agent sends once the block has the rate;
`none` for a word that it does not send (R170). -/
def owesAfter (opener a : Agent) (owesCancel : Bool) (w : CmdWord) : Option Bool :=
  match decode w with
  | .ok i => if mayIssue opener a owesCancel i then some (owesCancel && i ≠ .cancel) else none
  | .error _ => none

/-- The stage after an event of a conforming host; `none` for an event it does not do there. An agent sends
its words and publishes a script at any time once the block has the rate (R170), before the defaults are
taken or after. At 44100, the rate of reset, step 2 may be left out (70 R202). -/
def Stage.after (g : Stage) (e : Event) : Option Stage :=
  match e, g with
  | .reset, _ => some .closed
  | .openDevice a rate, .closed => some (.opened a rate)
  | .word a w, .opened a' rate =>
    if a = a' ∧ decode w = .ok (.cfgsr rate) then some (.configured a' false)
    else if rate = 44100 then (owesAfter a' a false w).map (.configured a') else none
  | .publish _, .opened a rate => if rate = 44100 then some (.configured a true) else none
  | .takeDefaults, .opened a rate => if rate = 44100 then some (.ready a false) else none
  | .word a w, .configured a' owes => (owesAfter a' a owes w).map (.configured a')
  | .publish _, .configured a false => some (.configured a true)
  | .takeDefaults, .configured a owes => some (.ready a owes)
  | .word a w, .ready a' owes => (owesAfter a' a owes w).map (.ready a')
  | .publish _, .ready a false => some (.ready a true)
  | .fillRequest _, .ready a owes => some (.ready a owes)
  | .driver, .ready a owes => some (.ready a owes)
  | _, _ => none

/-- A list of events that a conforming host may do from a stage on. The two agents' moves are interleaved
freely, each in its own order (20_memory.md R53). Log 23. -/
def Conforming : Stage → List Event → Bool
  | _, [] => true
  | g, e :: es =>
    match g.after e with
    | some g' => Conforming g' es
    | none => false

end Sys2Proof.Machine
end

