-- ==== Sys2Proof/Safety.lean ====
section
/-! DEFINITION. What counts as a safe state and a safe run, in the terms the claims use: the invariant of
spec/10_state.md R30, what a binary32 result must be (41_oscillator.md R100), the invariant of the host
(43 R144), and the run that ends without a fault (60 R186). -/

namespace Sys2Proof.Machine

/-! ### The block -/

/-- R30 (a): a finite value, not negative and not a negative zero, below 128. -/
abbrev PhaseOk (p : F32) : Prop := ffinite p = true ∧ fsign p = false ∧ fmag p < unitsPerTurn

/-- The invariant of R30: (a) the phase, (c) a sample rate that is never 0, (d) `CAUSE` = 0 exactly when
`ERR` = 0. Parts (b) and (e) hold by the width of `DUR` and by the definition of `ACTIVE`. The last part
is V5 of 93_implementation_defined.md: the codes 4..15 are never produced. -/
abbrev State.Inv (s : State) : Prop :=
  PhaseOk s.phase ∧ s.srate ≠ 0 ∧ (s.cause = 0 ↔ s.err = false) ∧ s.cause.toNat ≤ 3

/-- A run that no fault has marked (60 R186: a claim may take `ERR` = 0 as its premise). -/
abbrev State.Clean (s : State) : Prop := s.err = false

/-- Two states alike in everything but the fault fields. -/
abbrev SameButFault (s t : State) : Prop :=
  s.freq = t.freq ∧ s.dur = t.dur ∧ s.phase = t.phase ∧ s.srate = t.srate ∧ s.out = t.out ∧
    s.port = t.port ∧ s.tables = t.tables

/-- The words of a list executed one after another, each on the state the one before it left. -/
def execWords : List CmdWord → State → Host.Outcome State Fault Refusal
  | [], s => .next s
  | w :: ws, s =>
    match execWord w s with
    | .next t => execWords ws t
    | .fault r => .fault r
    | .refused r => .refused r

/-! ### Binary32 values as rational numbers -/

/-- The value of a finite binary32 encoding (R100); 0 for one that is not finite. -/
def fvalue (x : F32) : ℚ :=
  match funits x with
  | some u => (u : ℚ) / unitsPerOne
  | none => 0

/-- The largest finite binary32 value. -/
def fmax : F32 := 0x7F7FFFFF

/-- `r` is the binary32 value the exact number `x` rounds to (R100): no finite value is nearer, and where
another one is as near, the last fraction bit of `r` is even. -/
def RoundsTo (x : ℚ) (r : F32) : Prop :=
  ffinite r = true ∧
    ∀ c : F32, ffinite c = true →
      |fvalue r - x| ≤ |fvalue c - x| ∧
        (|fvalue r - x| = |fvalue c - x| → fvalue c ≠ fvalue r → r.toNat % 2 = 0)

/-! ### The host -/

/-- R144, R154: the octave in 0..6, the divisor in 1..64, and a tempo that is that of the rate the host works
with (70 R204). -/
abbrev HostState.Inv (h : HostState) : Prop :=
  h.octave ≤ 6 ∧ 1 ≤ h.divisor ∧ h.divisor ≤ 64 ∧ 32 ≤ h.bpm ∧ h.bpm ≤ 255 ∧
    h.tempo = tempoAt h.rate h.bpm

/-- The characters that start a command of the song language (R145). -/
def songStarts : List Char :=
  ['A', 'B', 'C', 'D', 'E', 'F', 'G', 'a', 'b', 'c', 'd', 'e', 'f', 'g', 'O', 'o', '<', '>', 'P', 'p'] ++
  ['N', 'n', 'L', 'l', 'M', 'm', 'T', 't']

/-- The bytes of the script that are still to be read, from the next significant character on (R145). -/
def HostState.ahead (p : HostParams) (h : HostState) : Script :=
  (h.skipSpace p).script.drop (h.skipSpace p).cursor

/-- The script that the next fill request works on (R163). -/
def HostState.nextScript (h : HostState) : Script := h.published.getD h.script

/-- Every command of the script, from whatever byte the Sequencer starts, has a form the source settles
(R146; log 11). -/
def Settled (p : HostParams) (t : Script) : Prop :=
  ∀ h : HostState, h.script = t → (resolve p h).1 ≠ .unsettled

/-- A response without a fault, or with `FREQ_RANGE`: all that a conforming host ever gets (60 R193). -/
abbrev Response.LegalWord (r : Response) : Prop := r.fault = 0 ∨ r.fault = causeCode .freqRange

end Sys2Proof.Machine
end

