-- ==== Sys2Proof/Certificates/Slice0/Obligations.lean ====
section
/-! DEFINITION. The statements for the provers. Each follows the rules of spec/ its docstring names. A
statement holds for every table content and for every value of the free constants of Config. -/

open Sys2Proof Sys2Proof.Machine

/-! ### Encoding and decoding -/

/-- 30 R61, R62, R63: no bit of an encoding is dropped. -/
def Obligations.DecodeOfEncode : Prop :=
  ∀ i : Instr, i.wf = true → decode (encode i) = .ok i

/-- 30 R60 to R64: each legal word has one meaning, and is the encoding of it. -/
def Obligations.EncodeOfDecode : Prop :=
  ∀ (w : CmdWord) (i : Instr), decode w = .ok i → i.wf = true ∧ encode i = w

/-- 30 R64, with the masks of R63: exactly which words fault at decode, and how. -/
def Obligations.IllegalWordsAreExactly : Prop :=
  ∀ w : CmdWord,
    let op := w.extractLsb' 56 8
    (decode w = .error .illegalOpcode ↔
      ¬ (op = 0x01 ∨ op = 0x02 ∨ op = 0x03 ∨ op = 0x10 ∨ op = 0x11 ∨ op = 0x12 ∨ op = 0x13 ∨
        op = 0x14 ∨ op = 0x20)) ∧
    (decode w = .error .illegalOperand ↔
      (op = 0x01 ∧ (w &&& 0x00000000FFFFFFFF ≠ 0 ∨ w.extractLsb' 32 24 = 0)) ∨
      (op = 0x02 ∧ (w &&& 0x00FFFFF0FFFFFFFF ≠ 0 ∨ 6 ≤ (w.extractLsb' 32 4).toNat)) ∨
      (op = 0x03 ∧ w &&& 0x00FFFFFFFFFFFFFF ≠ 0) ∨
      (op = 0x10 ∧ (w &&& 0x00FFF88C00000000 ≠ 0 ∨ w.extractLsb' 36 3 = 7 ∨
        w.extractLsb' 32 2 = 3)) ∨
      (op = 0x11 ∧ w &&& 0x00FF000000000000 ≠ 0) ∨
      (op = 0x12 ∧ w &&& 0x00FFFFFF00000000 ≠ 0) ∨
      (op = 0x13 ∧ w &&& 0x00FF000000000000 ≠ 0) ∨
      (op = 0x14 ∧ w &&& 0x00FFFFFFFFFFFFFF ≠ 0) ∨
      (op = 0x20 ∧ w &&& 0x00FFFFFF00000000 ≠ 0)) ∧
    decode w ≠ .error .freqRange

/-- Words of 95_test_vectors.md 2.1, one for each command, decode to what they stand for. -/
def Obligations.SpecWordsDecode : Prop :=
  decode 0x0100AC4400000000 = .ok (.cfgsr 44100) ∧
  decode 0x0200000500000000 = .ok (.rdreg .inc) ∧
  decode 0x0300000000000000 = .ok .clrerr ∧
  decode 0x1000040100000002 = .ok (.note 4 .a .plus 2) ∧
  decode 0x1100FFFD00000001 = .ok (.noten (-3) 1) ∧
  decode 0x1200000000000002 = .ok (.rest 2) ∧
  decode 0x1300019000002274 = .ok (.tone 400 8820) ∧
  decode 0x1400000000000000 = .ok .cancel ∧
  decode 0x20000000FFFFFFFF = .ok (.fill 4294967295)

/-! ### The step -/

/-- 00 R17: the step takes the word at the head of the port, removes it, and executes the instruction it
decodes to. -/
def Obligations.StepRunsTheDecodedCommand : Prop :=
  ∀ (s : State) (w : CmdWord) (ws : List CmdWord) (i : Instr),
    s.port = w :: ws → decode w = .ok i → step s = exec i { s with port := ws }

/-- The model's choice (log 6), DEDUCED from 00 R17: with an empty port a step changes nothing. -/
def Obligations.StepIdlesOnAnEmptyPort : Prop :=
  ∀ s : State, s.port = [] → step s = .next s

/-- 00 R16: every word on the port, in every state, is answered by a next state with exactly one more
response; the samples of the response are what the command appended to `OUT`, and only `FILL` has any; a
fault response has the value 0 and no samples, and its code is one of 1, 2, 3 (60 R180). -/
def Obligations.EveryCommandEndsWithOneResponse : Prop :=
  ∀ (s : State) (w : CmdWord) (ws : List CmdWord), s.port = w :: ws →
    ∃ (t : State) (r : Response), step s = .next t ∧ t.port = ws ∧
      t.responses = s.responses ++ [r] ∧ t.out = s.out ++ r.samples ∧
      (r.samples ≠ [] → ∃ c, decode w = .ok (.fill c)) ∧
      (r.fault ≠ 0 → r.value = 0 ∧ r.samples = []) ∧ r.fault.toNat ≤ 3

/-- 60 R185, with the codes of R180: the fault entry, for each of the three faults. A word that decode
refuses, or a `NOTE` whose shifted frequency leaves 0..65535, forces `DUR` to 0, logs the first fault
and answers the code; everything else keeps its value. -/
def Obligations.FaultEntryChangesOnlyFaultState : Prop :=
  ∀ (s : State) (w : CmdWord) (ws : List CmdWord) (code : BitVec 4), s.port = w :: ws →
    (decode w = .error .illegalOpcode ∧ code = 1 ∨
      decode w = .error .illegalOperand ∧ code = 2 ∨
      (∃ o l a d, decode w = .ok (.note o l a d) ∧ code = 3 ∧
        let f0 := (s.tables.ftab[o])[s.tables.semi[letterIndex l]]
        (a = .minus ∧ f0 = 0 ∨ a = .plus ∧ f0 = 65535))) →
    step s = .next { s with
      port := ws, dur := 0, err := true, cause := if s.err then s.cause else code,
      responses := s.responses ++ [{ fault := code, value := 0, samples := [] }] }

/-- 20 R52, R53: whatever interleaving of two hosts' words the port delivers, the steps execute all of its
words, one whole after another in the order of the port, each with one response, and none is left. -/
def Obligations.EveryInterleavingIsExecuted : Prop :=
  ∀ (s : State) (as bs es : List CmdWord), Merge as bs es → s.port = es →
    ∃ t, core.run (as.length + bs.length) s = .next t ∧
      execWords es { s with port := [] } = .next t ∧ t.port = [] ∧
      ∃ rs : List Response, t.responses = s.responses ++ rs ∧ rs.length = es.length ∧
        ∀ (k : Nat) (w : CmdWord), es[k]? = some w →
          ∃ u v, execWords (es.take k) { s with port := [] } = .next u ∧ execWord w u = .next v ∧
            u.responses = s.responses ++ rs.take k ∧ v.responses = s.responses ++ rs.take (k + 1)

/-! ### Reset and invariants -/

/-- 10 R31: the state after reset. The tables are any that meet the constraints of 20 R42. -/
def Obligations.ResetLeavesTheseValues : Prop :=
  State.reset.dur = 0 ∧ State.reset.freq = 0 ∧ State.reset.phase = 0x00000000 ∧
  State.reset.srate = 44100 ∧ State.reset.err = false ∧ State.reset.cause = 0 ∧
  State.reset.out = [] ∧ active State.reset = false ∧ State.reset.tables.Admissible

/-- 70 R200: the reset input sets every piece of state to its reset value, discards the words not yet
executed and leaves the tables. That the list of responses starts anew is the model's choice (log 7). -/
def Obligations.ResetInputSetsEverything : Prop :=
  ∀ s : State, platformReset s =
    { freq := 0, dur := 0, phase := 0x00000000, srate := 44100, err := false, cause := 0,
      out := [], port := [], responses := [], tables := s.tables }

/-- 10 R30 at reset. -/
def Obligations.ResetMeetsTheInvariant : Prop :=
  State.reset.Inv

/-- 10 R30: after every step from a state that meets it, (a) the phase is finite, not negative, no
negative zero and below 128; (c) `SRATE` is not 0; (d) `CAUSE` = 0 exactly when `ERR` = 0; (e) the bit
`ACTIVE` of `STATUS` is 1 exactly when `DUR` is not 0, and (b) `DUR` is in its range; and the codes 4..15
are never recorded (60 R180). The state need not be reachable. -/
def Obligations.StepKeepsTheInvariant : Prop :=
  ∀ s t : State, s.Inv → step s = .next t →
    t.Inv ∧ t.dur.toNat ≤ 2 ^ 32 - 1 ∧ ((statusWord t).getLsbD 0 = true ↔ t.dur ≠ 0)

/-- 20 R46, 10 R32: no step changes a table. -/
def Obligations.StepNeverChangesTables : Prop :=
  ∀ s t : State, step s = .next t → t.tables = s.tables

/-! ### Note setup (40) -/

/-- 40 R82, whole: which words with `OP` = 0x10 are a `NOTE`, its result with its frame, and the fault
`FREQ_RANGE` in the words of R185. -/
def Obligations.NoteLooksUpByLetter : Prop :=
  (∀ (a : BitVec 24) (b : BitVec 32) (l : Letter) (acc : Accidental),
    (a &&& 0xFFF88C = 0 ∧ a.extractLsb' 4 3 = letterCode l ∧
      a.extractLsb' 0 2 = accidentalCode acc →
      decode (wordOf 0x10 a b) =
        .ok (.note (Fin.ofNat 8 (a.extractLsb' 8 3).toNat) l acc b)) ∧
    (a &&& 0xFFF88C ≠ 0 ∨ a.extractLsb' 4 3 = 7 ∨ a.extractLsb' 0 2 = 3 →
      decode (wordOf 0x10 a b) = .error .illegalOperand)) ∧
  (∀ (s : State) (oct : Fin 8) (l : Letter) (acc : Accidental) (dur : BitVec 32),
    let f0 : Int := ((s.tables.ftab[oct])[s.tables.semi[letterIndex l]]).toNat
    let f : Int := match acc with
      | .none => f0
      | .plus => f0 + 1
      | .minus => f0 - 1
    (0 ≤ f ∧ f ≤ 65535 →
      exec (.note oct l acc dur) s = .next { s with
        freq := BitVec.ofInt 16 f, dur := dur,
        responses := s.responses ++ [{ fault := 0, value := 0, samples := [] }] }) ∧
    (f < 0 ∨ 65535 < f →
      exec (.note oct l acc dur) s = .next { s with
        dur := 0, err := true, cause := if s.err then s.cause else 3,
        responses := s.responses ++ [{ fault := 3, value := 0, samples := [] }] }))

/-- 40 R83, whole: `NOTEN` clamps its signed operand to 0..84 and reads `FTAB[c div 12][c mod 12]`. -/
def Obligations.NotenLooksUpByNumber : Prop :=
  (∀ (a : BitVec 24) (b : BitVec 32),
    decode (wordOf 0x11 a b) =
      if a &&& 0xFF0000 = 0 then .ok (.noten (a.extractLsb' 0 16) b)
      else .error .illegalOperand) ∧
  (∀ (s : State) (n : BitVec 16) (dur : BitVec 32) (c : Nat),
    (c : Int) = max 0 (min 84 n.toInt) →
      exec (.noten n dur) s = .next { s with
        freq := (s.tables.ftab[Fin.ofNat 8 (c / 12)])[Fin.ofNat 12 (c % 12)], dur := dur,
        responses := s.responses ++ [{ fault := 0, value := 0, samples := [] }] })

/-- 40 R84: which words are a `REST`, its result and its frame. -/
def Obligations.RestSetsSilence : Prop :=
  (∀ (a : BitVec 24) (b : BitVec 32),
    decode (wordOf 0x12 a b) = if a = 0 then .ok (.rest b) else .error .illegalOperand) ∧
  (∀ (s : State) (dur : BitVec 32),
    exec (.rest dur) s = .next { s with
      freq := 0, dur := dur,
      responses := s.responses ++ [{ fault := 0, value := 0, samples := [] }] })

/-- 40 R85: which words are a `TONE`, its result and its frame; it sets the phase to `+0.0`, also when
`dur` or `f` is 0. -/
def Obligations.ToneSetsFrequencyAndPhase : Prop :=
  (∀ (a : BitVec 24) (b : BitVec 32),
    decode (wordOf 0x13 a b) =
      if a &&& 0xFF0000 = 0 then .ok (.tone (a.extractLsb' 0 16) b)
      else .error .illegalOperand) ∧
  (∀ (s : State) (f : BitVec 16) (dur : BitVec 32),
    exec (.tone f dur) s = .next { s with
      freq := f, dur := dur, phase := 0x00000000,
      responses := s.responses ++ [{ fault := 0, value := 0, samples := [] }] })

/-- 40 R86: which word is `CANCEL`, its result and its frame. -/
def Obligations.CancelTruncatesTheNote : Prop :=
  (∀ (a : BitVec 24) (b : BitVec 32),
    decode (wordOf 0x14 a b) =
      if a = 0 ∧ b = 0 then .ok .cancel else .error .illegalOperand) ∧
  (∀ s : State,
    exec .cancel s = .next { s with
      dur := 0, responses := s.responses ++ [{ fault := 0, value := 0, samples := [] }] })

/-- 40 R80: a note-setup command that does not fault gives the same state whatever the note in flight
was. (`NOTE` with no accidental never faults; with one it does not when the shifted frequency is in
range.) -/
def Obligations.NoteSetupDiscardsTheOldNote : Prop :=
  ∀ (s : State) (f' : BitVec 16) (d' : BitVec 32) (i : Instr),
    ((∃ o l a d, i = .note o l a d ∧
        let f0 := (s.tables.ftab[o])[s.tables.semi[letterIndex l]]
        ¬ (a = .minus ∧ f0 = 0) ∧ ¬ (a = .plus ∧ f0 = 65535)) ∨
      (∃ n d, i = .noten n d) ∨ (∃ d, i = .rest d) ∨ (∃ f d, i = .tone f d)) →
    exec i { s with freq := f', dur := d' } = exec i s

/-- 20 R53, 40 R85, R86: once `CANCEL` has executed no `FILL` emits a sample, and what follows a `TONE` does
not depend on the old note at all. -/
def Obligations.NewRequestPreemptsTheOldNote : Prop :=
  (∀ (s t u : State) (c : BitVec 32), exec .cancel s = .next t → exec (.fill c) t = .next u →
    u.out = s.out) ∧
  (∀ (s : State) (f f' : BitVec 16) (d d' : BitVec 32) (p' : F32),
    exec (.tone f d) { s with freq := f', dur := d', phase := p' } = exec (.tone f d) s)

/-- 20 R42 (a), with 40 R82: for every admissible table the seven naturals of octave 4 give the source's
seven frequencies, and a sharp or a flat is one unit away. -/
def Obligations.OctaveFourNaturals : Prop :=
  ∀ (s : State) (l : Letter) (acc : Accidental) (dur : BitVec 32), s.tables.Admissible →
    let hz : Int := match l with
      | .a => 440
      | .b => 494
      | .c => 262
      | .d => 294
      | .e => 330
      | .f => 349
      | .g => 392
    let f : Int := match acc with
      | .none => hz
      | .plus => hz + 1
      | .minus => hz - 1
    exec (.note 4 l acc dur) s = .next { s with
      freq := BitVec.ofInt 16 f, dur := dur,
      responses := s.responses ++ [{ fault := 0, value := 0, samples := [] }] }

/-! ### The oscillator (41) -/

/-- 41 R107, with R110: one sample step. `DUR` > 0. -/
def Obligations.SampleStepEmitsThenAdvances : Prop :=
  ∀ s : State, s.dur ≠ 0 →
    (sampleStep s).dur.toNat + 1 = s.dur.toNat ∧
    (s.freq = 0 → sampleStep s = { s with out := s.out ++ [0], dur := s.dur - 1 }) ∧
    (s.freq ≠ 0 → sampleStep s = { s with
      out := s.out ++ [cast16 (interp s.tables s.phase)],
      phase := phaseAdvance s.phase (phaseInc s.freq s.srate), dur := s.dur - 1 })

/-- 41 R108, R109: which words are a `FILL`; it does exactly `min(cnt, DUR)` times the sample step of R107,
answers the `DUR` that is left and the samples in order, and writes nothing else. -/
def Obligations.FillEmitsMinOfCountAndDuration : Prop :=
  (∀ (a : BitVec 24) (b : BitVec 32),
    decode (wordOf 0x20 a b) = if a = 0 then .ok (.fill b) else .error .illegalOperand) ∧
  (∀ (s : State) (cnt : BitVec 32),
    let k := min cnt.toNat s.dur.toNat
    ∃ samples : List Sample, samples.length = k ∧
      (sampleStep^[k] s).out = s.out ++ samples ∧
      exec (.fill cnt) s = .next { s with
        dur := BitVec.ofNat 32 (s.dur.toNat - k), phase := (sampleStep^[k] s).phase,
        out := s.out ++ samples,
        responses := s.responses ++
          [{ fault := 0, value := BitVec.ofNat 32 (s.dur.toNat - k), samples := samples }] })

/-- 41 R108, "FILL a followed by FILL b is the same state and the same OUT as FILL (a + b)": all of the
state but the list of responses. -/
def Obligations.SplitFillsEqualOneFill : Prop :=
  ∀ (s t u v : State) (a b : BitVec 32), a.toNat + b.toNat < 2 ^ 32 →
    exec (.fill a) s = .next t → exec (.fill b) t = .next u → exec (.fill (a + b)) s = .next v →
    { u with responses := v.responses } = v ∧
      u.responses.length = v.responses.length + 1

/-- 41 R110: during a rest a `FILL` emits zeros and leaves the phase. -/
def Obligations.RestPathEmitsZeros : Prop :=
  ∀ (s : State) (cnt : BitVec 32), s.freq = 0 →
    let k := min cnt.toNat s.dur.toNat
    exec (.fill cnt) s = .next { s with
      dur := s.dur - BitVec.ofNat 32 k, out := s.out ++ List.replicate k 0,
      responses := s.responses ++
        [{ fault := 0, value := s.dur - BitVec.ofNat 32 k, samples := List.replicate k 0 }] }

/-- 41 R107: "the first sample after TONE is WAVE[0]", for every waveform. -/
def Obligations.FirstSampleAfterToneIsWaveZero : Prop :=
  ∀ (s t u : State) (f : BitVec 16) (d c : BitVec 32), f ≠ 0 → d ≠ 0 → c ≠ 0 →
    exec (.tone f d) s = .next t → exec (.fill c) t = .next u →
    ∃ rest : List Sample, u.out = s.out ++ s.tables.wave[0] :: rest

/-- 41 R100: `fadd`, `fsub`, `fmul`, `fdiv` give the exact result rounded once to nearest, ties to even,
for finite operands whose exact result does not pass the largest finite value. -/
def Obligations.FloatOpsRoundToNearestEven : Prop :=
  ∀ a b : F32, ffinite a = true → ffinite b = true →
    (|fvalue a + fvalue b| ≤ fvalue fmax → RoundsTo (fvalue a + fvalue b) (fadd a b)) ∧
    (|fvalue a - fvalue b| ≤ fvalue fmax → RoundsTo (fvalue a - fvalue b) (fsub a b)) ∧
    (|fvalue a * fvalue b| ≤ fvalue fmax → RoundsTo (fvalue a * fvalue b) (fmul a b)) ∧
    (fvalue b ≠ 0 → |fvalue a / fvalue b| ≤ fvalue fmax →
      RoundsTo (fvalue a / fvalue b) (fdiv a b))

/-- 41 R101: `cvt` is exact below 2^24; `ffloor` and `ftrunc` are exact. -/
def Obligations.ConversionsAreExact : Prop :=
  (∀ n : Int, n.natAbs < 2 ^ 24 → ffinite (cvt n) = true ∧ fvalue (cvt n) = n) ∧
  (∀ p : F32, ffinite p = true →
    ffloor p = ⌊fvalue p⌋ ∧ ftrunc p = if 0 ≤ fvalue p then ⌊fvalue p⌋ else ⌈fvalue p⌉)

/-- 41 R102: the increment is finite, positive and between 128/(2^24 - 1) and 128 * 65535, and its sum with
any phase is below 2^24. -/
def Obligations.PhaseIncrementIsBounded : Prop :=
  ∀ (f : BitVec 16) (sr : BitVec 24), f ≠ 0 → sr ≠ 0 →
    ffinite (phaseInc f sr) = true ∧ fsign (phaseInc f sr) = false ∧
    (128 : ℚ) / (2 ^ 24 - 1) ≤ fvalue (phaseInc f sr) ∧
    fvalue (phaseInc f sr) ≤ 128 * 65535 ∧
    ∀ p : F32, PhaseOk p →
      ffinite (fadd p (phaseInc f sr)) = true ∧ 0 ≤ fvalue (fadd p (phaseInc f sr)) ∧
      fvalue (fadd p (phaseInc f sr)) < 2 ^ 24

/-- 41 R106: the advanced phase is `p1 - 128 * floor(p1 / 128)` exactly, and lies in [0, 128). -/
def Obligations.PhaseAdvanceWrapsExactly : Prop :=
  ∀ (p : F32) (f : BitVec 16) (sr : BitVec 24), PhaseOk p → f ≠ 0 → sr ≠ 0 →
    let p1 := fadd p (phaseInc f sr)
    let p2 := phaseAdvance p (phaseInc f sr)
    PhaseOk p2 ∧ fvalue p2 = fvalue p1 - 128 * ⌊fvalue p1 / 128⌋ ∧
      0 ≤ fvalue p2 ∧ fvalue p2 < 128

/-- 41 R102: after a step from a state that meets the invariant, `PHASE` is `+0.0` or at least 2^-17 if it was
so before: it is never subnormal, and never a negative zero. -/
def Obligations.PhaseIsZeroOrNormal : Prop :=
  ∀ s t : State, s.Inv → (s.phase = 0x00000000 ∨ (1 : ℚ) / 2 ^ 17 ≤ fvalue s.phase) →
    step s = .next t → t.phase = 0x00000000 ∨ (1 : ℚ) / 2 ^ 17 ≤ fvalue t.phase

/-- 41 R106: the wrap is what `k` successive operations `fsub(., cvt(128))` return
(90_conflicts.md C3: "subtraction" and "modulo" agree), for a sum below 2^24, which every sum of a phase
and an increment is. -/
def Obligations.WrapIsRepeatedSubtraction : Prop :=
  ∀ (p : F32) (k : Nat), ffinite p = true → fsign p = false → fvalue p < 2 ^ 24 →
    (k : Int) = ⌊fvalue p / 128⌋ →
    phaseWrap p = (fun x => fsub x (cvt 128))^[k] p

/-- 41 R104: the interpolated value lies between the two entries around the phase; with a fraction of zero,
or with equal entries, it is the first entry exactly. -/
def Obligations.InterpLiesBetweenNeighbours : Prop :=
  ∀ (t : Tables) (p : F32) (i : Fin 128), PhaseOk p → (i.val : Int) = ⌊fvalue p⌋ →
    let a : ℚ := (t.wave[i]).toInt
    let b : ℚ := (t.wave[Fin.ofNat 128 (i.val + 1)]).toInt
    ffinite (interp t p) = true ∧ min a b ≤ fvalue (interp t p) ∧
      fvalue (interp t p) ≤ max a b ∧
      (fvalue p = i.val → fvalue (interp t p) = a) ∧ (a = b → fvalue (interp t p) = a)

/-- 41 R105: the cast truncates toward zero and never overflows. -/
def Obligations.CastNeverOverflows : Prop :=
  ∀ (t : Tables) (p : F32), PhaseOk p →
    (cast16 (interp t p)).toInt =
      if 0 ≤ fvalue (interp t p) then ⌊fvalue (interp t p)⌋ else ⌈fvalue (interp t p)⌉

/-- 41 R112, 20 R49: both waveform indices of a phase are in the table, the first is the floor of the
phase, and 127 is followed by 0. -/
def Obligations.WaveIndicesStayInTable : Prop :=
  ∀ p : F32, PhaseOk p →
    0 ≤ ffloor p ∧ ffloor p ≤ 127 ∧ ((waveIndex (ffloor p)).val : Int) = ffloor p ∧
    ((waveIndex (ffloor p + 1)).val : Int) = if ffloor p = 127 then 0 else ffloor p + 1

/-! ### System commands (42) and the status register -/

/-- 42 R130: `CFGSR`, its result and its frame; a word with `sr` = 0 or `B` not 0 is illegal. -/
def Obligations.CfgsrSetsTheRate : Prop :=
  (∀ (a : BitVec 24) (b : BitVec 32),
    decode (wordOf 0x01 a b) =
      if b = 0 ∧ a ≠ 0 then .ok (.cfgsr a) else .error .illegalOperand) ∧
  (∀ (s : State) (sr : BitVec 24), sr ≠ 0 →
    exec (.cfgsr sr) s = .next { s with
      srate := sr, responses := s.responses ++ [{ fault := 0, value := 0, samples := [] }] })

/-- The model's choice (log 8): the instruction `CFGSR` 0, which no word decodes to, takes the entry of
`ILLEGAL_OPERAND`. -/
def Obligations.CfgsrZeroTakesTheFault : Prop :=
  ∀ s : State, exec (.cfgsr 0) s = .next { s with
    dur := 0, err := true, cause := if s.err then s.cause else 2,
    responses := s.responses ++ [{ fault := 2, value := 0, samples := [] }] }

/-- 42 R131, 10 R26, whole: `RDREG` answers the register or view of its index and writes nothing. -/
def Obligations.RdregReadsEveryRegister : Prop :=
  (∀ (a : BitVec 24) (b : BitVec 32),
    (b = 0 ∧ a.toNat ≤ 5 → ∃ r, regCode r = a.extractLsb' 0 4 ∧
      decode (wordOf 0x02 a b) = .ok (.rdreg r)) ∧
    (b ≠ 0 ∨ 6 ≤ a.toNat → decode (wordOf 0x02 a b) = .error .illegalOperand)) ∧
  (∀ (s : State) (r : Reg), ∃ v : BitVec 32,
    exec (.rdreg r) s = .next { s with
      responses := s.responses ++ [{ fault := 0, value := v, samples := [] }] } ∧
    match r with
    | .status => v = statusWord s
    | .srate => v.toNat = s.srate.toNat
    | .freq => v.toNat = s.freq.toNat
    | .dur => v = s.dur
    | .phase => v = s.phase
    | .inc => (s.freq = 0 → v = 0x00000000) ∧ (s.freq ≠ 0 → v = phaseInc s.freq s.srate))

/-- 42 R132, whole. -/
def Obligations.ClrerrClearsTheFaultFlag : Prop :=
  (∀ (a : BitVec 24) (b : BitVec 32),
    decode (wordOf 0x03 a b) =
      if a = 0 ∧ b = 0 then .ok .clrerr else .error .illegalOperand) ∧
  (∀ s : State,
    exec .clrerr s = .next { s with
      err := false, cause := 0,
      responses := s.responses ++ [{ fault := 0, value := 0, samples := [] }] })

/-- 10 R25: the fields of `STATUS`, every bit. -/
def Obligations.StatusFields : Prop :=
  ∀ s : State,
    ((statusWord s).getLsbD 0 = true ↔ s.dur ≠ 0) ∧ (statusWord s).getLsbD 1 = s.err ∧
    (statusWord s).extractLsb' 2 2 = 0 ∧ (statusWord s).extractLsb' 4 4 = s.cause ∧
    (statusWord s).extractLsb' 8 24 = 0

/-! ### Whole-machine rules -/

/-- 10 R21: no command but the four note-setup commands writes `FREQ`, and a fault does not change it. -/
def Obligations.OnlyNoteSetupWritesFreq : Prop :=
  ∀ (s t : State) (w : CmdWord) (ws : List CmdWord), s.port = w :: ws → step s = .next t →
    t.freq ≠ s.freq →
    ((∃ o l a d, decode w = .ok (.note o l a d)) ∨ (∃ n d, decode w = .ok (.noten n d)) ∨
      (∃ d, decode w = .ok (.rest d)) ∨ (∃ f d, decode w = .ok (.tone f d))) ∧
    ∃ r, t.responses = s.responses ++ [r] ∧ r.fault = 0

/-- 10 R23, 41 R111: only `TONE`, and a `FILL` that emits samples of a sounding note, write `PHASE`. -/
def Obligations.OnlyToneAndSoundingFillWritePhase : Prop :=
  ∀ (s t : State) (w : CmdWord) (ws : List CmdWord), s.port = w :: ws → step s = .next t →
    t.phase ≠ s.phase →
    (∃ f d, decode w = .ok (.tone f d) ∧ t.phase = 0x00000000) ∨
    (∃ c, decode w = .ok (.fill c) ∧ c ≠ 0 ∧ s.dur ≠ 0 ∧ s.freq ≠ 0)

/-- 10 R24: only `CFGSR` writes `SRATE`, and never the value 0. -/
def Obligations.OnlyCfgsrWritesSrate : Prop :=
  ∀ (s t : State) (w : CmdWord) (ws : List CmdWord), s.port = w :: ws → step s = .next t →
    t.srate ≠ s.srate → ∃ sr, decode w = .ok (.cfgsr sr) ∧ sr ≠ 0 ∧ t.srate = sr

/-- 10 R22: who writes `DUR`. A fault sets it to 0; a note-setup command sets it to its operand; `CANCEL`
sets it to 0; `FILL` never raises it; the system commands leave it. -/
def Obligations.WritersOfDuration : Prop :=
  ∀ (s t : State) (w : CmdWord) (ws : List CmdWord), s.port = w :: ws → step s = .next t →
    ∃ r, t.responses = s.responses ++ [r] ∧
      (r.fault ≠ 0 → t.dur = 0) ∧
      (r.fault = 0 → ∃ i, decode w = .ok i ∧
        match i with
        | .note _ _ _ d => t.dur = d
        | .noten _ d => t.dur = d
        | .rest d => t.dur = d
        | .tone _ d => t.dur = d
        | .cancel => t.dur = 0
        | .fill c => t.dur.toNat = s.dur.toNat - c.toNat
        | .cfgsr _ => t.dur = s.dur
        | .rdreg _ => t.dur = s.dur
        | .clrerr => t.dur = s.dur)

/-- 60 R186: `ERR` and the first `CAUSE` stay until the `CLRERR` word clears them, whatever word is
executed. -/
def Obligations.FaultFlagStaysUntilClrerr : Prop :=
  ∀ (s t : State) (w : CmdWord) (ws : List CmdWord), s.port = w :: ws → s.err = true →
    step s = .next t →
    (w = 0x0300000000000000 → t.err = false ∧ t.cause = 0) ∧
    (w ≠ 0x0300000000000000 → t.err = true ∧ t.cause = s.cause)

/-- 60 R186, 10 R25: what a command does never depends on `ERR` or `CAUSE`. Two states alike but for the
fault fields step to two such states, and the responses differ for `RDREG STATUS` alone. -/
def Obligations.FaultFlagNeverChangesExecution : Prop :=
  ∀ (s t s' t' : State) (w : CmdWord) (ws : List CmdWord), SameButFault s t → s.port = w :: ws →
    step s = .next s' → step t = .next t' →
    SameButFault s' t' ∧
    (w ≠ 0x0200000000000000 → ∃ r,
      s'.responses = s.responses ++ [r] ∧ t'.responses = t.responses ++ [r])

/-! ### Serialisation -/

/-- 30 R69: the response word's fields, and the samples before it. -/
def Obligations.ResponseWordLayout : Prop :=
  ∀ r : Response,
    (responseWord r).extractLsb' 60 4 = r.fault ∧ (responseWord r).extractLsb' 32 28 = 0 ∧
    (responseWord r).extractLsb' 0 32 = r.value ∧
    transfers r = r.samples.map .sample ++ [.response (responseWord r)]

/-- 20 R47, R48: little-endian, for words, responses and samples; no bit is lost. -/
def Obligations.BytesAreLittleEndian : Prop :=
  (∀ (w : CmdWord) (k : Nat), k < 8 → (wordBytes w)[k]? = some (w.extractLsb' (8 * k) 8)) ∧
  (∀ (r : Response) (k : Nat), k < 8 →
    (responseBytes r)[k]? = some ((responseWord r).extractLsb' (8 * k) 8)) ∧
  (∀ v : Sample, sampleBytes v = [v.extractLsb' 0 8, v.extractLsb' 8 8]) ∧
  (∀ w : CmdWord, wordOfBytes (wordBytes w) = some w)

/-! ### The host layer (43) -/

/-- 43 R154: the tempo is `SRATE * 240 / bpm` rounded to the nearest integer, halves upward, with the
argument clamped to 32..255; 43 R167, 70 R204: after a legal `CFGSR` of an agent the block has the new
rate, and the host works with it and has the tempo that is right for it. That the host recomputes with
the `CFGSR` itself is the model's choice (log 16). -/
def Obligations.TempoIsNearestSampleCount : Prop :=
  (∀ (rate : BitVec 24) (n : Int),
    (tempoOf rate n : Int) = ⌊(rate.toNat : ℚ) * 240 / (max 32 (min 255 n) : ℤ) + 1 / 2⌋) ∧
  (∀ (p : HostParams) (y : System) (a : Agent) (sr : BitVec 24), sr ≠ 0 → y.block.port = [] →
    32 ≤ y.host.bpm → y.host.bpm ≤ 255 →
    ∃ y', y.event p (.word a (encode (.cfgsr sr))) = .ok y' ∧ y'.block.srate = sr ∧
      y'.host = { y.host with
        rate := sr, tempo := ⌊(sr.toNat : ℚ) * 240 / y.host.bpm + 1 / 2⌋.toNat })

/-- 43 R147, R152, R154: `O`, `L` and `T`, in either case, clamp their argument and give no block command. -/
def Obligations.OctaveLengthAndTempoAreClamped : Prop :=
  ∀ (p : HostParams) (h : HostState) (c : Byte) (text : Script) (n : Int) (used : Nat),
    h.ahead p = c :: text → parseInt p text = .int n used →
    (c = ascii 'O' ∨ c = ascii 'o' →
      (resolve p h).1 = .quiet ∧ ((resolve p h).2.octave : Int) = max 0 (min 6 n)) ∧
    (c = ascii 'L' ∨ c = ascii 'l' →
      (resolve p h).1 = .quiet ∧ ((resolve p h).2.divisor : Int) = max 1 (min 64 n)) ∧
    (c = ascii 'T' ∨ c = ascii 't' →
      (resolve p h).1 = .quiet ∧ (resolve p h).2.tempo = tempoOf h.rate n)

/-- 43 R149: a note letter, in either case, is a `NOTE` of the host's octave with the accidental and the
duration the suffixes give: `tempo div divisor`, or two thirds of it with a dot. -/
def Obligations.NoteLetterGivesNoteCommand : Prop :=
  ∀ (p : HostParams) (h : HostState) (c : Byte) (text : Script) (l : Letter) (acc : Accidental)
    (sign rest : Script),
    h.ahead p = c :: text → noteLetter (upper c) = some l →
    (acc = .plus ∧ sign = [ascii '+'] ∨ acc = .minus ∧ sign = [ascii '-'] ∨
      acc = .none ∧ sign = [] ∧ rest.head? ≠ some (ascii '+') ∧ rest.head? ≠ some (ascii '-')) →
    text = sign ++ rest →
    (resolve p h).1 = .command (.note (Fin.ofNat 8 h.octave) l acc (BitVec.ofNat 32
      (if rest.head? = some (ascii '.') then 2 * (h.tempo / h.divisor) / 3
        else h.tempo / h.divisor)))

/-- 43 R150, R151: `P<int>` is a `REST` of `tempo div clamp(n, 1, 64)` and leaves the divisor; `N<int>` is a
`NOTEN` of `tempo div divisor` whose note number the block clamps to the same value. -/
def Obligations.RestAndNumberCommands : Prop :=
  ∀ (p : HostParams) (h : HostState) (c : Byte) (text : Script) (n : Int) (used : Nat),
    h.ahead p = c :: text → parseInt p text = .int n used →
    (c = ascii 'P' ∨ c = ascii 'p' →
      (resolve p h).1 = .command (.rest (BitVec.ofNat 32 (h.tempo / (max 1 (min 64 n)).toNat))) ∧
      (resolve p h).2.divisor = h.divisor) ∧
    (c = ascii 'N' ∨ c = ascii 'n' → ∃ m : BitVec 16,
      (resolve p h).1 = .command (.noten m (BitVec.ofNat 32 (h.tempo / h.divisor))) ∧
      max 0 (min 84 m.toInt) = max 0 (min 84 n))

/-- 43 R144, 60 R193: the Sequencer keeps octave, divisor and tempo in range, only moves the cursor forward,
leaves the script, and gives the block only legal commands of the three kinds of R159, with an octave in
0..6; and every event keeps the ranges, with a tempo that is that of the host's rate (70 R204). -/
def Obligations.SequencerKeepsItsRanges : Prop :=
  (∀ (p : HostParams) (h : HostState), h.Inv →
    (resolve p h).2.Inv ∧ h.cursor ≤ (resolve p h).2.cursor ∧
    (resolve p h).2.script = h.script ∧
    ∀ i, (resolve p h).1 = .command i →
      decode (encode i) = .ok i ∧
      ((∃ o l a d, i = .note o l a d ∧ o.val ≤ 6) ∨ (∃ n d, i = .noten n d) ∨ (∃ d, i = .rest d))) ∧
  (∀ (p : HostParams) (e : Event) (y y' : System), y.host.Inv → y.event p e = .ok y' → y'.host.Inv)

/-- 43 R140, R170, 60 R193. A move of the Driver issues one command at most: `NOTE`, `NOTEN`, `REST`, `FILL`,
or `RDREG DUR`. The boot sequence of a device with a rate is a conforming run (70 R202), after which the
block and the host have that rate. On a run of a conforming host, from a device that is not open, no
word is illegal: no response has a fault but `FREQ_RANGE`. That the host is within its ranges after the
boot sequence, whatever its default beats, rests on the model's choice to clamp the defaults (log 19);
what a conforming run is, on log 23. -/
def Obligations.ConformingHostSendsLegalWords : Prop :=
  (∀ (p : HostParams) (y y' : System), driverMove p y = .ok y' →
    y'.block = y.block ∨ ∃ i, y'.block = issueWord (encode i) y.block ∧
      ((∃ o l a d, i = .note o l a d) ∨ (∃ n d, i = .noten n d) ∨ (∃ d, i = .rest d) ∨
        (∃ c, i = .fill c) ∨ i = .rdreg .dur)) ∧
  (∀ (p : HostParams) (a : Agent) (rate : BitVec 24) (y : System), rate ≠ 0 → y.block.port = [] →
    Conforming .closed (bootEvents a rate) = true ∧
    ∃ y', System.events p (bootEvents a rate) y = .ok y' ∧ y'.block.srate = rate ∧
      y'.host.rate = rate ∧ y'.host.Inv ∧ y'.host.script = [] ∧ y'.host.divisor = 4) ∧
  (∀ (p : HostParams) (es : List Event) (y y' : System), Conforming .closed es = true →
    y.block.port = [] → (∀ r ∈ y.block.responses, r.LegalWord) →
    System.events p es y = .ok y' →
    y'.block.port = [] ∧ ∀ r ∈ y'.block.responses, r.LegalWord)

/-- 43 R156, R157, R159: in Awaiting-Command, a script whose next significant character starts no command
aborts: the whole buffer is silence, the script is empty, a warning is reported, and the block is
untouched but for the responses to the Driver's reads of `DUR`, if it polls (log 13). That the warning is
`malformedCommand` is the model's choice of its form (log 21). -/
def Obligations.UnknownCommandFallsSilent : Prop :=
  ∀ (p : HostParams) (n : Nat) (y : System) (c : Byte) (text : Script),
    y.host.request = none → y.host.published = none → y.block.port = [] → n ≠ 0 →
    (p.pollsDur = true ∧ y.block.dur = 0 ∨ p.pollsDur = false ∧ y.host.heard = 0) →
    y.host.ahead p = c :: text → c ≠ 0 →
    (∀ k ∈ songStarts, c ≠ ascii k) →
    ∃ y', callback p n y = .ok y' ∧ { y'.block with responses := y.block.responses } = y.block ∧
      (p.pollsDur = false → y'.block = y.block) ∧ y'.host.script = [] ∧
      y'.host.warnings = y.host.warnings ++ [.malformedCommand] ∧
      y'.host.audio = y.host.audio ++ List.replicate n 0

/-- 43 R158, 95 E5: a script of more than `LOOP_GUARD` repetitions of `L1` aborts within one request: the
buffer is silence, the script is empty, a warning is reported, and the block is untouched but for the
responses to the Driver's reads of `DUR`, if it polls (log 13). The parameters of R146 are such that `L` is
no white space and a digit is read. That the warning is `runawayScript` is the model's choice of its form
(log 21). -/
def Obligations.RunawayScriptFallsSilent : Prop :=
  ∀ (p : HostParams) (n : Nat) (y : System) (m : Nat),
    y.host.request = none → y.host.published = none → y.block.port = [] → n ≠ 0 →
    (p.pollsDur = true ∧ y.block.dur = 0 ∨ p.pollsDur = false ∧ y.host.heard = 0) →
    y.host.script = (List.replicate m [ascii 'L', ascii '1']).flatten → y.host.cursor = 0 →
    p.loopGuard < m → ascii 'L' ∉ p.whitespace → 1 ≤ p.argDigits →
    ∃ y', callback p n y = .ok y' ∧ { y'.block with responses := y.block.responses } = y.block ∧
      (p.pollsDur = false → y'.block = y.block) ∧ y'.host.script = [] ∧
      y'.host.warnings = y.host.warnings ++ [.runawayScript] ∧
      y'.host.audio = y.host.audio ++ List.replicate n 0

/-- 43 R158, R159, R162, 70 R207: a callback that nothing interrupts, on a script all of whose forms the
source settles, is served within the bound on the Driver's moves and delivers exactly the samples asked
for; and a callback stops for no other reason than a form the source leaves open (log 11). -/
def Obligations.CallbackDeliversExactlyTheBuffer : Prop :=
  (∀ (p : HostParams) (n : Nat) (y : System),
    y.host.request = none → y.block.port = [] → Settled p y.host.nextScript →
    ∃ y' buf, callback p n y = .ok y' ∧ y'.host.request = none ∧
      y'.host.audio = y.host.audio ++ buf ∧ buf.length = n) ∧
  (∀ (p : HostParams) (n : Nat) (y : System) (e : HostStop),
    y.host.request = none → y.block.port = [] → callback p n y = .error e →
    e = .unsettledScript ∧
      ∃ h : HostState, h.script = y.host.nextScript ∧ (resolve p h).1 = .unsettled)

/-- 43 R141, R163, R164: `Play` publishes its script and truncates the note in flight; the next fill
request starts from the whole new script. -/
def Obligations.PlayTruncatesAndRestarts : Prop :=
  ∀ (p : HostParams) (t : Script) (y : System), y.host.request = none → y.block.port = [] →
    ∃ y', System.events p (playEvents t) y = .ok y' ∧ y'.block.dur = 0 ∧
      y'.block.freq = y.block.freq ∧ y'.block.phase = y.block.phase ∧
      ∀ n : Nat, ∃ y'', startRequest n y' = .ok y'' ∧
        y''.host.script = t ∧ y''.host.cursor = 0

/-- 43 R142, R143, R167: `Beep()` of a host at 44100 Hz is the word of `TONE 400, 8820`, and `PlayTone`
issues one `TONE` of `floor(rate * seconds)` samples, at the rate the host works with. -/
def Obligations.PlayToneIsOneTone : Prop :=
  (∀ h : HostState, h.rate = 44100 →
    beepEvents h = .ok [.word .control 0x1300019000002274]) ∧
  (∀ (h : HostState) (f : BitVec 16) (d : BitVec 32) (seconds : ℚ),
    (d.toNat : Int) = ⌊(h.rate.toNat : ℚ) * seconds⌋ →
    playToneEvents h f.toNat seconds = .ok [.word .control (encode (.tone f d))])
end

