-- ==== Sys2Proof/Laws/Decode.lean ====
section
/-! SUPPORT. The numbers of the words and fields of format C64 (spec/30_encoding.md R61, R62), from which
claims about encodings follow by arithmetic; and that the opcode map is unambiguous (R63). -/

namespace Sys2Proof

/-- `word = OP ++ A ++ B`, as a number (R61). -/
theorem wordOf_toNat (op : BitVec 8) (a : BitVec 24) (b : BitVec 32) :
    (wordOf op a b).toNat = op.toNat * 2 ^ 56 + a.toNat * 2 ^ 32 + b.toNat := by
  have h : (wordOf op a b).toNat = (op ++ a ++ b).toNat := rfl
  rw [h, BitVec.toNat_append, BitVec.toNat_append, ← Nat.shiftLeft_add_eq_or_of_lt b.isLt,
    ← Nat.shiftLeft_add_eq_or_of_lt a.isLt, Nat.shiftLeft_eq, Nat.shiftLeft_eq]
  ring

/-- A word, bit by bit. -/
theorem wordOf_getLsbD (op : BitVec 8) (a : BitVec 24) (b : BitVec 32) (j : Nat) :
    (wordOf op a b).getLsbD j =
      if j < 32 then b.getLsbD j else if j < 56 then a.getLsbD (j - 32) else op.getLsbD (j - 56) := by
  have h : (wordOf op a b).getLsbD j = (op ++ a ++ b).getLsbD j := rfl
  rw [h, BitVec.getLsbD_append, BitVec.getLsbD_append]
  by_cases h1 : j < 32
  · simp [h1]
  · by_cases h2 : j < 56
    · rw [if_neg h1, if_neg h1, if_pos h2, if_pos (by omega)]
    · rw [if_neg h1, if_neg h1, if_neg h2, if_neg (by omega)]; rfl

/-- A mask acts on each field of its own. -/
theorem wordOf_and (op op' : BitVec 8) (a a' : BitVec 24) (b b' : BitVec 32) :
    wordOf op a b &&& wordOf op' a' b' = wordOf (op &&& op') (a &&& a') (b &&& b') := by
  apply BitVec.eq_of_getLsbD_eq
  intro j hj
  rw [BitVec.getLsbD_and, wordOf_getLsbD, wordOf_getLsbD, wordOf_getLsbD]
  split
  · rw [BitVec.getLsbD_and]
  · split <;> rw [BitVec.getLsbD_and]

/-- A word determines its fields. -/
theorem wordOf_inj {op op' : BitVec 8} {a a' : BitVec 24} {b b' : BitVec 32} :
    wordOf op a b = wordOf op' a' b' ↔ op = op' ∧ a = a' ∧ b = b' := by
  constructor
  · intro h
    have h' := congrArg BitVec.toNat h
    rw [wordOf_toNat, wordOf_toNat] at h'
    have := op.isLt
    have := op'.isLt
    have := a.isLt
    have := a'.isLt
    have := b.isLt
    have := b'.isLt
    refine ⟨BitVec.eq_of_toNat_eq ?_, BitVec.eq_of_toNat_eq ?_, BitVec.eq_of_toNat_eq ?_⟩ <;> omega
  · rintro ⟨rfl, rfl, rfl⟩; rfl

/-- The must-be-zero bits of `NOTE`'s operand `A` (R63: the derivation of its mask). -/
theorem noteOperandA_mask (o l : BitVec 3) (a : BitVec 2) : noteOperandA o l a &&& 0xFFF88C = 0 := by
  revert o l a; decide

/-- A 16-bit operand leaves the upper byte of `A` zero. -/
theorem setWidth_half_mask (n : BitVec 16) : n.setWidth 24 &&& 0xFF0000 = 0 := by
  apply BitVec.eq_of_getLsbD_eq
  intro j hj
  rw [BitVec.getLsbD_and, BitVec.getLsbD_setWidth]
  by_cases h : j < 16
  · have : (0xFF0000#24).getLsbD j = false := by
      revert j; decide
    simp [this]
  · simp [BitVec.getLsbD_of_ge n j (by omega)]

/-- Operand `A` of `NOTE`, as a number (R62). -/
theorem noteOperandA_toNat (o l : BitVec 3) (a : BitVec 2) :
    (noteOperandA o l a).toNat = o.toNat * 2 ^ 8 + l.toNat * 2 ^ 4 + a.toNat := by
  revert o l a; decide

/-! Each field, as a number. -/

theorem fieldOp_toNat (w : CmdWord) : (fieldOp w).toNat = w.toNat / 2 ^ 56 % 2 ^ 8 := by
  simp [fieldOp, Nat.shiftRight_eq_div_pow]

theorem fieldB_toNat (w : CmdWord) : (fieldB w).toNat = w.toNat % 2 ^ 32 := by
  simp [fieldB]

theorem fieldSr_toNat (w : CmdWord) : (fieldSr w).toNat = w.toNat / 2 ^ 32 % 2 ^ 24 := by
  simp [fieldSr, Nat.shiftRight_eq_div_pow]

theorem fieldHalf_toNat (w : CmdWord) : (fieldHalf w).toNat = w.toNat / 2 ^ 32 % 2 ^ 16 := by
  simp [fieldHalf, Nat.shiftRight_eq_div_pow]

theorem fieldOct_toNat (w : CmdWord) : (fieldOct w).toNat = w.toNat / 2 ^ 40 % 2 ^ 3 := by
  simp [fieldOct, Nat.shiftRight_eq_div_pow]

theorem fieldLet_toNat (w : CmdWord) : (fieldLet w).toNat = w.toNat / 2 ^ 36 % 2 ^ 3 := by
  simp [fieldLet, Nat.shiftRight_eq_div_pow]

theorem fieldAcc_toNat (w : CmdWord) : (fieldAcc w).toNat = w.toNat / 2 ^ 32 % 2 ^ 2 := by
  simp [fieldAcc, Nat.shiftRight_eq_div_pow]

theorem fieldReg_toNat (w : CmdWord) : (fieldReg w).toNat = w.toNat / 2 ^ 32 % 2 ^ 4 := by
  simp [fieldReg, Nat.shiftRight_eq_div_pow]

/-- A word is its fields put together (R61). -/
theorem wordOf_fields (w : CmdWord) : wordOf (fieldOp w) (fieldSr w) (fieldB w) = w := by
  apply BitVec.eq_of_toNat_eq
  rw [wordOf_toNat, fieldOp_toNat, fieldSr_toNat, fieldB_toNat]
  have := w.isLt; omega

/-! Each field of a word put together from its parts. -/

@[simp] theorem fieldOp_wordOf (op : BitVec 8) (a : BitVec 24) (b : BitVec 32) :
    fieldOp (wordOf op a b) = op := by
  apply BitVec.eq_of_toNat_eq
  rw [fieldOp_toNat, wordOf_toNat]
  have := op.isLt; have := a.isLt; have := b.isLt; omega

@[simp] theorem fieldSr_wordOf (op : BitVec 8) (a : BitVec 24) (b : BitVec 32) :
    fieldSr (wordOf op a b) = a := by
  apply BitVec.eq_of_toNat_eq
  rw [fieldSr_toNat, wordOf_toNat]
  have := op.isLt; have := a.isLt; have := b.isLt; omega

@[simp] theorem fieldB_wordOf (op : BitVec 8) (a : BitVec 24) (b : BitVec 32) :
    fieldB (wordOf op a b) = b := by
  apply BitVec.eq_of_toNat_eq
  rw [fieldB_toNat, wordOf_toNat]
  have := op.isLt; have := a.isLt; have := b.isLt; omega

@[simp] theorem fieldHalf_wordOf (op : BitVec 8) (a : BitVec 24) (b : BitVec 32) :
    fieldHalf (wordOf op a b) = a.extractLsb' 0 16 := by
  apply BitVec.eq_of_toNat_eq
  rw [fieldHalf_toNat, wordOf_toNat]
  have := op.isLt; have := a.isLt; have := b.isLt; simp; omega

@[simp] theorem fieldReg_wordOf (op : BitVec 8) (a : BitVec 24) (b : BitVec 32) :
    fieldReg (wordOf op a b) = a.extractLsb' 0 4 := by
  apply BitVec.eq_of_toNat_eq
  rw [fieldReg_toNat, wordOf_toNat]
  have := op.isLt; have := a.isLt; have := b.isLt; simp; omega

@[simp] theorem fieldAcc_wordOf (op : BitVec 8) (a : BitVec 24) (b : BitVec 32) :
    fieldAcc (wordOf op a b) = a.extractLsb' 0 2 := by
  apply BitVec.eq_of_toNat_eq
  rw [fieldAcc_toNat, wordOf_toNat]
  have := op.isLt; have := a.isLt; have := b.isLt; simp; omega

@[simp] theorem fieldLet_wordOf (op : BitVec 8) (a : BitVec 24) (b : BitVec 32) :
    fieldLet (wordOf op a b) = a.extractLsb' 4 3 := by
  apply BitVec.eq_of_toNat_eq
  rw [fieldLet_toNat, wordOf_toNat]
  have := op.isLt; have := a.isLt; have := b.isLt; simp [Nat.shiftRight_eq_div_pow]; omega

@[simp] theorem fieldOct_wordOf (op : BitVec 8) (a : BitVec 24) (b : BitVec 32) :
    fieldOct (wordOf op a b) = a.extractLsb' 8 3 := by
  apply BitVec.eq_of_toNat_eq
  rw [fieldOct_toNat, wordOf_toNat]
  have := op.isLt; have := a.isLt; have := b.isLt; simp [Nat.shiftRight_eq_div_pow]; omega

/-! The code tables are inverse to each other. -/

@[simp] theorem opOf_byte (op : Op) : opOf op.byte = some op := by cases op <;> rfl

@[simp] theorem letterOf_code (l : Letter) : letterOf (letterCode l) = some l := by cases l <;> rfl

@[simp] theorem accidentalOf_code (a : Accidental) : accidentalOf (accidentalCode a) = some a := by
  cases a <;> rfl

@[simp] theorem regOf_code (r : Reg) : regOf (regCode r) = some r := by cases r <;> rfl

theorem letterCode_ne_seven (l : Letter) : letterCode l ≠ 7 := by cases l <;> decide

/-- The opcode of an encoded instruction. -/
@[simp] theorem fieldOp_encode (i : Instr) : fieldOp (encode i) = i.op.byte := by
  apply BitVec.eq_of_toNat_eq
  rw [fieldOp_toNat, encode, wordOf_toNat]
  have h1 := (operandA i).isLt
  have h2 := (operandB i).isLt
  have h3 := i.op.byte.isLt
  omega

/-- Operand `B` of an encoded instruction. -/
@[simp] theorem fieldB_encode (i : Instr) : fieldB (encode i) = operandB i := by
  apply BitVec.eq_of_toNat_eq
  rw [fieldB_toNat, encode, wordOf_toNat]
  have h2 := (operandB i).isLt
  omega

/-- Operand `A` of an encoded instruction: the field `sr` is all of it. -/
@[simp] theorem fieldSr_encode (i : Instr) : fieldSr (encode i) = operandA i := by
  apply BitVec.eq_of_toNat_eq
  rw [fieldSr_toNat, encode, wordOf_toNat]
  have h1 := (operandA i).isLt
  have h2 := (operandB i).isLt
  omega

/-! ### Decoding a word of its fields -/

/-- The must-be-zero bits of `A` for each opcode (R62, R63). -/
def Op.zeroA : Op → BitVec 24
  | .cfgsr => 0
  | .rdreg => 0xFFFFF0
  | .clrerr => 0xFFFFFF
  | .note => 0xFFF88C
  | .noten => 0xFF0000
  | .rest => 0xFFFFFF
  | .tone => 0xFF0000
  | .cancel => 0xFFFFFF
  | .fill => 0xFFFFFF

/-- The must-be-zero bits of `B` for each opcode. -/
def Op.zeroB : Op → BitVec 32
  | .cfgsr => 0xFFFFFFFF
  | .rdreg => 0xFFFFFFFF
  | .clrerr => 0xFFFFFFFF
  | .note => 0
  | .noten => 0
  | .rest => 0
  | .tone => 0
  | .cancel => 0xFFFFFFFF
  | .fill => 0

/-- R63: the mask is the opcode and the must-be-zero bits; the match value has the opcode alone. -/
theorem Op.mask_eq (op : Op) : op.mask = wordOf 0xFF op.zeroA op.zeroB := by cases op <;> decide

theorem Op.pattern_eq (op : Op) : op.pattern = wordOf op.byte 0 0 := by cases op <;> decide

theorem Op.byte_and (op : Op) : op.byte &&& 0xFF = op.byte := by cases op <;> decide

/-- R65, for a word of an assigned opcode: the must-be-zero bits, then the fields. -/
theorem decode_wordOf (op : Op) (a : BitVec 24) (b : BitVec 32) :
    decode (wordOf op.byte a b) =
      if a &&& op.zeroA = 0 ∧ b &&& op.zeroB = 0 then decodeFields op (wordOf op.byte a b)
      else .error .illegalOperand := by
  unfold decode
  rw [fieldOp_wordOf, opOf_byte]
  simp only [op.mask_eq, op.pattern_eq, wordOf_and, wordOf_inj, op.byte_and, true_and]

/-- R64 (a): an unassigned opcode. -/
theorem decode_unassigned (w : CmdWord) (h : opOf (fieldOp w) = none) :
    decode w = .error .illegalOpcode := by
  unfold decode; rw [h]

/-- The opcode of an assigned `OP` byte. -/
theorem opOf_some {b : BitVec 8} {op : Op} (h : opOf b = some op) : b = op.byte := by
  unfold opOf at h; split at h <;> cases h <;> rfl

@[simp] theorem and_ones24 (a : BitVec 24) : a &&& 0xFFFFFF#24 = a := BitVec.and_allOnes

@[simp] theorem and_ones32 (b : BitVec 32) : b &&& 0xFFFFFFFF#32 = b := BitVec.and_allOnes

/-- R63: no two rows share a match value under their common mask, so no word is two commands. -/
theorem opcode_map_unambiguous (a b : Op) (h : a ≠ b) :
    a.pattern &&& (a.mask &&& b.mask) ≠ b.pattern &&& (a.mask &&& b.mask) := by
  cases a <;> cases b <;> first | exact absurd rfl h | decide

end Sys2Proof
end

