-- ==== Sys2Proof/Laws/Float.lean ====
section
/-! SUPPORT. What the binary32 primitives of Machine/Float.lean do (spec/41_oscillator.md R100 to R102): the
magnitude of an encoding rises with its bits, rounding is monotone and keeps what is representable, and
the sign, the finiteness and the magnitude of a packed value. -/

namespace Sys2Proof.Machine

/-! ### The magnitude of an encoding -/

/-- The value of a code written as a scale and a significand, a carry into the next scale included. -/
theorem magOf_scale (k q : Nat) (hq : q ≤ 2 ^ 24) (hk : k = 0 ∨ 2 ^ 23 ≤ q) :
    magOf (k * 2 ^ 23 + q) = q * 2 ^ k := by
  unfold magOf
  rcases Nat.lt_or_ge q (2 ^ 23) with h | h
  · obtain rfl : k = 0 := by omega
    have h1 : (0 * 2 ^ 23 + q) / 2 ^ 23 = 0 := by omega
    rw [if_pos h1]; simp; omega
  · rcases Nat.lt_or_ge q (2 ^ 24) with h' | h'
    · have h1 : (k * 2 ^ 23 + q) / 2 ^ 23 = k + 1 := by omega
      have h2 : 2 ^ 23 + (k * 2 ^ 23 + q) % 2 ^ 23 = q := by omega
      rw [h1, if_neg (by omega), h2, Nat.add_sub_cancel]
    · have h1 : (k * 2 ^ 23 + q) / 2 ^ 23 = k + 2 := by omega
      have h2 : (k * 2 ^ 23 + q) % 2 ^ 23 = 0 := by omega
      have h3 : q = 2 ^ 23 * 2 := by omega
      rw [h1, h2, if_neg (by omega), h3]
      simp [pow_succ]; ring

/-- Every code is a scale and a significand of at most 24 bits. -/
theorem exists_scale (m : Nat) :
    ∃ k q, m = k * 2 ^ 23 + q ∧ q < 2 ^ 24 ∧ (k = 0 ∨ 2 ^ 23 ≤ q) := by
  rcases Nat.lt_or_ge m (2 ^ 24) with h | h
  · exact ⟨0, m, by omega, h, .inl rfl⟩
  · exact ⟨m / 2 ^ 23 - 1, m % 2 ^ 23 + 2 ^ 23, by omega, by omega, .inr (by omega)⟩

theorem magOf_lt_succ (m : Nat) : magOf m < magOf (m + 1) := by
  obtain ⟨k, q, rfl, hq, hk⟩ := exists_scale m
  rw [magOf_scale k q (by omega) hk, Nat.add_assoc, magOf_scale k (q + 1) (by omega) (by omega)]
  exact Nat.mul_lt_mul_of_pos_right (by omega) (by positivity)

theorem magOf_strictMono : StrictMono magOf := strictMono_nat_of_lt_succ magOf_lt_succ

@[simp] theorem magOf_zero : magOf 0 = 0 := rfl

/-- The code of one (biased exponent 127) has the magnitude of one. -/
theorem magOf_one : magOf (127 * 2 ^ 23) = unitsPerOne := by decide

/-- The code of 128 (biased exponent 134) has the magnitude of one turn of the phase. -/
theorem magOf_turn : magOf (134 * 2 ^ 23) = unitsPerTurn := by decide

/-! ### Rounding -/

theorem roundSig_eq (n d : Nat) : roundSig n d = n / d / 2 ^ roundScale n d := by
  unfold roundSig roundUnit; rw [Nat.div_div_eq_div_mul]

theorem roundSig_lt (n d : Nat) : roundSig n d < 2 ^ 24 := by
  rw [roundSig_eq, Nat.div_lt_iff_lt_mul (by positivity)]
  refine lt_of_lt_of_le (Nat.lt_log2_self (n := n / d)) ?_
  rw [← pow_add]
  exact Nat.pow_le_pow_right (by omega) (by unfold roundScale; omega)

theorem roundScale_roundSig (n d : Nat) : roundScale n d = 0 ∨ 2 ^ 23 ≤ roundSig n d := by
  by_cases h : roundScale n d = 0
  · exact .inl h
  · right
    rw [roundSig_eq, Nat.le_div_iff_mul_le (by positivity), ← pow_add]
    have h0 : n / d ≠ 0 := by
      intro h0; apply h; unfold roundScale; rw [h0]; rfl
    refine le_trans (Nat.pow_le_pow_right (by omega) ?_) (Nat.log2_self_le h0)
    unfold roundScale at h ⊢; omega

/-- The exact magnitude lies between the code rounded down and the next code. -/
theorem roundMag_bracket (n d : Nat) (hd : 0 < d) :
    magOf (roundScale n d * 2 ^ 23 + roundSig n d) * d ≤ n ∧
      n < magOf (roundScale n d * 2 ^ 23 + roundSig n d + 1) * d := by
  have hlt := roundSig_lt n d
  have hk := roundScale_roundSig n d
  rw [Nat.add_assoc, magOf_scale _ _ (by omega) hk, magOf_scale _ _ (by omega) (by omega)]
  have hu : 0 < roundUnit n d := by unfold roundUnit; positivity
  have h := Nat.div_add_mod n (roundUnit n d)
  have hr := Nat.mod_lt n hu
  have e : ∀ q, q * 2 ^ roundScale n d * d = roundUnit n d * q := by
    intro q; unfold roundUnit; ring
  rw [e, e, Nat.mul_add]
  change roundUnit n d * roundSig n d + n % roundUnit n d = n at h
  omega

theorem roundMag_le_inf (n d : Nat) : roundMag n d ≤ infCode := Nat.min_le_right _ _

/-- A magnitude at or above a representable one does not round below it. -/
theorem le_roundMag {n d m : Nat} (hd : 0 < d) (hm : m ≤ infCode) (h : magOf m * d ≤ n) :
    m ≤ roundMag n d := by
  have hb := (roundMag_bracket n d hd).2
  have : magOf m < magOf (roundScale n d * 2 ^ 23 + roundSig n d + 1) :=
    Nat.lt_of_mul_lt_mul_right (lt_of_le_of_lt h hb)
  have := magOf_strictMono.lt_iff_lt.mp this
  have h1 : m ≤ roundScale n d * 2 ^ 23 + roundSig n d := Nat.lt_succ_iff.mp this
  exact Nat.le_min.mpr ⟨le_trans h1 (Nat.le_add_right _ _), hm⟩

/-- A magnitude at or below a representable one does not round above it. -/
theorem roundMag_le {n d m : Nat} (hd : 0 < d) (h : n ≤ magOf m * d) : roundMag n d ≤ m := by
  have hb := (roundMag_bracket n d hd).1
  have h1 : magOf (roundScale n d * 2 ^ 23 + roundSig n d) ≤ magOf m :=
    Nat.le_of_mul_le_mul_right (le_trans hb h) hd
  have h1 := magOf_strictMono.le_iff_le.mp h1
  refine le_trans (Nat.min_le_left _ _) ?_
  by_cases hup : RoundsUp n d
  · rw [if_pos hup]
    rcases Nat.lt_or_ge (roundScale n d * 2 ^ 23 + roundSig n d) m with h2 | h2
    · exact Nat.succ_le_of_lt h2
    · exfalso
      obtain rfl : m = roundScale n d * 2 ^ 23 + roundSig n d := by omega
      have hlt := roundSig_lt n d
      rw [magOf_scale _ _ (by omega) (roundScale_roundSig n d)] at h hb
      have e : roundSig n d * 2 ^ roundScale n d * d = roundUnit n d * roundSig n d := by
        unfold roundUnit; ring
      have hn := Nat.div_add_mod n (roundUnit n d)
      change roundUnit n d * roundSig n d + n % roundUnit n d = n at hn
      have hu : 0 < roundUnit n d := by unfold roundUnit; positivity
      have hz : n % roundUnit n d = 0 := by omega
      rw [RoundsUp, hz] at hup
      omega
  · rw [if_neg hup, Nat.add_zero]; exact h1

/-- A representable magnitude is kept. -/
theorem roundMag_exact {n d m : Nat} (hd : 0 < d) (hm : m ≤ infCode) (h : n = magOf m * d) :
    roundMag n d = m :=
  le_antisymm (roundMag_le hd h.le) (le_roundMag hd hm h.ge)

/-- No representable magnitude is nearer to `n / d` than the rounded one, and where another one is as near,
the code of the rounded one is even (R100). -/
theorem roundMag_nearest (n d : Nat) (hd : 0 < d) (hfin : roundMag n d < infCode) (m : Nat) :
    ((magOf (roundMag n d) * d : Int) - n).natAbs ≤ ((magOf m * d : Int) - n).natAbs ∧
    (((magOf (roundMag n d) * d : Int) - n).natAbs = ((magOf m * d : Int) - n).natAbs →
      m ≠ roundMag n d → roundMag n d % 2 = 0) := by
  obtain ⟨hA, hB⟩ := roundMag_bracket n d hd
  have hlt := roundSig_lt n d
  have hk := roundScale_roundSig n d
  have eA : magOf (roundScale n d * 2 ^ 23 + roundSig n d) * d = roundUnit n d * roundSig n d := by
    rw [magOf_scale _ _ (by omega) hk]; unfold roundUnit; ring
  have eB : magOf (roundScale n d * 2 ^ 23 + roundSig n d + 1) * d = roundUnit n d * roundSig n d + roundUnit n d := by
    rw [Nat.add_assoc, magOf_scale _ _ (by omega) (by omega)]; unfold roundUnit; ring
  have hn := Nat.div_add_mod n (roundUnit n d)
  change roundUnit n d * roundSig n d + n % roundUnit n d = n at hn
  have hr : (RoundsUp n d ∧ roundMag n d = roundScale n d * 2 ^ 23 + roundSig n d + 1) ∨
      (¬ RoundsUp n d ∧ roundMag n d = roundScale n d * 2 ^ 23 + roundSig n d) := by
    by_cases h : RoundsUp n d
    · left; refine ⟨h, ?_⟩; unfold roundMag at hfin ⊢; rw [if_pos h] at hfin ⊢; omega
    · right; refine ⟨h, ?_⟩; unfold roundMag at hfin ⊢; rw [if_neg h] at hfin ⊢; omega
  unfold RoundsUp at hr
  generalize roundMag n d = R at *
  set c := roundScale n d * 2 ^ 23 + roundSig n d with hc
  have hpar : c % 2 = roundSig n d % 2 := by omega
  generalize roundUnit n d * roundSig n d = U at *
  generalize hu : roundUnit n d = u at *
  have hm : (m ≤ c ∧ magOf m * d ≤ U) ∨ (c + 1 ≤ m ∧ U + u ≤ magOf m * d) := by
    rcases Nat.lt_or_ge c m with h | h
    · right; exact ⟨h, eB ▸ Nat.mul_le_mul_right _ (magOf_strictMono.monotone h)⟩
    · left; exact ⟨h, eA ▸ Nat.mul_le_mul_right _ (magOf_strictMono.monotone h)⟩
  have hstrict : (m < c → magOf m * d < U) ∧ (c + 1 < m → U + u < magOf m * d) :=
    ⟨fun h => eA ▸ Nat.mul_lt_mul_of_pos_right (magOf_strictMono h) hd, fun h => eB ▸ Nat.mul_lt_mul_of_pos_right (magOf_strictMono h) hd⟩
  have hrm := Nat.mod_lt n (show 0 < u by rw [← hu]; unfold roundUnit; positivity)
  have hmm : ((magOf m * d : Nat) : Int) = magOf m * d := by push_cast; rfl
  rw [← hmm]
  generalize magOf m * d = M at *
  rcases hr with ⟨hup, rfl⟩ | ⟨hup, rfl⟩
  · have : (magOf (c+1) * d : Int) = U + u := by exact_mod_cast eB
    rw [this]
    generalize n % u = r at *
    have : (n : Int) = U + r := by omega
    clear_value c
    clear hA hB eA eB hlt hk hc hd hn hmm
    obtain ⟨hs1, hs2⟩ := hstrict
    rcases hm with ⟨hm1, hm2⟩ | ⟨hm1, hm2⟩
    · refine ⟨by omega, fun h1 h2 => by omega⟩
    · refine ⟨by omega, fun h1 h2 => by omega⟩
  · have : (magOf c * d : Int) = U := by exact_mod_cast eA
    rw [this]
    generalize n % u = r at *
    have : (n : Int) = U + r := by omega
    clear_value c
    clear hA hB eA eB hlt hk hc hd hn hmm
    obtain ⟨hs1, hs2⟩ := hstrict
    rcases hm with ⟨hm1, hm2⟩ | ⟨hm1, hm2⟩
    · refine ⟨by omega, fun h1 h2 => by omega⟩
    · refine ⟨by omega, fun h1 h2 => by omega⟩

/-! ### Packed values -/

theorem fcode_fpack (neg : Bool) (n d : Nat) : fcode (fpack neg n d) = roundMag n d := by
  have h := roundMag_le_inf n d
  unfold infCode at h
  unfold fcode fpack
  rw [BitVec.toNat_ofNat]
  cases neg <;> simp <;> omega

theorem fsign_fpack (neg : Bool) (n d : Nat) : fsign (fpack neg n d) = neg := by
  have h := roundMag_le_inf n d
  unfold infCode at h
  unfold fsign fpack
  rw [BitVec.msb_eq_decide, BitVec.toNat_ofNat]
  cases neg <;> simp <;> omega

theorem fmag_fpack (neg : Bool) (n d : Nat) : fmag (fpack neg n d) = magOf (roundMag n d) := by
  unfold fmag; rw [fcode_fpack]

theorem ffinite_fpack (neg : Bool) (n d : Nat) :
    ffinite (fpack neg n d) = decide (roundMag n d < infCode) := by
  unfold ffinite; rw [fcode_fpack]

theorem roundMag_zero (d : Nat) : roundMag 0 d = 0 := by
  have h : roundScale 0 d = 0 := by unfold roundScale; simp
  unfold roundMag RoundsUp roundSig roundUnit
  rw [h]; simp

/-! ### Exact results -/

/-- The signed value of a sign and a magnitude. -/
theorem funits_fpack (neg : Bool) (n d : Nat) (h : roundMag n d < infCode) :
    funits (fpack neg n d) =
      some (if neg then -(magOf (roundMag n d) : Int) else magOf (roundMag n d)) := by
  unfold funits
  rw [ffinite_fpack, fsign_fpack, fmag_fpack]
  simp [h]

/-- Every product of a 24-bit significand and a power of two in range is a finite magnitude. -/
theorem exists_code (q k : Nat) (hq : q < 2 ^ 24) (hk : k ≤ 253) :
    ∃ m, m < infCode ∧ magOf m = q * 2 ^ k := by
  induction k generalizing q with
  | zero => exact ⟨q, by unfold infCode; omega, by simpa using magOf_scale 0 q (by omega) (.inl rfl)⟩
  | succ k ih =>
    rcases Nat.lt_or_ge q (2 ^ 23) with h | h
    · obtain ⟨m, h1, h2⟩ := ih (2 * q) (by omega) (by omega)
      exact ⟨m, h1, by rw [h2, pow_succ]; ring⟩
    · exact ⟨(k + 1) * 2 ^ 23 + q, by unfold infCode; omega,
        magOf_scale (k + 1) q (by omega) (.inr h)⟩

/-- A whole number of units whose magnitude is representable is kept. -/
theorem fround_exact (u : Int) (m : Nat) (h : u.natAbs = magOf m) (hm : m < infCode) (z : Bool) :
    funits (fround u z) = some u ∧ ffinite (fround u z) = true ∧
      (u ≠ 0 → fsign (fround u z) = decide (u < 0)) := by
  unfold fround
  by_cases h0 : u = 0
  · subst h0
    rw [if_pos rfl, funits_fpack _ _ _ (by rw [roundMag_zero]; decide), roundMag_zero,
      ffinite_fpack, roundMag_zero]
    simp; decide
  · have hr : roundMag u.natAbs 1 = m := roundMag_exact (by omega) hm.le (by omega)
    rw [if_neg h0, funits_fpack _ _ _ (by omega), hr, ffinite_fpack, fsign_fpack, hr, ← h]
    refine ⟨?_, by simpa using hm, fun _ => rfl⟩
    split <;> (rename_i hs; simp at hs; congr 1; omega)

/-- `cvt` is exact below 2^24 (R101). -/
theorem funits_cvt (n : Int) (h : n.natAbs < 2 ^ 24) : funits (cvt n) = some (n * unitsPerOne) := by
  obtain ⟨m, hm, he⟩ := exists_code n.natAbs 149 h (by omega)
  exact (fround_exact _ m (by rw [he, Int.natAbs_mul]; rfl) hm _).1

theorem ffinite_of_funits {x : F32} {u : Int} (h : funits x = some u) : ffinite x = true := by
  unfold funits at h; split at h <;> simp_all

theorem funits_of_finite {x : F32} (h : ffinite x = true) :
    funits x = some (if fsign x then -(fmag x : Int) else fmag x) := by
  unfold funits; rw [if_pos h]

theorem fcode_lt_of_finite {x : F32} (h : ffinite x = true) : fcode x < infCode := by
  simpa [ffinite] using h

theorem natAbs_funits {x : F32} {u : Int} (h : funits x = some u) : u.natAbs = fmag x := by
  rw [funits_of_finite (ffinite_of_funits h)] at h
  injection h with h; rw [← h]; split <;> simp

end Sys2Proof.Machine
end

