-- ==== Sys2Proof/Laws/State.lean ====
section
/-! SUPPORT. One lemma for each field of State after each named write of Machine/State.lean, so that no proof
unfolds a record update; and the reset value of each field (spec/10_state.md R31). -/

namespace Sys2Proof.Machine

/-! ### `setFreq` -/

@[simp] theorem State.setFreq_freq (s : State) (v : BitVec 16) :
    (s.setFreq v).freq = v := rfl

@[simp] theorem State.setFreq_dur (s : State) (v : BitVec 16) :
    (s.setFreq v).dur = s.dur := rfl

@[simp] theorem State.setFreq_phase (s : State) (v : BitVec 16) :
    (s.setFreq v).phase = s.phase := rfl

@[simp] theorem State.setFreq_srate (s : State) (v : BitVec 16) :
    (s.setFreq v).srate = s.srate := rfl

@[simp] theorem State.setFreq_err (s : State) (v : BitVec 16) :
    (s.setFreq v).err = s.err := rfl

@[simp] theorem State.setFreq_cause (s : State) (v : BitVec 16) :
    (s.setFreq v).cause = s.cause := rfl

@[simp] theorem State.setFreq_out (s : State) (v : BitVec 16) :
    (s.setFreq v).out = s.out := rfl

@[simp] theorem State.setFreq_port (s : State) (v : BitVec 16) :
    (s.setFreq v).port = s.port := rfl

@[simp] theorem State.setFreq_responses (s : State) (v : BitVec 16) :
    (s.setFreq v).responses = s.responses := rfl

@[simp] theorem State.setFreq_tables (s : State) (v : BitVec 16) :
    (s.setFreq v).tables = s.tables := rfl

/-! ### `setDur` -/

@[simp] theorem State.setDur_freq (s : State) (v : BitVec 32) :
    (s.setDur v).freq = s.freq := rfl

@[simp] theorem State.setDur_dur (s : State) (v : BitVec 32) :
    (s.setDur v).dur = v := rfl

@[simp] theorem State.setDur_phase (s : State) (v : BitVec 32) :
    (s.setDur v).phase = s.phase := rfl

@[simp] theorem State.setDur_srate (s : State) (v : BitVec 32) :
    (s.setDur v).srate = s.srate := rfl

@[simp] theorem State.setDur_err (s : State) (v : BitVec 32) :
    (s.setDur v).err = s.err := rfl

@[simp] theorem State.setDur_cause (s : State) (v : BitVec 32) :
    (s.setDur v).cause = s.cause := rfl

@[simp] theorem State.setDur_out (s : State) (v : BitVec 32) :
    (s.setDur v).out = s.out := rfl

@[simp] theorem State.setDur_port (s : State) (v : BitVec 32) :
    (s.setDur v).port = s.port := rfl

@[simp] theorem State.setDur_responses (s : State) (v : BitVec 32) :
    (s.setDur v).responses = s.responses := rfl

@[simp] theorem State.setDur_tables (s : State) (v : BitVec 32) :
    (s.setDur v).tables = s.tables := rfl

/-! ### `setPhase` -/

@[simp] theorem State.setPhase_freq (s : State) (v : F32) :
    (s.setPhase v).freq = s.freq := rfl

@[simp] theorem State.setPhase_dur (s : State) (v : F32) :
    (s.setPhase v).dur = s.dur := rfl

@[simp] theorem State.setPhase_phase (s : State) (v : F32) :
    (s.setPhase v).phase = v := rfl

@[simp] theorem State.setPhase_srate (s : State) (v : F32) :
    (s.setPhase v).srate = s.srate := rfl

@[simp] theorem State.setPhase_err (s : State) (v : F32) :
    (s.setPhase v).err = s.err := rfl

@[simp] theorem State.setPhase_cause (s : State) (v : F32) :
    (s.setPhase v).cause = s.cause := rfl

@[simp] theorem State.setPhase_out (s : State) (v : F32) :
    (s.setPhase v).out = s.out := rfl

@[simp] theorem State.setPhase_port (s : State) (v : F32) :
    (s.setPhase v).port = s.port := rfl

@[simp] theorem State.setPhase_responses (s : State) (v : F32) :
    (s.setPhase v).responses = s.responses := rfl

@[simp] theorem State.setPhase_tables (s : State) (v : F32) :
    (s.setPhase v).tables = s.tables := rfl

/-! ### `setSrate` -/

@[simp] theorem State.setSrate_freq (s : State) (v : BitVec 24) :
    (s.setSrate v).freq = s.freq := rfl

@[simp] theorem State.setSrate_dur (s : State) (v : BitVec 24) :
    (s.setSrate v).dur = s.dur := rfl

@[simp] theorem State.setSrate_phase (s : State) (v : BitVec 24) :
    (s.setSrate v).phase = s.phase := rfl

@[simp] theorem State.setSrate_srate (s : State) (v : BitVec 24) :
    (s.setSrate v).srate = v := rfl

@[simp] theorem State.setSrate_err (s : State) (v : BitVec 24) :
    (s.setSrate v).err = s.err := rfl

@[simp] theorem State.setSrate_cause (s : State) (v : BitVec 24) :
    (s.setSrate v).cause = s.cause := rfl

@[simp] theorem State.setSrate_out (s : State) (v : BitVec 24) :
    (s.setSrate v).out = s.out := rfl

@[simp] theorem State.setSrate_port (s : State) (v : BitVec 24) :
    (s.setSrate v).port = s.port := rfl

@[simp] theorem State.setSrate_responses (s : State) (v : BitVec 24) :
    (s.setSrate v).responses = s.responses := rfl

@[simp] theorem State.setSrate_tables (s : State) (v : BitVec 24) :
    (s.setSrate v).tables = s.tables := rfl

/-! ### `setError` -/

@[simp] theorem State.setError_freq (s : State) (e : Bool) (c : BitVec 4) :
    (s.setError e c).freq = s.freq := rfl

@[simp] theorem State.setError_dur (s : State) (e : Bool) (c : BitVec 4) :
    (s.setError e c).dur = s.dur := rfl

@[simp] theorem State.setError_phase (s : State) (e : Bool) (c : BitVec 4) :
    (s.setError e c).phase = s.phase := rfl

@[simp] theorem State.setError_srate (s : State) (e : Bool) (c : BitVec 4) :
    (s.setError e c).srate = s.srate := rfl

@[simp] theorem State.setError_err (s : State) (e : Bool) (c : BitVec 4) :
    (s.setError e c).err = e := rfl

@[simp] theorem State.setError_cause (s : State) (e : Bool) (c : BitVec 4) :
    (s.setError e c).cause = c := rfl

@[simp] theorem State.setError_out (s : State) (e : Bool) (c : BitVec 4) :
    (s.setError e c).out = s.out := rfl

@[simp] theorem State.setError_port (s : State) (e : Bool) (c : BitVec 4) :
    (s.setError e c).port = s.port := rfl

@[simp] theorem State.setError_responses (s : State) (e : Bool) (c : BitVec 4) :
    (s.setError e c).responses = s.responses := rfl

@[simp] theorem State.setError_tables (s : State) (e : Bool) (c : BitVec 4) :
    (s.setError e c).tables = s.tables := rfl

/-! ### `emit` -/

@[simp] theorem State.emit_freq (s : State) (v : Sample) :
    (s.emit v).freq = s.freq := rfl

@[simp] theorem State.emit_dur (s : State) (v : Sample) :
    (s.emit v).dur = s.dur := rfl

@[simp] theorem State.emit_phase (s : State) (v : Sample) :
    (s.emit v).phase = s.phase := rfl

@[simp] theorem State.emit_srate (s : State) (v : Sample) :
    (s.emit v).srate = s.srate := rfl

@[simp] theorem State.emit_err (s : State) (v : Sample) :
    (s.emit v).err = s.err := rfl

@[simp] theorem State.emit_cause (s : State) (v : Sample) :
    (s.emit v).cause = s.cause := rfl

@[simp] theorem State.emit_out (s : State) (v : Sample) :
    (s.emit v).out = s.out ++ [v] := rfl

@[simp] theorem State.emit_port (s : State) (v : Sample) :
    (s.emit v).port = s.port := rfl

@[simp] theorem State.emit_responses (s : State) (v : Sample) :
    (s.emit v).responses = s.responses := rfl

@[simp] theorem State.emit_tables (s : State) (v : Sample) :
    (s.emit v).tables = s.tables := rfl

/-! ### `setPort` -/

@[simp] theorem State.setPort_freq (s : State) (ws : List CmdWord) :
    (s.setPort ws).freq = s.freq := rfl

@[simp] theorem State.setPort_dur (s : State) (ws : List CmdWord) :
    (s.setPort ws).dur = s.dur := rfl

@[simp] theorem State.setPort_phase (s : State) (ws : List CmdWord) :
    (s.setPort ws).phase = s.phase := rfl

@[simp] theorem State.setPort_srate (s : State) (ws : List CmdWord) :
    (s.setPort ws).srate = s.srate := rfl

@[simp] theorem State.setPort_err (s : State) (ws : List CmdWord) :
    (s.setPort ws).err = s.err := rfl

@[simp] theorem State.setPort_cause (s : State) (ws : List CmdWord) :
    (s.setPort ws).cause = s.cause := rfl

@[simp] theorem State.setPort_out (s : State) (ws : List CmdWord) :
    (s.setPort ws).out = s.out := rfl

@[simp] theorem State.setPort_port (s : State) (ws : List CmdWord) :
    (s.setPort ws).port = ws := rfl

@[simp] theorem State.setPort_responses (s : State) (ws : List CmdWord) :
    (s.setPort ws).responses = s.responses := rfl

@[simp] theorem State.setPort_tables (s : State) (ws : List CmdWord) :
    (s.setPort ws).tables = s.tables := rfl

/-! ### `answer` -/

@[simp] theorem State.answer_freq (s : State) (r : Response) :
    (s.answer r).freq = s.freq := rfl

@[simp] theorem State.answer_dur (s : State) (r : Response) :
    (s.answer r).dur = s.dur := rfl

@[simp] theorem State.answer_phase (s : State) (r : Response) :
    (s.answer r).phase = s.phase := rfl

@[simp] theorem State.answer_srate (s : State) (r : Response) :
    (s.answer r).srate = s.srate := rfl

@[simp] theorem State.answer_err (s : State) (r : Response) :
    (s.answer r).err = s.err := rfl

@[simp] theorem State.answer_cause (s : State) (r : Response) :
    (s.answer r).cause = s.cause := rfl

@[simp] theorem State.answer_out (s : State) (r : Response) :
    (s.answer r).out = s.out := rfl

@[simp] theorem State.answer_port (s : State) (r : Response) :
    (s.answer r).port = s.port := rfl

@[simp] theorem State.answer_responses (s : State) (r : Response) :
    (s.answer r).responses = s.responses ++ [r] := rfl

@[simp] theorem State.answer_tables (s : State) (r : Response) :
    (s.answer r).tables = s.tables := rfl

/-! ### Reset -/

@[simp] theorem State.reset_freq : State.reset.freq = 0 := rfl

@[simp] theorem State.reset_dur : State.reset.dur = 0 := rfl

@[simp] theorem State.reset_phase : State.reset.phase = 0 := rfl

@[simp] theorem State.reset_srate : State.reset.srate = 44100 := rfl

@[simp] theorem State.reset_err : State.reset.err = false := rfl

@[simp] theorem State.reset_cause : State.reset.cause = 0 := rfl

@[simp] theorem State.reset_out : State.reset.out = [] := rfl

@[simp] theorem State.reset_port : State.reset.port = [] := rfl

@[simp] theorem State.reset_responses : State.reset.responses = [] := rfl

@[simp] theorem State.reset_tables : State.reset.tables = Config.tables := rfl

/-- Two states with the same fields are the same. -/
@[ext] theorem State.ext_fields {s t : State} (h1 : s.freq = t.freq) (h2 : s.dur = t.dur)
    (h3 : s.phase = t.phase) (h4 : s.srate = t.srate) (h5 : s.err = t.err) (h6 : s.cause = t.cause)
    (h7 : s.out = t.out) (h8 : s.port = t.port) (h9 : s.responses = t.responses)
    (h10 : s.tables = t.tables) : s = t := by
  cases s; cases t; simp_all

end Sys2Proof.Machine
end

