-- ==== Sys2Proof/Laws/Ops.lean ====
section
/-! SUPPORT. What each shared operation of Machine/Ops.lean does, said once for each field; how many samples
the repeated step emits and what it leaves; and what exec and step answer. -/

namespace Sys2Proof.Machine

/-! ### `respond` (spec/00_scope.md R15, R16) -/

@[simp] theorem respond_freq (v : BitVec 32) (vs : List Sample) (s : State) :
    (respond v vs s).freq = s.freq := rfl

@[simp] theorem respond_dur (v : BitVec 32) (vs : List Sample) (s : State) :
    (respond v vs s).dur = s.dur := rfl

@[simp] theorem respond_phase (v : BitVec 32) (vs : List Sample) (s : State) :
    (respond v vs s).phase = s.phase := rfl

@[simp] theorem respond_srate (v : BitVec 32) (vs : List Sample) (s : State) :
    (respond v vs s).srate = s.srate := rfl

@[simp] theorem respond_err (v : BitVec 32) (vs : List Sample) (s : State) :
    (respond v vs s).err = s.err := rfl

@[simp] theorem respond_cause (v : BitVec 32) (vs : List Sample) (s : State) :
    (respond v vs s).cause = s.cause := rfl

@[simp] theorem respond_out (v : BitVec 32) (vs : List Sample) (s : State) :
    (respond v vs s).out = s.out := rfl

@[simp] theorem respond_port (v : BitVec 32) (vs : List Sample) (s : State) :
    (respond v vs s).port = s.port := rfl

@[simp] theorem respond_responses (v : BitVec 32) (vs : List Sample) (s : State) :
    (respond v vs s).responses = s.responses ++ [⟨0, v, vs⟩] := rfl

@[simp] theorem respond_tables (v : BitVec 32) (vs : List Sample) (s : State) :
    (respond v vs s).tables = s.tables := rfl

/-! ### `raiseFault` (60_exceptions.md R185) -/

@[simp] theorem raiseFault_freq (c : Cause) (s : State) :
    (raiseFault c s).freq = s.freq := rfl

@[simp] theorem raiseFault_dur (c : Cause) (s : State) :
    (raiseFault c s).dur = 0 := rfl

@[simp] theorem raiseFault_phase (c : Cause) (s : State) :
    (raiseFault c s).phase = s.phase := rfl

@[simp] theorem raiseFault_srate (c : Cause) (s : State) :
    (raiseFault c s).srate = s.srate := rfl

@[simp] theorem raiseFault_err (c : Cause) (s : State) :
    (raiseFault c s).err = true := rfl

@[simp] theorem raiseFault_cause (c : Cause) (s : State) :
    (raiseFault c s).cause = if s.err then s.cause else causeCode c := rfl

@[simp] theorem raiseFault_out (c : Cause) (s : State) :
    (raiseFault c s).out = s.out := rfl

@[simp] theorem raiseFault_port (c : Cause) (s : State) :
    (raiseFault c s).port = s.port := rfl

@[simp] theorem raiseFault_responses (c : Cause) (s : State) :
    (raiseFault c s).responses = s.responses ++ [⟨causeCode c, 0, []⟩] := rfl

@[simp] theorem raiseFault_tables (c : Cause) (s : State) :
    (raiseFault c s).tables = s.tables := rfl

/-! ### `acknowledgeFault` (60 R186, 42 R132) -/

@[simp] theorem acknowledgeFault_freq (s : State) :
    (acknowledgeFault s).freq = s.freq := rfl

@[simp] theorem acknowledgeFault_dur (s : State) :
    (acknowledgeFault s).dur = s.dur := rfl

@[simp] theorem acknowledgeFault_phase (s : State) :
    (acknowledgeFault s).phase = s.phase := rfl

@[simp] theorem acknowledgeFault_srate (s : State) :
    (acknowledgeFault s).srate = s.srate := rfl

@[simp] theorem acknowledgeFault_err (s : State) :
    (acknowledgeFault s).err = false := rfl

@[simp] theorem acknowledgeFault_cause (s : State) :
    (acknowledgeFault s).cause = 0 := rfl

@[simp] theorem acknowledgeFault_out (s : State) :
    (acknowledgeFault s).out = s.out := rfl

@[simp] theorem acknowledgeFault_port (s : State) :
    (acknowledgeFault s).port = s.port := rfl

@[simp] theorem acknowledgeFault_responses (s : State) :
    (acknowledgeFault s).responses = s.responses ++ [⟨0, 0, []⟩] := rfl

@[simp] theorem acknowledgeFault_tables (s : State) :
    (acknowledgeFault s).tables = s.tables := rfl

/-! ### `setupNote` (40 R80) -/

@[simp] theorem setupNote_freq (f : BitVec 16) (d : BitVec 32) (s : State) :
    (setupNote f d s).freq = f := rfl

@[simp] theorem setupNote_dur (f : BitVec 16) (d : BitVec 32) (s : State) :
    (setupNote f d s).dur = d := rfl

@[simp] theorem setupNote_phase (f : BitVec 16) (d : BitVec 32) (s : State) :
    (setupNote f d s).phase = s.phase := rfl

@[simp] theorem setupNote_srate (f : BitVec 16) (d : BitVec 32) (s : State) :
    (setupNote f d s).srate = s.srate := rfl

@[simp] theorem setupNote_err (f : BitVec 16) (d : BitVec 32) (s : State) :
    (setupNote f d s).err = s.err := rfl

@[simp] theorem setupNote_cause (f : BitVec 16) (d : BitVec 32) (s : State) :
    (setupNote f d s).cause = s.cause := rfl

@[simp] theorem setupNote_out (f : BitVec 16) (d : BitVec 32) (s : State) :
    (setupNote f d s).out = s.out := rfl

@[simp] theorem setupNote_port (f : BitVec 16) (d : BitVec 32) (s : State) :
    (setupNote f d s).port = s.port := rfl

@[simp] theorem setupNote_responses (f : BitVec 16) (d : BitVec 32) (s : State) :
    (setupNote f d s).responses = s.responses := rfl

@[simp] theorem setupNote_tables (f : BitVec 16) (d : BitVec 32) (s : State) :
    (setupNote f d s).tables = s.tables := rfl

/-! ### `platformReset` (70 R200) -/

@[simp] theorem platformReset_freq (s : State) :
    (platformReset s).freq = 0 := rfl

@[simp] theorem platformReset_dur (s : State) :
    (platformReset s).dur = 0 := rfl

@[simp] theorem platformReset_phase (s : State) :
    (platformReset s).phase = 0 := rfl

@[simp] theorem platformReset_srate (s : State) :
    (platformReset s).srate = 44100 := rfl

@[simp] theorem platformReset_err (s : State) :
    (platformReset s).err = false := rfl

@[simp] theorem platformReset_cause (s : State) :
    (platformReset s).cause = 0 := rfl

@[simp] theorem platformReset_out (s : State) :
    (platformReset s).out = [] := rfl

@[simp] theorem platformReset_port (s : State) :
    (platformReset s).port = [] := rfl

@[simp] theorem platformReset_responses (s : State) :
    (platformReset s).responses = [] := rfl

@[simp] theorem platformReset_tables (s : State) :
    (platformReset s).tables = s.tables := rfl

/-! ### `deliver` (00 R6, 20 R52) -/

@[simp] theorem deliver_freq (w : CmdWord) (s : State) :
    (deliver w s).freq = s.freq := rfl

@[simp] theorem deliver_dur (w : CmdWord) (s : State) :
    (deliver w s).dur = s.dur := rfl

@[simp] theorem deliver_phase (w : CmdWord) (s : State) :
    (deliver w s).phase = s.phase := rfl

@[simp] theorem deliver_srate (w : CmdWord) (s : State) :
    (deliver w s).srate = s.srate := rfl

@[simp] theorem deliver_err (w : CmdWord) (s : State) :
    (deliver w s).err = s.err := rfl

@[simp] theorem deliver_cause (w : CmdWord) (s : State) :
    (deliver w s).cause = s.cause := rfl

@[simp] theorem deliver_out (w : CmdWord) (s : State) :
    (deliver w s).out = s.out := rfl

@[simp] theorem deliver_port (w : CmdWord) (s : State) :
    (deliver w s).port = s.port ++ [w] := rfl

@[simp] theorem deliver_responses (w : CmdWord) (s : State) :
    (deliver w s).responses = s.responses := rfl

@[simp] theorem deliver_tables (w : CmdWord) (s : State) :
    (deliver w s).tables = s.tables := rfl

/-! ### `sampleStep` and `sampleSteps` (41 R107, R108) -/

/-- One sample step, by what it emits and how it moves the phase; every other field stays. -/
theorem sampleStep_cases (s : State) :
    (s.freq = 0 ∧ sampleStep s = (s.emit 0).setDur (s.dur - 1)) ∨
    (s.freq ≠ 0 ∧ sampleStep s =
      ((s.emit (soundingSample s)).setPhase (nextPhase s)).setDur (s.dur - 1)) := by
  unfold sampleStep
  by_cases h : s.freq = 0
  · exact .inl ⟨h, if_pos h⟩
  · exact .inr ⟨h, if_neg h⟩

@[simp] theorem sampleStep_dur (s : State) : (sampleStep s).dur = s.dur - 1 := by
  rcases sampleStep_cases s with ⟨-, h⟩ | ⟨-, h⟩ <;> rw [h] <;> rfl

@[simp] theorem sampleStep_freq (s : State) : (sampleStep s).freq = s.freq := by
  rcases sampleStep_cases s with ⟨-, h⟩ | ⟨-, h⟩ <;> rw [h] <;> rfl

@[simp] theorem sampleStep_srate (s : State) : (sampleStep s).srate = s.srate := by
  rcases sampleStep_cases s with ⟨-, h⟩ | ⟨-, h⟩ <;> rw [h] <;> rfl

@[simp] theorem sampleStep_err (s : State) : (sampleStep s).err = s.err := by
  rcases sampleStep_cases s with ⟨-, h⟩ | ⟨-, h⟩ <;> rw [h] <;> rfl

@[simp] theorem sampleStep_cause (s : State) : (sampleStep s).cause = s.cause := by
  rcases sampleStep_cases s with ⟨-, h⟩ | ⟨-, h⟩ <;> rw [h] <;> rfl

@[simp] theorem sampleStep_port (s : State) : (sampleStep s).port = s.port := by
  rcases sampleStep_cases s with ⟨-, h⟩ | ⟨-, h⟩ <;> rw [h] <;> rfl

@[simp] theorem sampleStep_responses (s : State) : (sampleStep s).responses = s.responses := by
  rcases sampleStep_cases s with ⟨-, h⟩ | ⟨-, h⟩ <;> rw [h] <;> rfl

@[simp] theorem sampleStep_tables (s : State) : (sampleStep s).tables = s.tables := by
  rcases sampleStep_cases s with ⟨-, h⟩ | ⟨-, h⟩ <;> rw [h] <;> rfl

/-- A step appends exactly one sample. -/
theorem sampleStep_out (s : State) :
    (sampleStep s).out = s.out ++ [if s.freq = 0 then 0 else soundingSample s] := by
  rcases sampleStep_cases s with ⟨h0, h⟩ | ⟨h0, h⟩
  · rw [h, if_pos h0]; rfl
  · rw [h, if_neg h0]; rfl

theorem sampleStep_phase (s : State) :
    (sampleStep s).phase = if s.freq = 0 then s.phase else nextPhase s := by
  rcases sampleStep_cases s with ⟨h0, h⟩ | ⟨h0, h⟩
  · rw [h, if_pos h0]; rfl
  · rw [h, if_neg h0]; rfl

@[simp] theorem sampleSteps_freq (k : Nat) (s : State) : (sampleSteps k s).freq = s.freq := by
  induction k generalizing s with
  | zero => rfl
  | succ k ih => rw [sampleSteps, ih, sampleStep_freq]

@[simp] theorem sampleSteps_srate (k : Nat) (s : State) : (sampleSteps k s).srate = s.srate := by
  induction k generalizing s with
  | zero => rfl
  | succ k ih => rw [sampleSteps, ih, sampleStep_srate]

@[simp] theorem sampleSteps_err (k : Nat) (s : State) : (sampleSteps k s).err = s.err := by
  induction k generalizing s with
  | zero => rfl
  | succ k ih => rw [sampleSteps, ih, sampleStep_err]

@[simp] theorem sampleSteps_cause (k : Nat) (s : State) : (sampleSteps k s).cause = s.cause := by
  induction k generalizing s with
  | zero => rfl
  | succ k ih => rw [sampleSteps, ih, sampleStep_cause]

@[simp] theorem sampleSteps_port (k : Nat) (s : State) : (sampleSteps k s).port = s.port := by
  induction k generalizing s with
  | zero => rfl
  | succ k ih => rw [sampleSteps, ih, sampleStep_port]

@[simp] theorem sampleSteps_responses (k : Nat) (s : State) : (sampleSteps k s).responses = s.responses := by
  induction k generalizing s with
  | zero => rfl
  | succ k ih => rw [sampleSteps, ih, sampleStep_responses]

@[simp] theorem sampleSteps_tables (k : Nat) (s : State) : (sampleSteps k s).tables = s.tables := by
  induction k generalizing s with
  | zero => rfl
  | succ k ih => rw [sampleSteps, ih, sampleStep_tables]

/-- `k` steps after `j` steps are `j + k` steps. -/
theorem sampleSteps_add (j k : Nat) (s : State) :
    sampleSteps (j + k) s = sampleSteps k (sampleSteps j s) := by
  induction j generalizing s with
  | zero => rw [Nat.zero_add]; rfl
  | succ j ih => rw [Nat.succ_add, sampleSteps, sampleSteps, ih]

/-- `k` steps lower `DUR` by `k`, when that much is owed. -/
theorem sampleSteps_dur (k : Nat) (s : State) (h : k ≤ s.dur.toNat) :
    (sampleSteps k s).dur.toNat = s.dur.toNat - k := by
  induction k generalizing s with
  | zero => rfl
  | succ k ih =>
    have h1 : (sampleStep s).dur.toNat = s.dur.toNat - 1 := by
      rw [sampleStep_dur]; bv_omega
    rw [sampleSteps, ih (sampleStep s) (by omega), h1]; omega

/-- `k` steps append exactly `k` samples. -/
theorem sampleSteps_out (k : Nat) (s : State) :
    ∃ vs : List Sample, (sampleSteps k s).out = s.out ++ vs ∧ vs.length = k := by
  induction k generalizing s with
  | zero => exact ⟨[], by simp [sampleSteps], rfl⟩
  | succ k ih =>
    obtain ⟨vs, h1, h2⟩ := ih (sampleStep s)
    refine ⟨(if s.freq = 0 then 0 else soundingSample s) :: vs, ?_, by simp [h2]⟩
    rw [sampleSteps, h1, sampleStep_out, List.append_assoc]; rfl

/-! ### What `exec` and `step` answer -/

/-- Every instruction answers a next state: no meaning stops. -/
theorem exec_next (i : Instr) (s : State) : ∃ t, exec i s = .next t := by
  cases i with
  | cfgsr sr => simp only [exec, execCfgsr]; split <;> exact ⟨_, rfl⟩
  | note o l a d => simp only [exec, execNote]; split <;> exact ⟨_, rfl⟩
  | rdreg r => exact ⟨_, rfl⟩
  | clrerr => exact ⟨_, rfl⟩
  | noten n d => exact ⟨_, rfl⟩
  | rest d => exact ⟨_, rfl⟩
  | tone f d => exact ⟨_, rfl⟩
  | cancel => exact ⟨_, rfl⟩
  | fill c => exact ⟨_, rfl⟩

/-- The two outcomes of `NOTE`. -/
theorem execNote_cases (o : Fin 8) (l : Letter) (a : Accidental) (d : BitVec 32) (s : State) :
    (∃ f, shiftFreq (lookupLetter s.tables o l) a = some f ∧
      execNote o l a d s = .next (respond 0 [] (setupNote f d s))) ∨
    (shiftFreq (lookupLetter s.tables o l) a = none ∧
      execNote o l a d s = .next (raiseFault .freqRange s)) := by
  unfold execNote
  split
  · exact .inl ⟨_, ‹_›, rfl⟩
  · exact .inr ⟨‹_›, rfl⟩

/-- A step with a word on the port takes that word. -/
theorem step_cons (s : State) (w : CmdWord) (ws : List CmdWord) (h : s.port = w :: ws) :
    step s = execWord w (s.setPort ws) := by
  unfold step; rw [h]

/-- A step with an empty port changes nothing. -/
theorem step_nil (s : State) (h : s.port = []) : step s = .next s := by
  unfold step; rw [h]

/-- Everything a step that takes a word can do: the fault entry of a decode fault, or the instruction the
word decodes to. -/
theorem step_cases {s t : State} {w : CmdWord} {ws : List CmdWord} (h : s.port = w :: ws)
    (hs : step s = .next t) :
    (∃ c, decode w = .error c ∧ t = raiseFault c (s.setPort ws)) ∨
      ∃ i, decode w = .ok i ∧ exec i (s.setPort ws) = .next t := by
  rw [step_cons s w ws h, execWord] at hs
  split at hs
  · exact .inr ⟨_, by assumption, hs⟩
  · cases hs; exact .inl ⟨_, by assumption, rfl⟩

/-- Everything an instruction can do. -/
theorem exec_cases {i : Instr} {s t : State} (h : exec i s = .next t) :
    (∃ sr, i = .cfgsr sr ∧ sr ≠ 0 ∧ t = respond 0 [] (s.setSrate sr)) ∨
    (i = .cfgsr 0 ∧ t = raiseFault .illegalOperand s) ∨
    (∃ r, i = .rdreg r ∧ t = respond (regValue s r) [] s) ∨
    (i = .clrerr ∧ t = acknowledgeFault s) ∨
    (∃ o l a d f, i = .note o l a d ∧ shiftFreq (lookupLetter s.tables o l) a = some f ∧
      t = respond 0 [] (setupNote f d s)) ∨
    (∃ o l a d, i = .note o l a d ∧ shiftFreq (lookupLetter s.tables o l) a = none ∧
      t = raiseFault .freqRange s) ∨
    (∃ n d, i = .noten n d ∧ t = respond 0 [] (setupNote (lookupNumber s.tables n) d s)) ∨
    (∃ d, i = .rest d ∧ t = respond 0 [] (setupNote 0 d s)) ∨
    (∃ f d, i = .tone f d ∧ t = respond 0 [] ((setupNote f d s).setPhase fzero)) ∨
    (i = .cancel ∧ t = respond 0 [] (s.setDur 0)) ∨
    (∃ c, i = .fill c ∧ t = respond (sampleSteps (fillCount c s) s).dur
      ((sampleSteps (fillCount c s) s).out.drop s.out.length) (sampleSteps (fillCount c s) s)) := by
  cases i with
  | cfgsr sr =>
    simp only [exec, execCfgsr] at h
    split at h <;> cases h
    · subst sr; exact .inr (.inl ⟨rfl, rfl⟩)
    · exact .inl ⟨sr, rfl, by assumption, rfl⟩
  | rdreg r => cases h; exact .inr (.inr (.inl ⟨r, rfl, rfl⟩))
  | clrerr => cases h; exact .inr (.inr (.inr (.inl ⟨rfl, rfl⟩)))
  | note o l a d =>
    rcases execNote_cases o l a d s with ⟨f, hf, he⟩ | ⟨hf, he⟩
    · cases he.symm.trans h
      exact .inr (.inr (.inr (.inr (.inl ⟨o, l, a, d, f, rfl, hf, rfl⟩))))
    · cases he.symm.trans h
      exact .inr (.inr (.inr (.inr (.inr (.inl ⟨o, l, a, d, rfl, hf, rfl⟩)))))
  | noten n d => cases h; exact .inr (.inr (.inr (.inr (.inr (.inr (.inl ⟨n, d, rfl, rfl⟩))))))
  | rest d => cases h; exact .inr (.inr (.inr (.inr (.inr (.inr (.inr (.inl ⟨d, rfl, rfl⟩)))))))
  | tone f d =>
    cases h; exact .inr (.inr (.inr (.inr (.inr (.inr (.inr (.inr (.inl ⟨f, d, rfl, rfl⟩))))))))
  | cancel =>
    cases h; exact .inr (.inr (.inr (.inr (.inr (.inr (.inr (.inr (.inr (.inl ⟨rfl, rfl⟩)))))))))
  | fill c =>
    cases h; exact .inr (.inr (.inr (.inr (.inr (.inr (.inr (.inr (.inr (.inr ⟨c, rfl, rfl⟩)))))))))

end Sys2Proof.Machine
end

