-- ==== Sys2Proof/Laws/Oscillator.lean ====
section
/-! SUPPORT. What the wrap of the phase does (spec/41_oscillator.md R106): it is exact, and it ends in the
range of the phase. -/

namespace Sys2Proof.Machine

/-- A phase is its magnitude. -/
theorem phaseOk_funits {p : F32} (h : PhaseOk p) : funits p = some (fmag p : Int) := by
  rw [funits_of_finite h.1, h.2.1]; simp

theorem unitsPerTurn_eq : unitsPerTurn = 2 ^ 156 := by decide

/-- What is left of a magnitude after whole turns is representable, because a magnitude of a turn or more
is a multiple of a unit of which a turn holds 2^23. -/
theorem magOf_mod_turn (m : Nat) : ∃ r, r < 134 * 2 ^ 23 ∧ magOf r = magOf m % unitsPerTurn := by
  obtain ⟨k, q, rfl, hq, hk⟩ := exists_scale m
  have hv := magOf_scale k q (by omega) hk
  have hlt : magOf (k * 2 ^ 23 + q) % unitsPerTurn < magOf (134 * 2 ^ 23) := by
    rw [magOf_turn]; exact Nat.mod_lt _ (by decide)
  suffices ∃ r, r < infCode ∧ magOf r = magOf (k * 2 ^ 23 + q) % unitsPerTurn by
    obtain ⟨r, -, h⟩ := this
    exact ⟨r, magOf_strictMono.lt_iff_lt.mp (h ▸ hlt), h⟩
  rw [hv, unitsPerTurn_eq]
  rcases Nat.lt_or_ge (q * 2 ^ k) (2 ^ 156) with h | h
  · rw [Nat.mod_eq_of_lt h]
    rcases Nat.lt_or_ge 253 k with hk' | hk'
    · exfalso
      have h2 : 2 ^ 23 ≤ q := by omega
      have : 2 ^ 23 * 2 ^ 254 ≤ q * 2 ^ k :=
        Nat.mul_le_mul h2 (Nat.pow_le_pow_right (by omega) (by omega))
      have : (2:Nat) ^ 156 < 2 ^ 23 * 2 ^ 254 := by norm_num
      omega
    · exact exists_code q k hq hk'
  · have hk2 : 133 ≤ k := by
      by_contra hc
      have : q * 2 ^ k < 2 ^ 24 * 2 ^ 132 :=
        Nat.mul_lt_mul_of_lt_of_le hq (Nat.pow_le_pow_right (by omega) (by omega)) (by positivity)
      have : (2:Nat) ^ 24 * 2 ^ 132 = 2 ^ 156 := by norm_num
      omega
    have e : q * 2 ^ k = (q * 2 ^ (k - 133)) * 2 ^ 133 := by
      rw [Nat.mul_assoc, ← pow_add]; congr 2; omega
    have e2 : (2:Nat) ^ 156 = 2 ^ 23 * 2 ^ 133 := by norm_num
    rw [e, e2, Nat.mul_mod_mul_right]
    exact exists_code _ 133 (lt_trans (Nat.mod_lt _ (by norm_num)) (by norm_num)) (by omega)

/-- The wrap of a finite value that is not negative is a phase, and is the exact remainder (R106). -/
theorem funits_phaseWrap {p : F32} (hf : ffinite p = true) (hs : fsign p = false) :
    PhaseOk (phaseWrap p) ∧ fmag (phaseWrap p) = fmag p % unitsPerTurn := by
  obtain ⟨r, hr, he⟩ := magOf_mod_turn (fcode p)
  have hu : funits p = some (fmag p : Int) := by rw [funits_of_finite hf, hs]; simp
  have hw : phaseWrap p = fround ((magOf r : Nat) : Int) false := by
    unfold phaseWrap
    rw [hu]; dsimp only
    congr 1
    rw [he, Int.natCast_mod, Int.emod_def, mul_comm]; rfl
  have hri : r < infCode := by unfold infCode; omega
  obtain ⟨h1, h2, h3⟩ := fround_exact (magOf r : Int) r (by simp) hri false
  rw [← hw] at h1 h2 h3
  have hm : fmag (phaseWrap p) = magOf r := by rw [← natAbs_funits h1]; simp
  refine ⟨⟨h2, ?_, ?_⟩, by rw [hm, he]; rfl⟩
  · by_cases h0 : (magOf r : Int) = 0
    · rw [hw, h0]; decide
    · rw [h3 h0]; simp
  · rw [hm, ← magOf_turn]; exact magOf_strictMono hr
end Sys2Proof.Machine
end

