-- ==== Sys2Proof/Laws/PerInstr.lean ====
section
/-! SUPPORT. Statements made for each instruction, one lemma for each constructor of Instr. -/

namespace Sys2Proof

/-- The mask test, field by field, for a row whose mask is the opcode, `ma` and `mb`. -/
theorem mask_of_operands (i : Instr) (op : Op) (ma : BitVec 24) (mb : BitVec 32) (ho : i.op = op)
    (hm : op.mask = wordOf 0xFF ma mb) (ha : operandA i &&& ma = 0) (hb : operandB i &&& mb = 0) :
    encode i &&& i.op.mask = i.op.pattern := by
  rw [encode, ho, hm, op.pattern_eq, wordOf_and, op.byte_and, ha, hb]

namespace Laws.Mask

/-- An encoded instruction passes the mask test of its row of the opcode map, so that none of its operands
sets a must-be-zero bit (spec/30_encoding.md R63, R64). -/
def Statement (i : Instr) : Prop := encode i &&& i.op.mask = i.op.pattern

theorem cfgsr (sr : BitVec 24) : Statement (.cfgsr sr) :=
  mask_of_operands _ .cfgsr 0 0xFFFFFFFF rfl (by decide) BitVec.and_zero BitVec.zero_and

theorem rdreg (r : Reg) : Statement (.rdreg r) := by
  cases r <;> (unfold Statement; decide)

theorem clrerr : Statement .clrerr := by
  unfold Statement; decide

theorem note (o : Fin 8) (l : Letter) (a : Accidental) (d : BitVec 32) :
    Statement (.note o l a d) :=
  mask_of_operands _ .note 0xFFF88C 0 rfl (by decide) (noteOperandA_mask _ _ _) BitVec.and_zero

theorem noten (n : BitVec 16) (d : BitVec 32) : Statement (.noten n d) :=
  mask_of_operands _ .noten 0xFF0000 0 rfl (by decide) (setWidth_half_mask n) BitVec.and_zero

theorem rest (d : BitVec 32) : Statement (.rest d) :=
  mask_of_operands _ .rest 0xFFFFFF 0 rfl (by decide) BitVec.zero_and BitVec.and_zero

theorem tone (f : BitVec 16) (d : BitVec 32) : Statement (.tone f d) :=
  mask_of_operands _ .tone 0xFF0000 0 rfl (by decide) (setWidth_half_mask f) BitVec.and_zero

theorem cancel : Statement .cancel := by
  unfold Statement; decide

theorem fill (c : BitVec 32) : Statement (.fill c) :=
  mask_of_operands _ .fill 0xFFFFFF 0 rfl (by decide) BitVec.zero_and BitVec.and_zero

end Laws.Mask

end Sys2Proof
end

