-- ==== Sys2Proof/Machine/Asm.lean ====
section
/-! DEFINITION. The assembler syntax of the block's commands (spec/30_encoding.md R67): one command a line,
operands decimal or with `0x` hexadecimal, mnemonics and letters case-insensitive, `;` starts a comment.
Blanks around a mnemonic or an operand are ignored, a minus sign may stand before a number, and the register
names of `RDREG` are case-insensitive too (log 17). -/

namespace Sys2Proof.Machine

/-- What a line of assembler text is. -/
inductive AsmLine
  /-- No command: the line is blank or a comment. -/
  | blank
  | command (i : Instr)
  /-- Not a command of R67, or an operand outside its range. -/
  | invalid
  deriving DecidableEq, Repr

/-- A blank between tokens. -/
def isBlank (c : Char) : Bool := c = ' ' || c = '\t'

/-- A token without the blanks around it, in upper case. R67 makes mnemonics and letters case-insensitive.
DESIGN CHOICE: the register names of `RDREG` and the prefix `0x` as well (log 17). -/
def trimUpper (cs : List Char) : List Char :=
  (((cs.dropWhile isBlank).reverse.dropWhile isBlank).reverse).map Char.toUpper

/-- The pieces of a text between its commas. -/
def splitCommas : List Char → List (List Char)
  | [] => [[]]
  | c :: cs =>
    match splitCommas cs with
    | [] => [[c]]
    | piece :: pieces => if c = ',' then [] :: piece :: pieces else (c :: piece) :: pieces

/-- The value of a digit in upper case. -/
def digitValue (c : Char) : Option Nat :=
  if '0' ≤ c ∧ c ≤ '9' then some (c.toNat - '0'.toNat)
  else if 'A' ≤ c ∧ c ≤ 'F' then some (c.toNat - 'A'.toNat + 10)
  else none

/-- The value of a run of digits in a base, with the value `v` of those before it. -/
def digitsIn (base : Nat) : Nat → List Char → Option Nat
  | v, [] => some v
  | v, c :: cs =>
    match digitValue c with
    | some d => if d < base then digitsIn base (base * v + d) cs else none
    | none => none

/-- An unsigned number: decimal, or hexadecimal after `0x`. -/
def parseNat : List Char → Option Nat
  | [] => none
  | '0' :: 'X' :: c :: cs => digitsIn 16 0 (c :: cs)
  | c :: cs => digitsIn 10 0 (c :: cs)

/-- A number, with a minus sign or without. -/
def parseNumber : List Char → Option Int
  | '-' :: cs => (parseNat cs).map fun n => -(n : Int)
  | cs => (parseNat cs).map fun n => (n : Int)

/-- A number in a range. -/
def numberIn (lo hi : Int) (cs : List Char) : Option Int :=
  (parseNumber cs).filter fun n => lo ≤ n ∧ n ≤ hi

/-- A note letter and its accidental, such as `A`, `C+`, `D-`. -/
def parsePitch : List Char → Option (Letter × Accidental)
  | c :: cs =>
    let l := match c with
      | 'A' => some Letter.a
      | 'B' => some .b
      | 'C' => some .c
      | 'D' => some .d
      | 'E' => some .e
      | 'F' => some .f
      | 'G' => some .g
      | _ => none
    let a := match cs with
      | [] => some Accidental.none
      | ['+'] => some .plus
      | ['-'] => some .minus
      | _ => none
    match l, a with
    | some l, some a => some (l, a)
    | _, _ => none
  | [] => none

/-- A register by its name or by its index 0..5. -/
def parseReg (cs : List Char) : Option Reg :=
  if cs = ['S', 'T', 'A', 'T', 'U', 'S'] then some .status
  else if cs = ['S', 'R', 'A', 'T', 'E'] then some .srate
  else if cs = ['F', 'R', 'E', 'Q'] then some .freq
  else if cs = ['D', 'U', 'R'] then some .dur
  else if cs = ['P', 'H', 'A', 'S', 'E'] then some .phase
  else if cs = ['I', 'N', 'C'] then some .inc
  else match numberIn 0 5 cs with
    | some n => regOf (BitVec.ofInt 4 n)
    | none => none

/-- A duration or a count, 0..2^32 - 1. -/
def parseDur (cs : List Char) : Option (BitVec 32) :=
  (numberIn 0 4294967295 cs).map (BitVec.ofInt 32)

/-- The command of a mnemonic and its operands. -/
def assembleCommand (mnemonic : List Char) (operands : List (List Char)) : Option Instr :=
  if mnemonic = ['C', 'F', 'G', 'S', 'R'] then
    match operands with
    | [sr] => (numberIn 1 16777215 sr).map fun n => .cfgsr (BitVec.ofInt 24 n)
    | _ => none
  else if mnemonic = ['R', 'D', 'R', 'E', 'G'] then
    match operands with
    | [r] => (parseReg r).map .rdreg
    | _ => none
  else if mnemonic = ['C', 'L', 'R', 'E', 'R', 'R'] then
    match operands with
    | [] => some .clrerr
    | _ => none
  else if mnemonic = ['N', 'O', 'T', 'E'] then
    match operands with
    | [o, pitch, d] =>
      match numberIn 0 7 o, parsePitch pitch, parseDur d with
      | some o, some (l, a), some d => some (.note (Fin.ofNat 8 o.toNat) l a d)
      | _, _, _ => none
    | _ => none
  else if mnemonic = ['N', 'O', 'T', 'E', 'N'] then
    match operands with
    | [n, d] =>
      match numberIn (-32768) 32767 n, parseDur d with
      | some n, some d => some (.noten (BitVec.ofInt 16 n) d)
      | _, _ => none
    | _ => none
  else if mnemonic = ['R', 'E', 'S', 'T'] then
    match operands with
    | [d] => (parseDur d).map .rest
    | _ => none
  else if mnemonic = ['T', 'O', 'N', 'E'] then
    match operands with
    | [f, d] =>
      match numberIn 0 65535 f, parseDur d with
      | some f, some d => some (.tone (BitVec.ofInt 16 f) d)
      | _, _ => none
    | _ => none
  else if mnemonic = ['C', 'A', 'N', 'C', 'E', 'L'] then
    match operands with
    | [] => some .cancel
    | _ => none
  else if mnemonic = ['F', 'I', 'L', 'L'] then
    match operands with
    | [c] => (parseDur c).map .fill
    | _ => none
  else none

/-- The operands of the text after a mnemonic: none when it is blank. -/
def operandTexts (cs : List Char) : List (List Char) :=
  if trimUpper cs = [] then [] else (splitCommas cs).map trimUpper

/-- One line of assembler text. -/
def assembleLine (line : List Char) : AsmLine :=
  let text := (line.takeWhile (· ≠ ';')).dropWhile isBlank
  let mnemonic := text.takeWhile fun c => !isBlank c
  if mnemonic = [] then .blank
  else match assembleCommand (mnemonic.map Char.toUpper) (operandTexts (text.drop mnemonic.length)) with
    | some i => .command i
    | none => .invalid

end Sys2Proof.Machine
end

