-- ==== Sys2Proof/Tests/Slice0.lean ====
section
/-! SUPPORT. Tests of the model. The expected results are those of spec/95_test_vectors.md and of the
examples in the rules, never the model's own. The last part shows, for each obligation with hypotheses,
concrete inputs that meet them all, at the ends of their ranges. The theorems are checked one after
another, because many kernel evaluations side by side take much memory. -/

set_option Elab.async false

namespace Sys2Proof.Tests

open Sys2Proof.Machine

/-! ### Helpers -/

/-- The reset state with the reference tables (20 R44). -/
def bench : State := { State.reset with tables := Tables.ref }

/-- The bench with a note in flight. -/
def playing (f : BitVec 16) (d : BitVec 32) (p : F32) : State :=
  { bench with freq := f, dur := d, phase := p }

/-- The reference tables with one entry replaced by the largest frequency: `FTAB[0][0]` = 65535. -/
def topTables : Tables :=
  { Tables.ref with ftab := Tables.ref.ftab.set 0 ((Tables.ref.ftab[0]).set 0 65535) }

/-- A host with its defaults: octave 4, 120 quarters a minute, blanks as white space; it polls `DUR`. -/
def params : HostParams where
  pollsDur := true
  defaultOctave := 4
  defaultBpm := 120
  defaultArticulation := .normal
  whitespace := [0x20, 0x09, 0x0A, 0x0D]
  argDigits := 9

/-- The same host with a small guard; its Driver knows `DUR` from its own last response alone. -/
def smallGuard : HostParams := { params with pollsDur := false, loopGuard := 2 }

/-- The bytes of a script. -/
def script (cs : List Char) : Script := cs.map ascii

/-- A host that has just started, with a script. -/
def hostAt (cs : List Char) : HostState :=
  { HostState.start params 44100 with script := script cs }

/-- The bench with such a host. -/
def systemAt (cs : List Char) : System := { block := bench, host := hostAt cs }

/-- What a callback delivered, what it reported, and the block after it. -/
def outcome : Except HostStop System → Option (List Sample × List AbortCause × State)
  | .ok y => some (y.host.audio, y.host.warnings, y.block)
  | .error _ => none

/-- A step gives a next state. -/
def goesOn (s : State) : Bool :=
  match step s with
  | .next _ => true
  | .fault _ => false
  | .refused _ => false

/-- The bench with words on its port. -/
def withPort (ws : List CmdWord) (s : State) : State := { s with port := ws }

/-! ### Well-formedness -/

theorem test_wf_refuses_rate_zero : Instr.wf (.cfgsr 0) = false := by decide

theorem test_wf_accepts_rate_one : Instr.wf (.cfgsr 1) = true := by decide

/-! ### Decoding (95 2.1) -/

/-- System commands. -/
theorem test_decode_system :
    decode 0x0100AC4400000000 = .ok (.cfgsr 44100) ∧
    decode 0x01FFFFFF00000000 = .ok (.cfgsr 16777215) ∧
    decode 0x0200000000000000 = .ok (.rdreg .status) ∧
    decode 0x0200000100000000 = .ok (.rdreg .srate) ∧
    decode 0x0200000200000000 = .ok (.rdreg .freq) ∧
    decode 0x0200000300000000 = .ok (.rdreg .dur) ∧
    decode 0x0200000400000000 = .ok (.rdreg .phase) ∧
    decode 0x0200000500000000 = .ok (.rdreg .inc) ∧
    decode 0x0300000000000000 = .ok .clrerr := by decide

/-- Note setup and `CANCEL`. -/
theorem test_decode_notes :
    decode 0x1000040100000002 = .ok (.note 4 .a .plus 2) ∧
    decode 0x1000002200000007 = .ok (.note 0 .c .minus 7) ∧
    decode 0x10000000FFFFFFFF = .ok (.note 0 .a .none 4294967295) ∧
    decode 0x1000076200000000 = .ok (.note 7 .g .minus 0) ∧
    decode 0x1100FFFD00000001 = .ok (.noten (-3) 1) ∧
    decode 0x1100800000000001 = .ok (.noten (-32768) 1) ∧
    decode 0x1200000000000002 = .ok (.rest 2) ∧
    decode 0x1300FFFF00000004 = .ok (.tone 65535 4) ∧
    decode 0x1400000000000000 = .ok .cancel := by decide

/-- `FILL`. -/
theorem test_decode_fill :
    decode 0x2000000000000000 = .ok (.fill 0) ∧
    decode 0x20000000FFFFFFFF = .ok (.fill 4294967295) := by decide

theorem test_decode_illegal_opcode :
    ([0x0000000000000000, 0x0400000000000000, 0x1500000000000000, 0x2100000000000000,
      0xFFFFFFFFFFFFFFFF] : List CmdWord).all (decode · = .error .illegalOpcode) = true := by
  decide +kernel

theorem test_decode_illegal_operand :
    ([0x0100000000000000, 0x0100AC4400000001, 0x0200000600000000, 0x0200000F00000000,
      0x0200001000000000, 0x0200000000000001, 0x0300000000000001, 0x1000047000000001,
      0x1000040300000001, 0x1000077300000000, 0x1000080000000001, 0x1000048000000001] ++
      [0x1000040400000001, 0x1101000000000000, 0x1200000100000002, 0x1301000000000000,
      0x1400000000000001, 0x2000000100000004] : List CmdWord).all
      (decode · = .error .illegalOperand) = true := by
  decide +kernel

/-- The encoder on two of the words (30 R61). -/
theorem test_encode :
    encode (.note 4 .c .none 22050) = 0x1000042000005622 ∧
    encode (.tone 400 8820) = 0x1300019000002274 := by decide

/-! ### Note setup (95 2.2) -/

theorem test_note_sharp :
    (issueWord 0x1000040100000002 bench).freq = 441 ∧
    (issueWord 0x1000040100000002 bench).dur = 2 := by decide

/-- A flat of a zero entry faults (95 2.8, first row). -/
theorem test_note_flat_of_zero :
    let t := issueWord 0x1000002200000007 (playing 440 4 0x3FA377EE)
    t.freq = 440 ∧ t.dur = 0 ∧ t.phase = 0x3FA377EE ∧ statusWord t = 0x32 ∧
    lastResponse t = { fault := 3, value := 0, samples := [] } := by decide

theorem test_noten_indices :
    (issueWord 0x1100002F00000001 bench).freq = 247 ∧
    (issueWord 0x1100003900000001 bench).freq = 440 := by decide

theorem test_noten_clamps :
    (issueWord 0x11007FFF00000001 bench).freq = 2093 ∧
    (issueWord 0x1100FFFF00000001 (playing 440 5 0)).freq = 0 := by decide

theorem test_rest :
    let t := issueWord 0x1200000000000002 (playing 440 5 0x3FA377EE)
    t.freq = 0 ∧ t.dur = 2 ∧ t.phase = 0x3FA377EE := by decide

theorem test_tone_zero_duration :
    let t := issueWord 0x1300019000000000 (playing 440 5 0x3FA377EE)
    t.freq = 400 ∧ t.dur = 0 ∧ t.phase = 0 := by decide

theorem test_cancel :
    let t := issueWord 0x1400000000000000 (playing 440 5 0x3FA377EE)
    t.freq = 440 ∧ t.dur = 0 ∧ t.phase = 0x3FA377EE := by decide

/-! ### The oscillator (95 2.3 to 2.6) -/

theorem test_phase_inc :
    phaseInc 400 44100 = 0x3F949B93 ∧ phaseInc 441 44100 = 0x3FA3D70A ∧
    phaseInc 65535 3 = 0x4A2AAA00 ∧ phaseInc 1 16777215 = 0x37000001 := by decide +kernel

/-- The rows of 32.0, 64.0, 96.5 and 127.7096634: a negative-zero product, a truncation, a wrap. -/
theorem test_interp :
    interp Tables.ref 0x3F949B93 = 0x44E947B1 ∧ interp Tables.ref 0x42800000 = 0x00000000 ∧
    interp Tables.ref 0x42FF6B59 = 0xC3E96E40 ∧
    cast16 (interp Tables.ref 0x42C10000) = -32747 ∧
    cast16 (interp Tables.ref 0x42FF6B59) = -466 := by decide +kernel

theorem test_phase_advance :
    phaseAdvance 0x42FF6B59 0x3F949B93 = 0x3F5EE400 ∧
    phaseAdvance 0x42FFFFFF 0x37000001 = 0x00000000 ∧
    phaseAdvance 0x42CD7F1C 0x43111FED = 0x42EFBEF6 := by decide +kernel

/-- The example of R108: the second sample needs the interpolation, the first is `WAVE[0]`. -/
theorem test_fill :
    let t := issueWord 0x2000000000000004 (playing 400 8820 0)
    t.out = [0, 1866, 3725, 5573] ∧ t.dur = 8816 ∧ t.phase = 0x40949B93 ∧
    (lastResponse t).value = 8816 := by decide +kernel

/-- X9: the rest path; the count is larger than what is owed. -/
theorem test_fill_rest :
    let t := issueWord 0x2000000000000002 (playing 0 1 0x3FA377EE)
    t.out = [0] ∧ t.dur = 0 ∧ t.phase = 0x3FA377EE ∧ (lastResponse t).value = 0 := by decide +kernel

/-! ### System commands and faults (95 2.7, 2.8) -/

theorem test_cfgsr : (issueWord 0x0100BB8000000000 bench).srate = 48000 := by decide

/-- A second fault keeps the first cause, and the rate stays. -/
theorem test_cfgsr_zero :
    let t := issueWord 0x0100000000000000 { bench with err := true, cause := 3 }
    t.srate = 44100 ∧ t.cause = 3 ∧ (lastResponse t).fault = 2 := by decide

theorem test_rdreg_inc :
    (lastResponse (issueWord 0x0200000500000000 (playing 400 8820 0))).value = 0x3F949B93 := by
  decide +kernel

theorem test_rdreg_status :
    (lastResponse (issueWord 0x0200000000000000 { bench with err := true, cause := 3 })).value =
      0x32 := by decide

theorem test_clrerr :
    let t := issueWord 0x0300000000000000 { bench with err := true, cause := 3 }
    t.err = false ∧ t.cause = 0 := by decide

theorem test_clrerr_with_operand :
    let t := issueWord 0x0300000000000001 { bench with err := true, cause := 2 }
    t.err = true ∧ t.cause = 2 ∧ (lastResponse t).fault = 2 := by decide

/-- 95 2.8: commands run while `ERR` is 1. -/
theorem test_runs_with_err :
    statusWord (issueWord 0x1300019000000003 { bench with err := true, cause := 1 }) = 0x13 := by
  decide

/-! ### Serialisation (20 R47, R48, 30 R69) -/

theorem test_sample_bytes : sampleBytes (-466) = [0x2E, 0xFE] := by decide

theorem test_response_word :
    responseWord { fault := 3, value := 0, samples := [] } = 0x3000000000000000 ∧
    responseWord { fault := 0, value := 8816, samples := [] } = 0x0000000000002270 := by decide

/-! ### Assembler text (30 R67) -/

theorem test_asm_note :
    assembleLine ['N', 'O', 'T', 'E', ' ', '4', ',', ' ', 'a', '+', ',', ' ', '2'] =
      .command (.note 4 .a .plus 2) := by decide +kernel

theorem test_asm_fill_hex :
    assembleLine ['f', 'i', 'l', 'l', ' ', '0', 'x', '1', 'F', ' ', ';', 'x'] =
      .command (.fill 31) := by decide +kernel

theorem test_asm_reg :
    assembleLine ['R', 'D', 'R', 'E', 'G', ' ', 'i', 'n', 'c'] = .command (.rdreg .inc) := by
  decide +kernel

/-! ### The host layer (95 2.9, Part 1) -/

theorem test_tempo :
    tempoOf 44100 120 = 88200 ∧ tempoOf 44100 128 = 82688 ∧ tempoOf 22050 192 = 27563 ∧
    tempoOf 44100 10 = 330750 ∧ tempoOf 44100 999 = 41506 := by decide

/-- E2: `O9` and `O-5`. -/
theorem test_octave_clamps :
    (resolve params (hostAt ['O', '9'])).2.octave = 6 ∧
    (resolve params (hostAt ['O', '-', '5'])).2.octave = 0 := by decide +kernel

/-- R149 and R150: a plain note, a dotted one, and a rest. -/
theorem test_note_lengths :
    (resolve params (hostAt ['C'])).1 = .command (.note 4 .c .none 22050) ∧
    (resolve params (hostAt ['c', '.'])).1 = .command (.note 4 .c .none 14700) ∧
    (resolve params (hostAt ['P', '9', '9'])).1 = .command (.rest 1378) := by decide +kernel

/-- E8: an unknown command. -/
theorem test_unknown_command :
    (resolve params (hostAt ['Q'])).1 = .abort .malformedCommand := by decide +kernel

/-- E9: `Beep()` at three rates (95 2.9). -/
theorem test_beep :
    beepEvents (HostState.start params 44100) = .ok [.word .control 0x1300019000002274] ∧
    beepEvents (HostState.start params 48000) = .ok [.word .control (encode (.tone 400 9600))] ∧
    beepEvents (HostState.start params 22050) = .ok [.word .control (encode (.tone 400 4410))] := by
  decide +kernel

/-- 43 R146: the argument is missing on every reading, and the script aborts. -/
theorem test_missing_argument :
    (resolve params (hostAt ['O', ' ', 'C'])).1 = .abort .malformedCommand ∧
    (resolve params (hostAt ['L', ' '])).1 = .abort .malformedCommand ∧
    (resolve params (hostAt ['N', '+'])).1 = .abort .malformedCommand ∧
    (resolve params (hostAt ['T', '-'])).1 = .abort .malformedCommand := by decide +kernel

/-- 43 R159: a Driver that polls reads `DUR`, which another agent's `TONE` has set, and then fills. -/
theorem test_driver_polls :
    (callback params 4 { systemAt [] with block := playing 400 4 0 }).map
      (fun y => (y.host.audio, y.block.responses.map (·.value))) =
      .ok ([0, 1866, 3725, 5573], [4, 0]) := by decide +kernel

/-- 00 R12: a room beyond the 32-bit operand. -/
theorem test_fill_operand :
    fillOperand (2 ^ 32 - 1) = 0xFFFFFFFF ∧ fillOperand (2 ^ 32) = 0xFFFFFFFF := by decide

/-- 70 R202, R204: the boot sequence, and a `CFGSR` sent again; 95 2.9 gives the tempo at 44100. -/
theorem test_boot :
    (System.events params (bootEvents .control 44100) (systemAt ['C'])).map
      (fun y => (y.host.script, y.host.rate, y.host.tempo, y.block.srate)) =
      .ok ([], 44100, 88200, 44100) ∧
    ((systemAt ['C']).event params (.word .control 0x0100BB8000000000)).map
      (fun y => (y.host.script, y.host.rate, y.host.tempo, y.block.srate)) =
      .ok (script ['C'], 48000, 96000, 48000) := by decide +kernel

/-- E5 with a guard of 2: the third `L1` exhausts it, and the block gets no command. -/
theorem test_guard :
    outcome (callback smallGuard 4 (systemAt ['L', '1', 'L', '1', 'L', '1'])) =
      some ([0, 0, 0, 0], [.runawayScript], bench) := by decide +kernel

/-! ### Witnesses: inputs that meet the hypotheses of each obligation -/

theorem test_witness_decode_of_encode :
    Instr.wf (.cfgsr 16777215) = true ∧ Instr.wf (.cfgsr 1) = true ∧
    Instr.wf (.note 7 .g .minus 4294967295) = true ∧ Instr.wf (.noten (-32768) 0) = true := by decide

theorem test_witness_encode_of_decode :
    decode 0x1000076200000000 = .ok (.note 7 .g .minus 0) := by decide

/-- `StepRunsTheDecodedCommand`, `EveryCommandEndsWithOneResponse`. -/
theorem test_witness_port :
    (withPort [0x1400000000000000, 0x2000000000000004] bench).port =
      0x1400000000000000 :: [0x2000000000000004] ∧
    decode 0x1400000000000000 = .ok .cancel := by decide

theorem test_witness_empty_port : State.reset.port = [] := by decide

/-- `FaultEntryChangesOnlyFaultState`, one word for each alternative, both ends of `FREQ_RANGE`. -/
theorem test_witness_fault_entry :
    decode 0xFFFFFFFFFFFFFFFF = .error .illegalOpcode ∧
    decode 0x2000000100000004 = .error .illegalOperand ∧
    decode 0x1000002200000007 = .ok (.note 0 .c .minus 7) ∧
    (bench.tables.ftab[0])[bench.tables.semi[letterIndex .c]] = 0 ∧
    decode 0x1000002100000007 = .ok (.note 0 .c .plus 7) ∧
    (topTables.ftab[0])[topTables.semi[letterIndex .c]] = 65535 := by decide

/-- `EveryInterleavingIsExecuted`, with the last word of the port. -/
theorem test_witness_interleaving :
    Merge [(0x1400000000000000 : CmdWord)] [0x2000000000000004, 0x0300000000000000]
      [0x2000000000000004, 0x1400000000000000, 0x0300000000000000] ∧
    ([0x2000000000000004, 0x1400000000000000, 0x0300000000000000] : List CmdWord)[2]? =
      some 0x0300000000000000 :=
  ⟨.right _ _ _ _ (.left _ _ _ _ (.right _ _ _ _ .nil)), rfl⟩

/-- `StepKeepsTheInvariant`, `StepNeverChangesTables`: the largest phase, a sounding note, a fault on
record. -/
theorem test_witness_invariant :
    let s : State := { playing 65535 4294967295 0x42FFFFFF with
      err := true, cause := 3, srate := 1, port := [0x2000000000000002] }
    State.Inv s ∧ goesOn s = true := by decide +kernel

/-- `NoteLooksUpByLetter`, the words: the largest legal fields, then each way to be illegal. -/
theorem test_witness_note_words :
    ((0x000762 : BitVec 24) &&& 0xFFF88C = 0 ∧ (0x000762 : BitVec 24).extractLsb' 4 3 = letterCode .g ∧
      (0x000762 : BitVec 24).extractLsb' 0 2 = accidentalCode .minus) ∧
    (0x000800 : BitVec 24) &&& 0xFFF88C ≠ 0 ∧ (0x000070 : BitVec 24).extractLsb' 4 3 = 7 ∧
    (0x000003 : BitVec 24).extractLsb' 0 2 = 3 := by decide

/-- `NoteLooksUpByLetter`, the ranges: 0 and 65535 are in, -1 and 65536 are out. -/
theorem test_witness_note_ranges :
    let low : Int := ((Tables.ref.ftab[(0 : Fin 8)])[Tables.ref.semi[letterIndex .c]]).toNat
    let high : Int := ((topTables.ftab[(0 : Fin 8)])[topTables.semi[letterIndex .c]]).toNat
    (0 ≤ low ∧ low ≤ 65535) ∧ low - 1 < 0 ∧ (0 ≤ high ∧ high ≤ 65535) ∧ 65535 < high + 1 := by decide

theorem test_witness_noten :
    ((0 : Nat) : Int) = max 0 (min 84 (-1 : BitVec 16).toInt) ∧
    ((0 : Nat) : Int) = max 0 (min 84 (0 : BitVec 16).toInt) ∧
    ((84 : Nat) : Int) = max 0 (min 84 (84 : BitVec 16).toInt) ∧
    ((84 : Nat) : Int) = max 0 (min 84 (85 : BitVec 16).toInt) := by decide

/-- `NoteSetupDiscardsTheOldNote`: a note that does not fault, with each accidental. -/
theorem test_witness_note_setup :
    let f0 := (bench.tables.ftab[(4 : Fin 8)])[bench.tables.semi[letterIndex .a]]
    ¬ (Accidental.minus = .minus ∧ f0 = 0) ∧ ¬ (Accidental.minus = .plus ∧ f0 = 65535) ∧
    ¬ (Accidental.plus = .minus ∧ f0 = 0) ∧ ¬ (Accidental.plus = .plus ∧ f0 = 65535) := by decide

/-- `NewRequestPreemptsTheOldNote`. -/
theorem test_witness_preempt :
    ∃ t u, exec .cancel (playing 400 5 0) = .next t ∧ exec (.fill 4294967295) t = .next u :=
  ⟨_, _, rfl, rfl⟩

/-- `OctaveFourNaturals`. -/
theorem test_witness_admissible : Tables.ref.Admissible := by decide

/-- `SampleStepEmitsThenAdvances`, `RestPathEmitsZeros`. -/
theorem test_witness_sample_step :
    (playing 0 1 0).dur ≠ 0 ∧ (playing 0 1 0).freq = 0 ∧ (playing 1 4294967295 0).dur ≠ 0 ∧
    (playing 1 4294967295 0).freq ≠ 0 := by decide

/-- `SplitFillsEqualOneFill`: the largest sum of counts. -/
theorem test_witness_split_fills :
    (4294967294 : BitVec 32).toNat + (1 : BitVec 32).toNat < 2 ^ 32 ∧
    ∃ t u v, exec (.fill 4294967294) (playing 400 2 0) = .next t ∧ exec (.fill 1) t = .next u ∧
      exec (.fill (4294967294 + 1)) (playing 400 2 0) = .next v :=
  ⟨by decide, _, _, _, rfl, rfl, rfl⟩

/-- `FirstSampleAfterToneIsWaveZero`. -/
theorem test_witness_first_sample :
    ((1 : BitVec 16) ≠ 0 ∧ (1 : BitVec 32) ≠ 0) ∧
    ∃ t u, exec (.tone 1 1) bench = .next t ∧ exec (.fill 1) t = .next u :=
  ⟨by decide, _, _, rfl, rfl⟩

/-- `FloatOpsRoundToNearestEven`: the largest value and zero, and a quotient that has to be rounded. -/
theorem test_witness_float_ops :
    (ffinite fmax = true ∧ ffinite fzero = true ∧ |fvalue fmax + fvalue fzero| ≤ fvalue fmax ∧
      |fvalue fmax - fvalue fzero| ≤ fvalue fmax ∧ |fvalue fmax * fvalue fzero| ≤ fvalue fmax) ∧
    ffinite 0x40400000 = true ∧ fvalue 0x40400000 ≠ 0 ∧
    |fvalue 0x3F800000 / fvalue 0x40400000| ≤ fvalue fmax := by decide +kernel

/-- `ConversionsAreExact`. -/
theorem test_witness_conversions :
    (16777215 : Int).natAbs < 2 ^ 24 ∧ (-16777215 : Int).natAbs < 2 ^ 24 ∧
    ffinite fmax = true := by decide +kernel

/-- `PhaseIncrementIsBounded`, `PhaseAdvanceWrapsExactly`, `CastNeverOverflows`,
`WaveIndicesStayInTable`: the two ends of the phase, of the frequency and of the rate. -/
theorem test_witness_phase :
    PhaseOk 0x00000000 ∧ PhaseOk 0x42FFFFFF ∧ (1 : BitVec 16) ≠ 0 ∧ (65535 : BitVec 16) ≠ 0 ∧
    (1 : BitVec 24) ≠ 0 ∧ (16777215 : BitVec 24) ≠ 0 := by decide +kernel

/-- `PhaseIsZeroOrNormal`: both alternatives, with a step that goes on. -/
theorem test_witness_zero_or_normal :
    let s : State := { playing 1 4294967295 0x37000000 with
      srate := 16777215, port := [0x2000000000000001] }
    State.Inv s ∧ (1 : ℚ) / 2 ^ 17 ≤ fvalue s.phase ∧ goesOn s = true ∧
    State.reset.phase = 0x00000000 := by decide +kernel

/-- `WrapIsRepeatedSubtraction`: no turn, and the largest sum of the vectors. -/
theorem test_witness_wrap :
    (ffinite fzero = true ∧ fsign fzero = false ∧ fvalue fzero < 2 ^ 24 ∧
      ((0 : Nat) : Int) = ⌊fvalue fzero / 128⌋) ∧
    ffinite 0x4AFFFF00 = true ∧ fsign 0x4AFFFF00 = false ∧ fvalue 0x4AFFFF00 < 2 ^ 24 ∧
    ((65535 : Nat) : Int) = ⌊fvalue 0x4AFFFF00 / 128⌋ := by decide +kernel

/-- `InterpLiesBetweenNeighbours`: the first and the last interval, and a phase without a fraction. -/
theorem test_witness_interp :
    ((0 : Fin 128).val : Int) = ⌊fvalue 0x00000000⌋ ∧ fvalue 0x00000000 = ((0 : Fin 128).val : ℚ) ∧
    ((127 : Fin 128).val : Int) = ⌊fvalue 0x42FFFFFF⌋ := by decide +kernel

/-- `CfgsrSetsTheRate`, `RdregReadsEveryRegister`: the ends of the operand ranges. -/
theorem test_witness_system_operands :
    ((1 : BitVec 24) ≠ 0 ∧ (16777215 : BitVec 24) ≠ 0) ∧
    ((0 : BitVec 32) = 0 ∧ (5 : BitVec 24).toNat ≤ 5 ∧ 6 ≤ (6 : BitVec 24).toNat) ∧
    (playing 0 0 0).freq = 0 ∧ (playing 1 0 0).freq ≠ 0 := by decide

/-- `OnlyNoteSetupWritesFreq`, `WritersOfDuration` (no fault). -/
theorem test_witness_writes_freq :
    ∃ t, step (withPort [0x1300019000000003] bench) = .next t ∧ t.freq ≠ bench.freq :=
  ⟨_, rfl, by decide⟩

/-- `OnlyToneAndSoundingFillWritePhase`: a `TONE` and a `FILL`. -/
theorem test_witness_writes_phase :
    (∃ t, step (withPort [0x1300019000000003] (playing 400 5 0x3FA377EE)) = .next t ∧
      t.phase ≠ (playing 400 5 0x3FA377EE).phase) ∧
    ∃ t, step (withPort [0x2000000000000001] (playing 400 5 0)) = .next t ∧
      t.phase ≠ (playing 400 5 0).phase :=
  ⟨⟨_, rfl, by decide +kernel⟩, _, rfl, by decide +kernel⟩

/-- `OnlyCfgsrWritesSrate`. -/
theorem test_witness_writes_srate :
    ∃ t, step (withPort [0x0100000100000000] bench) = .next t ∧ t.srate ≠ bench.srate :=
  ⟨_, rfl, by decide⟩

/-- `WritersOfDuration` (a fault), `FaultFlagStaysUntilClrerr` (another word, and `CLRERR`). -/
theorem test_witness_fault_stays :
    (∃ t, step (withPort [0x0000000000000000] { bench with err := true, cause := 3 }) = .next t) ∧
    ∃ t, step (withPort [0x0300000000000000] { bench with err := true, cause := 3 }) = .next t :=
  ⟨⟨_, rfl⟩, _, rfl⟩

/-- `FaultFlagNeverChangesExecution`: two states that differ in the fault fields. -/
theorem test_witness_same_but_fault :
    SameButFault (withPort [0x2000000000000001] bench)
        (withPort [0x2000000000000001] { bench with err := true, cause := 3 }) ∧
    ∃ s' t', step (withPort [0x2000000000000001] bench) = .next s' ∧
      step (withPort [0x2000000000000001] { bench with err := true, cause := 3 }) = .next t' :=
  ⟨⟨rfl, rfl, rfl, rfl, rfl, rfl, rfl⟩, _, _, rfl, rfl⟩

/-- `BytesAreLittleEndian`: the first and the last byte. -/
theorem test_witness_byte_index :
    (wordBytes 0x1300019000002274)[0]? = some 0x74 ∧
    (wordBytes 0x1300019000002274)[7]? = some 0x13 := by decide +kernel

/-- `OctaveLengthAndTempoAreClamped`, `RestAndNumberCommands`: each letter, both cases, values below, in
and above the range. -/
theorem test_witness_arguments :
    HostState.ahead params (hostAt ['O', '-', '5']) = ascii 'O' :: script ['-', '5'] ∧
    parseInt params (script ['-', '5']) = .int (-5) 2 ∧
    HostState.ahead params (hostAt [' ', 'l', '6', '5']) = ascii 'l' :: script ['6', '5'] ∧
    parseInt params (script ['6', '5']) = .int 65 2 ∧
    HostState.ahead params (hostAt ['T', '2', '5', '5']) = ascii 'T' :: script ['2', '5', '5'] ∧
    parseInt params (script ['2', '5', '5']) = .int 255 3 ∧
    HostState.ahead params (hostAt ['P', '0']) = ascii 'P' :: script ['0'] ∧
    parseInt params (script ['0']) = .int 0 1 ∧
    HostState.ahead params (hostAt ['n', '8', '5']) = ascii 'n' :: script ['8', '5'] ∧
    parseInt params (script ['8', '5']) = .int 85 2 := by decide +kernel

/-- `NoteLetterGivesNoteCommand`: a sharp with a dot, a flat, and a plain note at the end. -/
theorem test_witness_note_letter :
    HostState.ahead params (hostAt ['c', '+', '.']) = ascii 'c' :: script ['+', '.'] ∧
    noteLetter (upper (ascii 'c')) = some .c ∧
    script ['+', '.'] = [ascii '+'] ++ script ['.'] ∧
    HostState.ahead params (hostAt ['G', '-']) = ascii 'G' :: script ['-'] ∧
    noteLetter (upper (ascii 'G')) = some .g ∧ script ['-'] = [ascii '-'] ++ script [] ∧
    HostState.ahead params (hostAt ['A']) = ascii 'A' :: script [] ∧
    noteLetter (upper (ascii 'A')) = some .a ∧ script [] = [] ++ script [] ∧
    (script []).head? ≠ some (ascii '+') ∧ (script []).head? ≠ some (ascii '-') := by decide +kernel

/-- `SequencerKeepsItsRanges`: both ends of the ranges, a command, and an event. -/
theorem test_witness_sequencer :
    HostState.Inv { hostAt ['C'] with octave := 0, divisor := 1, bpm := 32, tempo := 330750 } ∧
    HostState.Inv { hostAt ['C'] with octave := 6, divisor := 64, bpm := 255, tempo := 41506 } ∧
    (resolve params (hostAt ['N', '3'])).1 = .command (.noten 3 22050) ∧
    ∃ y', (systemAt ['C']).event params (.openDevice .control 16777215) = .ok y' :=
  ⟨by decide +kernel, by decide +kernel, by decide +kernel, _, rfl⟩

/-- `TempoIsNearestSampleCount`: the ends of the rate and of the beats. -/
theorem test_witness_tempo :
    ((1 : BitVec 24) ≠ 0 ∧ (16777215 : BitVec 24) ≠ 0) ∧ bench.port = [] ∧
    32 ≤ bpmOf 0 ∧ bpmOf 0 = 32 ∧ bpmOf 999 = 255 := by decide

/-- A run of a conforming host: boot, a `Play`, a fill request that ends while the control agent sends a
`TONE`, a `CFGSR` of the opener, and the reset input. -/
def conformingRun : List Event :=
  bootEvents .control 44100 ++ playEvents (script ['C']) ++ [.fillRequest 2, .driver] ++
    [.word .control 0x1300019000000004, .driver, .driver, .driver, .word .control 0x0100BB8000000000] ++
    [.word .realTime 0x0200000300000000, .reset]

/-- `ConformingHostSendsLegalWords`: a move of the Driver, the smallest and the largest rate, and a run. -/
theorem test_witness_conforming :
    (∃ y', driverMove params (systemAt ['C']) = .ok y') ∧
    ((1 : BitVec 24) ≠ 0 ∧ (16777215 : BitVec 24) ≠ 0) ∧
    Conforming .closed conformingRun = true ∧ bench.port = [] ∧
    (∀ r ∈ bench.responses, r.LegalWord) ∧
    ((System.events params conformingRun { systemAt [] with block := bench }).map
      (·.host.audio.length)) = .ok 2 :=
  ⟨⟨_, rfl⟩, by decide, by decide +kernel, rfl, nofun, by decide +kernel⟩

/-- 43 R170: between `CFGSR` and the defaults either agent reads back, the opener sends `CFGSR` again, and the
control agent plays a script; at 44100 without a first `CFGSR` as well. -/
theorem test_conforming_before_defaults :
    Conforming .closed ([.openDevice .control 48000, .word .control 0x0100BB8000000000,
      .word .realTime 0x0200000300000000, .word .realTime 0x0300000000000000,
      .word .control 0x0100AC4400000000] ++ playEvents [] ++ [.takeDefaults, .fillRequest 1]) = true ∧
    Conforming .closed [.openDevice .control 44100, .word .realTime 0x0200000300000000,
      .takeDefaults] = true ∧
    Conforming .closed [.openDevice .control 48000, .word .control 0x0100BB8000000000,
      .word .realTime 0x0100BB8000000000] = false := by decide +kernel

/-- 43 R140, 70 R202: what a conforming host does not do. `NOTE` from outside the Driver, `TONE` from the
real-time agent, a word before `CFGSR`, and the defaults before it. -/
theorem test_not_conforming :
    ([[.word .control 0x1000042000005622], [.word .realTime 0x1300019000002274]] : List (List Event)).all
      (fun es => Conforming .closed (bootEvents .control 48000 ++ es) = false) = true ∧
    Conforming .closed [.openDevice .control 48000, .word .control 0x0300000000000000] = false ∧
    Conforming .closed [.openDevice .control 48000, .takeDefaults] = false := by decide +kernel

/-- `UnknownCommandFallsSilent`, for a Driver that polls and one that does not. -/
theorem test_witness_unknown :
    let y := systemAt ['Q']
    (y.host.request = none ∧ y.host.published = none ∧ y.block.port = [] ∧ (1 : Nat) ≠ 0 ∧
      (params.pollsDur = true ∧ y.block.dur = 0) ∧
      (smallGuard.pollsDur = false ∧ y.host.heard = 0) ∧
      y.host.ahead params = ascii 'Q' :: [] ∧ y.host.ahead smallGuard = ascii 'Q' :: [] ∧
      ascii 'Q' ≠ 0) ∧
    ∀ k ∈ songStarts, ascii 'Q' ≠ ascii k :=
  ⟨by decide +kernel, fun k hk => of_decide_eq_true
    (List.all_eq_true.mp (show songStarts.all (ascii 'Q' ≠ ascii ·) = true by decide +kernel) k hk)⟩

/-- `RunawayScriptFallsSilent`: one repetition more than the guard, for both ways of R159. -/
theorem test_witness_runaway :
    let y := systemAt ['L', '1', 'L', '1', 'L', '1']
    y.host.request = none ∧ y.host.published = none ∧ y.block.port = [] ∧ (1 : Nat) ≠ 0 ∧
    (params.pollsDur = true ∧ y.block.dur = 0) ∧ (smallGuard.pollsDur = false ∧ y.host.heard = 0) ∧
    y.host.script = (List.replicate 3 [ascii 'L', ascii '1']).flatten ∧ y.host.cursor = 0 ∧
    smallGuard.loopGuard < 3 ∧ ascii 'L' ∉ smallGuard.whitespace ∧ 1 ≤ smallGuard.argDigits := by
  decide +kernel

/-- `CallbackDeliversExactlyTheBuffer`, the first clause, and `PlayTruncatesAndRestarts`: a script without
arguments is settled. -/
theorem test_witness_callback :
    (systemAt ['C']).host.request = none ∧ (systemAt ['C']).block.port = [] ∧
    Settled params (systemAt ['C']).host.nextScript := by
  refine ⟨rfl, rfl, fun h hs => ?_⟩
  obtain ⟨_, cursor, octave, bpm, tempo, divisor, articulation, rate, published, heard, request, audio,
    warnings⟩ := h
  cases hs
  cases cursor with
  | zero => exact nofun
  | succ k => simp [resolve, HostState.skipSpace, HostState.advance]

/-- `CallbackDeliversExactlyTheBuffer`, the second clause: a number after a plus sign is a form the source
leaves open. -/
theorem test_witness_callback_stops :
    (systemAt ['O', '+', '5']).host.request = none ∧ (systemAt ['O', '+', '5']).block.port = [] ∧
    callback params 1 (systemAt ['O', '+', '5']) = .error .unsettledScript := by decide +kernel

/-- `PlayToneIsOneTone`: the shortest and the longest tone. -/
theorem test_witness_play_tone :
    (HostState.start params 44100).rate = 44100 ∧
    ((0 : BitVec 32).toNat : Int) = ⌊((HostState.start params 44100).rate.toNat : ℚ) * 0⌋ ∧
    ((4294967295 : BitVec 32).toNat : Int) =
      ⌊((HostState.start params 1).rate.toNat : ℚ) * 4294967295⌋ := by
  decide +kernel

end Sys2Proof.Tests
end

section
/-! PROOFS. The step and its one response (spec/00_scope.md R16, R17): what a word does on its way from the
port to its response, whatever command it stands for. -/

namespace Sys2Proof.Machine

/-! ### From a step to the command (R17) -/

/-- A legal word runs the instruction it decodes to. -/
theorem execWord_of_decode_ok {w : CmdWord} {i : Instr} (h : decode w = .ok i) (s : State) :
    execWord w s = exec i s := by
  rw [execWord, h]

/-- An illegal word takes the fault entry, with the fault the decoder names. -/
theorem execWord_of_decode_error {w : CmdWord} {c : Cause} (h : decode w = .error c) (s : State) :
    execWord w s = .next (raiseFault c s) := by
  rw [execWord, h]

/-- Settles O5: a step takes the word at the head of the port, and a legal word runs its instruction. -/
theorem stepRunsTheDecodedCommand : Obligations.StepRunsTheDecodedCommand := by
  intro s w ws i hport hdecode
  rw [step_cons s w ws hport, execWord_of_decode_ok hdecode]
  rfl

/-- Settles O6: a step looks at the port before anything else. -/
theorem stepIdlesOnAnEmptyPort : Obligations.StepIdlesOnAnEmptyPort :=
  step_nil

/-! ### One response for each command (R16) -/

/-- R16: from `s` to `t` the block executed one command and answered it by the one response `r`. The words
still on the port stay; `r` carries the samples the command emitted, and `emits` must hold if there are
any; a fault response is empty. -/
structure AnsweredBy (emits : Prop) (s t : State) (r : Response) : Prop where
  port : t.port = s.port
  responses : t.responses = s.responses ++ [r]
  out : t.out = s.out ++ r.samples
  samples : r.samples ≠ [] → emits
  fault : r.fault ≠ 0 → r.value = 0 ∧ r.samples = []
  code : r.fault.toNat ≤ 3

/-- The three codes of 60 R180. -/
theorem causeCode_toNat_le (c : Cause) : (causeCode c).toNat ≤ 3 := by
  cases c <;> decide

/-- `respond`, after work that emitted the samples it reports, is the one response. -/
theorem answeredBy_respond {emits : Prop} {s u : State} {vs : List Sample} (v : BitVec 32)
    (hport : u.port = s.port) (hresponses : u.responses = s.responses) (hout : u.out = s.out ++ vs)
    (hemits : vs ≠ [] → emits) : AnsweredBy emits s (respond v vs u) ⟨0, v, vs⟩ where
  port := hport
  responses := by rw [respond_responses, hresponses]
  out := hout
  samples := hemits
  fault h := absurd rfl h
  code := Nat.zero_le 3

/-- `respond`, after work that emitted nothing, is the one response and carries no sample. -/
theorem answeredBy_respond_nil {emits : Prop} {s u : State} (v : BitVec 32)
    (hport : u.port = s.port) (hresponses : u.responses = s.responses) (hout : u.out = s.out) :
    AnsweredBy emits s (respond v [] u) ⟨0, v, []⟩ :=
  answeredBy_respond v hport hresponses (by rw [hout, List.append_nil]) (absurd rfl)

/-- The fault entry of 60 R185 is the one response of a command that faults, and carries no sample. -/
theorem answeredBy_raiseFault {emits : Prop} (c : Cause) (s : State) :
    AnsweredBy emits s (raiseFault c s) ⟨causeCode c, 0, []⟩ where
  port := rfl
  responses := rfl
  out := (List.append_nil _).symm
  samples h := absurd rfl h
  fault _ := ⟨rfl, rfl⟩
  code := causeCode_toNat_le c

/-- What `OUT` gained in `k` sample steps is what follows its old contents. -/
theorem sampleSteps_out_drop (k : Nat) (s : State) :
    (sampleSteps k s).out = s.out ++ (sampleSteps k s).out.drop s.out.length := by
  obtain ⟨vs, hout, -⟩ := sampleSteps_out k s
  rw [hout, List.drop_left]

/-- Every instruction, in every state, is answered by one response, and only `FILL` emits samples. -/
theorem exec_answeredBy {i : Instr} {s t : State} (h : exec i s = .next t) :
    ∃ r, AnsweredBy (∃ c, i = .fill c) s t r := by
  obtain ⟨sr, -, -, rfl⟩ | ⟨-, rfl⟩ | ⟨reg, -, rfl⟩ | ⟨-, rfl⟩ | ⟨o, l, a, d, f, -, -, rfl⟩ |
    ⟨o, l, a, d, -, -, rfl⟩ | ⟨n, d, -, rfl⟩ | ⟨d, -, rfl⟩ | ⟨f, d, -, rfl⟩ | ⟨-, rfl⟩ |
    ⟨c, rfl, rfl⟩ := exec_cases h
  · -- `CFGSR`, a rate that is not 0
    exact ⟨_, answeredBy_respond_nil _ rfl rfl rfl⟩
  · -- `CFGSR 0`
    exact ⟨_, answeredBy_raiseFault _ s⟩
  · -- `RDREG`
    exact ⟨_, answeredBy_respond_nil _ rfl rfl rfl⟩
  · -- `CLRERR`
    exact ⟨_, answeredBy_respond_nil _ rfl rfl rfl⟩
  · -- `NOTE`, in range
    exact ⟨_, answeredBy_respond_nil _ rfl rfl rfl⟩
  · -- `NOTE`, `FREQ_RANGE`
    exact ⟨_, answeredBy_raiseFault _ s⟩
  · -- `NOTEN`
    exact ⟨_, answeredBy_respond_nil _ rfl rfl rfl⟩
  · -- `REST`
    exact ⟨_, answeredBy_respond_nil _ rfl rfl rfl⟩
  · -- `TONE`
    exact ⟨_, answeredBy_respond_nil _ rfl rfl rfl⟩
  · -- `CANCEL`
    exact ⟨_, answeredBy_respond_nil _ rfl rfl rfl⟩
  · -- `FILL`: the response reports what the sample steps appended to `OUT`
    exact ⟨_, answeredBy_respond _ (sampleSteps_port _ s) (sampleSteps_responses _ s)
      (sampleSteps_out_drop _ s) fun _ => ⟨c, rfl⟩⟩

/-- Every word, legal or not, is answered by one response in every state. -/
theorem execWord_answeredBy (w : CmdWord) (s : State) :
    ∃ t r, execWord w s = .next t ∧ AnsweredBy (∃ c, decode w = .ok (.fill c)) s t r := by
  cases hdecode : decode w with
  | error c =>
    exact ⟨_, _, execWord_of_decode_error hdecode s, answeredBy_raiseFault c s⟩
  | ok i =>
    obtain ⟨t, hexec⟩ := exec_next i s
    obtain ⟨r, hr⟩ := exec_answeredBy hexec
    refine ⟨t, r, (execWord_of_decode_ok hdecode s).trans hexec, ?_⟩
    simpa only [Except.ok.injEq] using hr

/-- Settles O7: a step with a word on the port executes that word on the rest of the port, and every word is
answered by one response. -/
theorem everyCommandEndsWithOneResponse : Obligations.EveryCommandEndsWithOneResponse := by
  intro s w ws hport
  obtain ⟨t, r, hexec, hr⟩ := execWord_answeredBy w (s.setPort ws)
  exact ⟨t, r, (step_cons s w ws hport).trans hexec, hr.port, hr.responses, hr.out, hr.samples,
    hr.fault, hr.code⟩

end Sys2Proof.Machine
end

section
/-! PROOFS. The state of the block (spec/10_state.md): its values at reset (R31), the invariant of R30, which
command writes which register (R21 to R24), and the bits of `STATUS` (R25). -/

namespace Sys2Proof.Machine

/-! ### Binary32 operations on values that are not negative (41_oscillator.md R100 to R103) -/

/-- A finite value with a clear sign bit: not negative, and not a negative zero. -/
abbrev FNonneg (x : F32) : Prop := ffinite x = true ∧ fsign x = false

/-- A magnitude at or below a finite one rounds to a finite one that is not above it. -/
theorem fpack_nonneg_le {n d m : Nat} (hd : 0 < d) (hm : m < infCode) (h : n ≤ magOf m * d) :
    FNonneg (fpack false n d) ∧ fmag (fpack false n d) ≤ magOf m := by
  have hround := roundMag_le hd h
  refine ⟨⟨?_, fsign_fpack _ _ _⟩, ?_⟩
  · rw [ffinite_fpack]; exact decide_eq_true (hround.trans_lt hm)
  · rw [fmag_fpack]; exact magOf_strictMono.monotone hround

/-- A magnitude at or above a representable one does not round below it. -/
theorem le_fmag_fpack {n d m : Nat} (hd : 0 < d) (hm : m ≤ infCode) (h : magOf m * d ≤ n) (neg : Bool) :
    magOf m ≤ fmag (fpack neg n d) := by
  rw [fmag_fpack]; exact magOf_strictMono.monotone (le_roundMag hd hm h)

theorem funits_of_nonneg {x : F32} (h : FNonneg x) : funits x = some (fmag x : Int) := by
  rw [funits_of_finite h.1, h.2]; rfl

/-- A number of units that is not negative is rounded as a magnitude. -/
theorem fround_natCast (n : Nat) : fround n false = fpack false n 1 := by
  unfold fround
  by_cases h : n = 0
  · subst h; rfl
  · rw [if_neg (by omega), Int.natAbs_natCast, decide_eq_false (by omega)]

/-- A sum of values that are not negative is its rounded magnitude. -/
theorem fadd_of_nonneg {a b : F32} (ha : FNonneg a) (hb : FNonneg b) :
    fadd a b = fpack false (fmag a + fmag b) 1 := by
  rw [← fround_natCast, fadd, funits_of_nonneg ha, funits_of_nonneg hb, ha.2]; rfl

/-- A quotient of values that are not negative is its rounded magnitude. -/
theorem fdiv_of_nonneg {a b : F32} (ha : FNonneg a) (hb : FNonneg b) (h0 : fmag b ≠ 0) :
    fdiv a b = fpack false (fmag a * unitsPerOne) (fmag b) := by
  rw [fdiv, if_pos ⟨ha.1, hb.1, h0⟩, ha.2, hb.2]; rfl

/-- `cvt` of a natural number below 2^24 is that number (R101). -/
theorem cvt_natCast {n : Nat} (h : n < 2 ^ 24) :
    FNonneg (cvt n) ∧ fmag (cvt n) = n * unitsPerOne := by
  have hunits := funits_cvt n (by omega)
  refine ⟨⟨ffinite_of_funits hunits, ?_⟩, ?_⟩
  · rw [cvt, ← Int.natCast_mul, fround_natCast, fsign_fpack]
  · rw [← natAbs_funits hunits, ← Int.natCast_mul, Int.natAbs_natCast]

/-! Codes of powers of two, in units of 2^-149. -/

theorem magOf_two_pow_neg16 : magOf (111 * 2 ^ 23) = 2 ^ 133 := by decide

theorem magOf_two_pow_23 : magOf (150 * 2 ^ 23) = 2 ^ 172 := by decide

theorem magOf_two_pow_24 : magOf (151 * 2 ^ 23) = 2 ^ 173 := by decide

/-- The quotient `SR / F` of R103 is finite, not negative and at least 2^-16. -/
theorem rateQuotient_bounds {f : BitVec 16} {sr : BitVec 24} (hf : f ≠ 0) (hsr : sr ≠ 0) :
    FNonneg (fdiv (cvt sr.toNat) (cvt f.toNat)) ∧
      2 ^ 133 ≤ fmag (fdiv (cvt sr.toNat) (cvt f.toNat)) := by
  have hf0 : 0 < f.toNat := by bv_omega
  have hsr0 : 0 < sr.toNat := by bv_omega
  obtain ⟨hsrn, hsrm⟩ := cvt_natCast sr.isLt
  obtain ⟨hfn, hfm⟩ := cvt_natCast (n := f.toNat) (by omega)
  have hd : 0 < f.toNat * unitsPerOne := Nat.mul_pos hf0 (by decide)
  rw [fdiv_of_nonneg hsrn hfn (by omega), hsrm, hfm]
  constructor
  · refine (fpack_nonneg_le (m := 151 * 2 ^ 23) hd (by decide) ?_).1
    rw [magOf_two_pow_24]; unfold unitsPerOne; have := sr.isLt; omega
  · rw [← magOf_two_pow_neg16]
    refine le_fmag_fpack hd (by decide) ?_ false
    rw [magOf_two_pow_neg16]; unfold unitsPerOne; have := f.isLt; omega

/-- The increment of R103 is finite, not negative and at most 2^23. -/
theorem phaseInc_bounds {f : BitVec 16} {sr : BitVec 24} (hf : f ≠ 0) (hsr : sr ≠ 0) :
    FNonneg (phaseInc f sr) ∧ fmag (phaseInc f sr) ≤ 2 ^ 172 := by
  obtain ⟨hqn, hqm⟩ := rateQuotient_bounds hf hsr
  obtain ⟨hn, hm⟩ := cvt_natCast (n := 128) (by decide)
  have hq0 : 0 < fmag (fdiv (cvt sr.toNat) (cvt f.toNat)) := by omega
  have hinc : phaseInc f sr =
      fpack false (fmag (cvt (128 : Nat)) * unitsPerOne) (fmag (fdiv (cvt sr.toNat) (cvt f.toNat))) :=
    fdiv_of_nonneg hn hqn hq0.ne'
  rw [hinc, hm, ← magOf_two_pow_23]
  refine fpack_nonneg_le hq0 (by decide) ?_
  rw [magOf_two_pow_23]; unfold unitsPerOne; omega

/-- A phase that advances by the increment of a sounding note is a phase (R106). -/
theorem phaseOk_phaseAdvance {p : F32} {f : BitVec 16} {sr : BitVec 24} (hp : PhaseOk p) (hf : f ≠ 0)
    (hsr : sr ≠ 0) : PhaseOk (phaseAdvance p (phaseInc f sr)) := by
  obtain ⟨hfin, hsign, hlt⟩ := hp
  obtain ⟨hincn, hincm⟩ := phaseInc_bounds hf hsr
  have hsum : FNonneg (fadd p (phaseInc f sr)) := by
    rw [fadd_of_nonneg ⟨hfin, hsign⟩ hincn]
    refine (fpack_nonneg_le (m := 151 * 2 ^ 23) one_pos (by decide) ?_).1
    rw [unitsPerTurn_eq] at hlt
    rw [magOf_two_pow_24]; omega
  exact (funits_phaseWrap hsum.1 hsum.2).1

/-! ### What a command does before its response -/

/-- What an instruction that does not fault does to a state before it responds. -/
inductive Effect (s : State) : Instr → State → Prop
  | cfgsr (sr : BitVec 24) (h : sr ≠ 0) : Effect s (.cfgsr sr) (s.setSrate sr)
  | rdreg (r : Reg) : Effect s (.rdreg r) s
  | clrerr : Effect s .clrerr (clearFault s)
  | note (o : Fin 8) (l : Letter) (a : Accidental) (d : BitVec 32) (f : BitVec 16)
      (h : shiftFreq (lookupLetter s.tables o l) a = some f) : Effect s (.note o l a d) (setupNote f d s)
  | noten (n : BitVec 16) (d : BitVec 32) :
      Effect s (.noten n d) (setupNote (lookupNumber s.tables n) d s)
  | rest (d : BitVec 32) : Effect s (.rest d) (setupNote 0 d s)
  | tone (f : BitVec 16) (d : BitVec 32) : Effect s (.tone f d) ((setupNote f d s).setPhase fzero)
  | cancel : Effect s .cancel (s.setDur 0)
  | fill (c : BitVec 32) : Effect s (.fill c) (sampleSteps (fillCount c s) s)

/-- An instruction takes the fault entry, or it has its effect and responds. -/
theorem exec_effect {i : Instr} {s t : State} (h : exec i s = .next t) :
    (∃ c, t = raiseFault c s) ∨ ∃ u v vs, Effect s i u ∧ t = respond v vs u := by
  obtain ⟨sr, rfl, h0, rfl⟩ | ⟨-, rfl⟩ | ⟨r, rfl, rfl⟩ | ⟨rfl, rfl⟩ | ⟨o, l, a, d, f, rfl, hf, rfl⟩ |
    ⟨o, l, a, d, -, -, rfl⟩ | ⟨n, d, rfl, rfl⟩ | ⟨d, rfl, rfl⟩ | ⟨f, d, rfl, rfl⟩ | ⟨rfl, rfl⟩ |
    ⟨c, rfl, rfl⟩ := exec_cases h
  · exact .inr ⟨_, _, _, .cfgsr sr h0, rfl⟩
  · exact .inl ⟨_, rfl⟩
  · exact .inr ⟨_, _, _, .rdreg r, rfl⟩
  · exact .inr ⟨_, _, _, .clrerr, rfl⟩
  · exact .inr ⟨_, _, _, .note o l a d f hf, rfl⟩
  · exact .inl ⟨_, rfl⟩
  · exact .inr ⟨_, _, _, .noten n d, rfl⟩
  · exact .inr ⟨_, _, _, .rest d, rfl⟩
  · exact .inr ⟨_, _, _, .tone f d, rfl⟩
  · exact .inr ⟨_, _, _, .cancel, rfl⟩
  · exact .inr ⟨_, _, _, .fill c, rfl⟩

/-- A step that takes a word takes the fault entry, or the word's instruction has its effect and responds. -/
theorem step_effect {s t : State} {w : CmdWord} {ws : List CmdWord} (hport : s.port = w :: ws)
    (hstep : step s = .next t) :
    (∃ c, t = raiseFault c (s.setPort ws)) ∨
      ∃ i u v vs, decode w = .ok i ∧ Effect (s.setPort ws) i u ∧ t = respond v vs u := by
  rcases step_cases hport hstep with ⟨c, -, ht⟩ | ⟨i, hdecode, hexec⟩
  · exact .inl ⟨c, ht⟩
  · exact (exec_effect hexec).imp id fun ⟨u, v, vs, heffect, ht⟩ => ⟨i, u, v, vs, hdecode, heffect, ht⟩

/-- An effect comes before the response. -/
theorem Effect.responses {s u : State} {i : Instr} (h : Effect s i u) : u.responses = s.responses := by
  cases h with
  | fill c => exact sampleSteps_responses _ s
  | _ => rfl

/-! ### `FILL` (41 R108 to R111) -/

/-- `FILL` emits nothing exactly when it asks for nothing or nothing is owed. -/
theorem fillCount_eq_zero_iff (c : BitVec 32) (s : State) : fillCount c s = 0 ↔ c = 0 ∨ s.dur = 0 := by
  unfold fillCount; bv_omega

theorem fillCount_le_dur (c : BitVec 32) (s : State) : fillCount c s ≤ s.dur.toNat := Nat.min_le_right _ _

/-- `FILL` lowers `DUR` by its count, or to 0. -/
theorem sampleSteps_fillCount_dur (c : BitVec 32) (s : State) :
    (sampleSteps (fillCount c s) s).dur.toNat = s.dur.toNat - c.toNat := by
  rw [sampleSteps_dur _ s (fillCount_le_dur c s)]; unfold fillCount; omega

/-- A rest leaves the phase (R110). -/
theorem sampleSteps_phase_of_rest (k : Nat) {s : State} (h : s.freq = 0) :
    (sampleSteps k s).phase = s.phase := by
  induction k generalizing s with
  | zero => rfl
  | succ k ih => rw [sampleSteps, ih (by rw [sampleStep_freq, h]), sampleStep_phase, if_pos h]

/-- Sample steps keep the phase in its range, from every state with a sample rate. -/
theorem phaseOk_sampleSteps (k : Nat) {s : State} (hp : PhaseOk s.phase) (hsr : s.srate ≠ 0) :
    PhaseOk (sampleSteps k s).phase := by
  induction k generalizing s with
  | zero => exact hp
  | succ k ih =>
    refine ih ?_ (by rwa [sampleStep_srate])
    rw [sampleStep_phase]
    split
    next => exact hp
    next hf => exact phaseOk_phaseAdvance hp hf hsr

/-! ### The invariant (R30) -/

/-- The code 0 is left for "no fault" (60 R180). -/
theorem causeCode_ne_zero (c : Cause) : causeCode c ≠ 0 := by cases c <;> decide

/-- `+0.0` is a phase. -/
theorem phaseOk_fzero : PhaseOk fzero := by decide

/-- The fault entry keeps the first code, or records its own. -/
theorem raiseFault_inv (c : Cause) {s : State} (h : s.Inv) : (raiseFault c s).Inv := by
  obtain ⟨hphase, hrate, hcause, hcode⟩ := h
  refine ⟨hphase, hrate, ?_⟩
  rw [raiseFault_cause, raiseFault_err]
  cases herr : s.err with
  | false => exact ⟨iff_of_false (causeCode_ne_zero c) nofun, causeCode_toNat_le c⟩
  | true =>
    have hne : s.cause ≠ 0 := fun h0 => absurd (hcause.mp h0) (by rw [herr]; nofun)
    exact ⟨iff_of_false hne nofun, hcode⟩

/-- Every effect keeps the invariant; only those of `CFGSR`, `CLRERR`, `TONE` and `FILL` touch what it is
about. -/
theorem Effect.inv {s u : State} {i : Instr} (heffect : Effect s i u) (h : s.Inv) : u.Inv := by
  have ⟨hphase, hrate, hfault⟩ := h
  cases heffect with
  | cfgsr sr h0 => exact ⟨hphase, h0, hfault⟩
  | clrerr => exact ⟨hphase, hrate, iff_of_true rfl rfl, Nat.zero_le 3⟩
  | tone f d => exact ⟨phaseOk_fzero, hrate, hfault⟩
  | fill c =>
    refine ⟨phaseOk_sampleSteps _ hphase hrate, ?_⟩
    rw [sampleSteps_srate, sampleSteps_cause, sampleSteps_err]
    exact ⟨hrate, hfault⟩
  | _ => exact h

theorem step_inv {s t : State} (h : s.Inv) (hstep : step s = .next t) : t.Inv := by
  cases hport : s.port with
  | nil => cases (step_nil s hport).symm.trans hstep; exact h
  | cons w ws =>
    have hrest : (s.setPort ws).Inv := h
    rcases step_effect hport hstep with ⟨c, rfl⟩ | ⟨i, u, v, vs, -, heffect, rfl⟩
    · exact raiseFault_inv c hrest
    · exact heffect.inv hrest

/-! ### `STATUS` (R25) -/

/-- Every bit of `STATUS`: `ACTIVE`, `ERR`, two zeros, then `CAUSE` with zeros above it. -/
theorem statusWord_getLsbD (s : State) (j : Nat) :
    (statusWord s).getLsbD j =
      if j = 0 then active s else if j = 1 then s.err
      else if j < 4 then false else s.cause.getLsbD (j - 4) := by
  simp only [statusWord, BitVec.getLsbD_setWidth, BitVec.getLsbD_append, BitVec.getLsbD_ofBool]
  match j with
  | 0 | 1 | 2 | 3 => simp
  | k + 4 =>
    have hwidth : s.cause.getLsbD k = true → k + 4 < 32 := fun h => by
      have := BitVec.lt_of_getLsbD h; omega
    simpa using hwidth

/-- The bit `ACTIVE`. -/
theorem statusWord_active (s : State) : (statusWord s).getLsbD 0 = true ↔ s.dur ≠ 0 := by
  rw [statusWord_getLsbD, if_pos rfl, active, decide_eq_true_iff]

/-- Settles O13: `step_inv`, by cases on the fault entry and the effects; `DUR` is in its range by its
width. -/
theorem stepKeepsTheInvariant : Obligations.StepKeepsTheInvariant := by
  intro s t h hstep
  exact ⟨step_inv h hstep, Nat.le_pred_of_lt t.dur.isLt, statusWord_active t⟩

/-- Settles O41: each field of `STATUS`, bit by bit. -/
theorem statusFields : Obligations.StatusFields := by
  intro s
  refine ⟨statusWord_active s, statusWord_getLsbD s 1, ?_, ?_, ?_⟩ <;> ext j hj <;>
    rw [BitVec.getElem_extractLsb', statusWord_getLsbD, if_neg (by omega)]
  · -- bits 3:2
    rw [if_neg (by omega), if_pos (by omega)]; exact (BitVec.getElem_zero hj).symm
  · -- bits 7:4
    rw [if_neg (by omega), if_neg (by omega), Nat.add_sub_cancel_left, BitVec.getLsbD_eq_getElem]
  · -- bits 31:8, beyond the width of `CAUSE`
    rw [if_neg (by omega), if_neg (by omega), BitVec.getLsbD_of_ge _ _ (by omega)]
    exact (BitVec.getElem_zero hj).symm

/-! ### Who writes a register (R21 to R24) -/

/-- Settles O42: of the effects only those of the note-setup commands write `FREQ`, and the fault entry does
not. -/
theorem onlyNoteSetupWritesFreq : Obligations.OnlyNoteSetupWritesFreq := by
  intro s t w ws hport hstep hne
  rcases step_effect hport hstep with ⟨c, rfl⟩ | ⟨i, u, v, vs, hdecode, heffect, rfl⟩
  · exact absurd rfl hne
  · refine ⟨?_, ⟨0, v, vs⟩, congrArg (· ++ _) heffect.responses, rfl⟩
    cases heffect with
    | note o l a d => exact .inl ⟨o, l, a, d, hdecode⟩
    | noten n d => exact .inr (.inl ⟨n, d, hdecode⟩)
    | rest d => exact .inr (.inr (.inl ⟨d, hdecode⟩))
    | tone f d => exact .inr (.inr (.inr ⟨f, d, hdecode⟩))
    | fill c => exact absurd (sampleSteps_freq _ _) hne
    | _ => exact absurd rfl hne

/-- Settles O43: of the effects only those of `TONE` and `FILL` write `PHASE`, and `FILL` does not where it
emits nothing or during a rest. -/
theorem onlyToneAndSoundingFillWritePhase : Obligations.OnlyToneAndSoundingFillWritePhase := by
  intro s t w ws hport hstep hne
  rcases step_effect hport hstep with ⟨c, rfl⟩ | ⟨i, u, v, vs, hdecode, heffect, rfl⟩
  · exact absurd rfl hne
  · cases heffect with
    | tone f d => exact .inl ⟨f, d, hdecode, rfl⟩
    | fill c =>
      have hcount : fillCount c (s.setPort ws) ≠ 0 := fun h0 => hne (by rw [h0]; rfl)
      rw [Ne, fillCount_eq_zero_iff, not_or] at hcount
      exact .inr ⟨c, hdecode, hcount.1, hcount.2, fun hrest => hne (sampleSteps_phase_of_rest _ hrest)⟩
    | _ => exact absurd rfl hne

/-- Settles O44: of the effects only that of `CFGSR` writes `SRATE`. -/
theorem onlyCfgsrWritesSrate : Obligations.OnlyCfgsrWritesSrate := by
  intro s t w ws hport hstep hne
  rcases step_effect hport hstep with ⟨c, rfl⟩ | ⟨i, u, v, vs, hdecode, heffect, rfl⟩
  · exact absurd rfl hne
  · cases heffect with
    | cfgsr sr h0 => exact ⟨sr, hdecode, h0, rfl⟩
    | fill c => exact absurd (sampleSteps_srate _ _) hne
    | _ => exact absurd rfl hne

/-- Settles O45: the fault entry clears `DUR`, and each effect writes it as R22 says. -/
theorem writersOfDuration : Obligations.WritersOfDuration := by
  intro s t w ws hport hstep
  rcases step_effect hport hstep with ⟨c, rfl⟩ | ⟨i, u, v, vs, hdecode, heffect, rfl⟩
  · exact ⟨⟨causeCode c, 0, []⟩, rfl, fun _ => rfl, fun h0 => absurd h0 (causeCode_ne_zero c)⟩
  · refine ⟨⟨0, v, vs⟩, congrArg (· ++ _) heffect.responses, absurd rfl, fun _ => ⟨i, hdecode, ?_⟩⟩
    cases heffect with
    | fill c => exact sampleSteps_fillCount_dur c (s.setPort ws)
    | _ => rfl

/-! ### Reset (R31) -/

/-- The tables at reset meet R42, whichever they are: `REF` (20 R44) does. -/
theorem config_tables_admissible : Config.tables.Admissible := by
  unfold Config.tables
  split
  next h => exact h
  next => decide

/-- Settles O10: the reset values, and the tables by `config_tables_admissible`. -/
theorem resetLeavesTheseValues : Obligations.ResetLeavesTheseValues :=
  ⟨rfl, rfl, rfl, rfl, rfl, rfl, rfl, rfl, config_tables_admissible⟩

/-- Settles O12: `+0.0` is a phase, and no fault is recorded. -/
theorem resetMeetsTheInvariant : Obligations.ResetMeetsTheInvariant :=
  ⟨phaseOk_fzero, by decide, iff_of_true rfl rfl, Nat.zero_le 3⟩

end Sys2Proof.Machine
end

section
/-! PROOFS. The port as the point where the command streams of two hosts meet (spec/20_memory.md R52, R53):
every interleaving is executed word by word, in the order of the port. -/

namespace Sys2Proof.Machine

/-! ### No command looks at the words that wait behind it (R17) -/

/-- A sample step neither reads nor writes the port. -/
theorem sampleStep_setPort (s : State) (ws : List CmdWord) :
    sampleStep (s.setPort ws) = (sampleStep s).setPort ws := by
  rcases sampleStep_cases s with ⟨hf, h⟩ | ⟨hf, h⟩ <;> rw [h]
  · exact if_pos hf
  · exact if_neg hf

theorem sampleSteps_setPort (k : Nat) (s : State) (ws : List CmdWord) :
    sampleSteps k (s.setPort ws) = (sampleSteps k s).setPort ws := by
  induction k generalizing s with
  | zero => rfl
  | succ k ih => rw [sampleSteps, sampleStep_setPort, ih, sampleSteps]

/-- `NOTE` whose shifted frequency is in range. -/
theorem execNote_of_some {o : Fin 8} {l : Letter} {a : Accidental} {f : BitVec 16} {s : State}
    (d : BitVec 32) (h : shiftFreq (lookupLetter s.tables o l) a = some f) :
    execNote o l a d s = .next (respond 0 [] (setupNote f d s)) := by
  rw [execNote, h]

/-- `NOTE` whose shifted frequency leaves the range. -/
theorem execNote_of_none {o : Fin 8} {l : Letter} {a : Accidental} {s : State}
    (d : BitVec 32) (h : shiftFreq (lookupLetter s.tables o l) a = none) :
    execNote o l a d s = .next (raiseFault .freqRange s) := by
  rw [execNote, h]

/-- An instruction does the same whatever words wait on the port, and leaves them there. -/
theorem exec_setPort {i : Instr} {s t : State} (ws : List CmdWord) (h : exec i s = .next t) :
    exec i (s.setPort ws) = .next (t.setPort ws) := by
  obtain ⟨sr, rfl, h0, rfl⟩ | ⟨rfl, rfl⟩ | ⟨r, rfl, rfl⟩ | ⟨rfl, rfl⟩ | ⟨o, l, a, d, f, rfl, hf, rfl⟩ |
    ⟨o, l, a, d, rfl, hf, rfl⟩ | ⟨n, d, rfl, rfl⟩ | ⟨d, rfl, rfl⟩ | ⟨f, d, rfl, rfl⟩ | ⟨rfl, rfl⟩ |
    ⟨c, rfl, rfl⟩ := exec_cases h
  · exact if_neg h0 -- `CFGSR`, a rate that is not 0
  · rfl -- `CFGSR 0`
  · rfl -- `RDREG`
  · rfl -- `CLRERR`
  · exact execNote_of_some d hf
  · exact execNote_of_none d hf
  · rfl -- `NOTEN`
  · rfl -- `REST`
  · rfl -- `TONE`
  · rfl -- `CANCEL`
  · -- `FILL` reads `OUT` and `DUR` after its sample steps
    have hcount : fillCount c (s.setPort ws) = fillCount c s := rfl
    rw [exec, execFill, hcount, sampleSteps_setPort]
    rfl

/-- The same of a word, legal or not. -/
theorem execWord_setPort {w : CmdWord} {s t : State} (ws : List CmdWord) (h : execWord w s = .next t) :
    execWord w (s.setPort ws) = .next (t.setPort ws) := by
  cases hdecode : decode w with
  | error c =>
    rw [execWord_of_decode_error hdecode] at h ⊢
    cases h; rfl
  | ok i =>
    rw [execWord_of_decode_ok hdecode] at h ⊢
    exact exec_setPort ws h

/-! ### From the steps of the machine to the words of its port -/

theorem execWords_cons {w : CmdWord} {s u : State} (ws : List CmdWord) (h : execWord w s = .next u) :
    execWords (w :: ws) s = execWords ws u := by
  rw [execWords, h]

/-- A run whose first step goes on is that step and the rest of the run. -/
theorem run_succ_of_step {M : Host.Core} {s u : M.State} (k : Nat) (h : M.step s = .next u) :
    M.run (k + 1) s = M.run k u := by
  rw [Host.Core.run, h]

/-- As many steps as there are words on the port execute them in its order and leave it empty. -/
theorem core_run_of_execWords {es : List CmdWord} {s t : State} (h : execWords es s = .next t) :
    core.run es.length (s.setPort es) = .next (t.setPort []) := by
  induction es generalizing s with
  | nil => cases h; rfl
  | cons w es ih =>
    obtain ⟨u, -, hw, -⟩ := execWord_answeredBy w s
    have hstep : core.step (s.setPort (w :: es)) = .next (u.setPort es) :=
      (step_cons (s.setPort (w :: es)) w es rfl).trans
        (execWord_setPort (s := s) es hw)
    rw [execWords_cons es hw] at h
    exact (run_succ_of_step es.length hstep).trans (ih h)

/-! ### Each response in its place (R52) -/

/-- Response `k` of `rs` is what the word `k` of `es` adds when it is executed after the words before it,
the first of them from `s`. -/
def AnsweredInOrder (es : List CmdWord) (s : State) (rs : List Response) : Prop :=
  ∀ (k : Nat) (w : CmdWord), es[k]? = some w →
    ∃ u v, execWords (es.take k) s = .next u ∧ execWord w u = .next v ∧
      u.responses = s.responses ++ rs.take k ∧ v.responses = s.responses ++ rs.take (k + 1)

/-- One word more at the head of the list, and its response at the head of the responses. -/
theorem AnsweredInOrder.cons {w : CmdWord} {es : List CmdWord} {s u : State} {r : Response}
    {rs : List Response} (h : AnsweredInOrder es u rs) (hw : execWord w s = .next u)
    (hr : u.responses = s.responses ++ [r]) : AnsweredInOrder (w :: es) s (r :: rs) := by
  intro k w' hk
  cases k with
  | zero =>
    cases hk
    exact ⟨s, u, rfl, hw, (List.append_nil _).symm, hr⟩
  | succ k =>
    obtain ⟨u', v, hu', hv, hru, hrv⟩ := h k w' hk
    rw [hr, List.append_assoc] at hru hrv
    exact ⟨u', v, (execWords_cons _ hw).trans hu', hv, hru, hrv⟩

/-- Words executed one after another all end, each with its one response, and leave the port alone. -/
theorem execWords_answeredInOrder (es : List CmdWord) (s : State) :
    ∃ t rs, execWords es s = .next t ∧ t.port = s.port ∧ t.responses = s.responses ++ rs ∧
      rs.length = es.length ∧ AnsweredInOrder es s rs := by
  induction es generalizing s with
  | nil => exact ⟨s, [], rfl, rfl, (List.append_nil _).symm, rfl, nofun⟩
  | cons w es ih =>
    obtain ⟨u, r, hw, hr⟩ := execWord_answeredBy w s
    obtain ⟨t, rs, ht, hport, hrs, hlength, horder⟩ := ih u
    refine ⟨t, r :: rs, (execWords_cons es hw).trans ht, hport.trans hr.port, ?_,
      congrArg (· + 1) hlength, horder.cons hw hr.responses⟩
    rw [hrs, hr.responses, List.append_assoc, List.singleton_append]

/-- An interleaving has every word of both lists. -/
theorem Merge.length_eq {α : Type} {as bs es : List α} (h : Merge as bs es) :
    es.length = as.length + bs.length := by
  induction h with
  | nil => rfl
  | left a as bs es _ ih => simp only [List.length_cons, ih]; omega
  | right b as bs es _ ih => simp only [List.length_cons, ih]; omega

/-- Settles O9: the words of an interleaving are executed in order, whatever waits behind each of them. -/
theorem everyInterleavingIsExecuted : Obligations.EveryInterleavingIsExecuted := by
  intro s as bs es hmerge hport
  obtain ⟨t, rs, ht, htport, hrs, hlength, horder⟩ := execWords_answeredInOrder es (s.setPort [])
  refine ⟨t, ?_, ht, htport, rs, hrs, hlength, horder⟩
  have hrun := core_run_of_execWords ht
  have hs : (s.setPort []).setPort es = s := by subst hport; rfl
  have ht' : t.setPort [] = t := by rw [← show t.port = [] from htport]; rfl
  rw [hs, ht'] at hrun
  rwa [← hmerge.length_eq]

end Sys2Proof.Machine
end

section
/-! PROOFS. The read-only tables (spec/20_memory.md R42, R46): no step changes one, and what the constraint of
R42 (a) means for the notes of octave 4 (40_frequency_lookup.md R82); and what a new request leaves of the
old note (20 R53, 40 R85, R86). -/

namespace Sys2Proof.Machine

/-! ### No step changes a table (R46) -/

/-- No effect changes a table. -/
theorem Effect.tables {s u : State} {i : Instr} (h : Effect s i u) : u.tables = s.tables := by
  cases h with
  | fill c => exact sampleSteps_tables _ s
  | _ => rfl

/-- Settles O14: a step idles, takes the fault entry, or has the effect of an instruction. -/
theorem stepNeverChangesTables : Obligations.StepNeverChangesTables := by
  intro s t hstep
  cases hport : s.port with
  | nil => cases (step_nil s hport).symm.trans hstep; rfl
  | cons w ws =>
    rcases step_effect hport hstep with ⟨c, rfl⟩ | ⟨i, u, v, vs, -, heffect, rfl⟩
    · rfl
    · exact heffect.tables

/-! ### A new request preempts the old note (R53) -/

/-- With nothing owed, `FILL` emits nothing. -/
theorem exec_fill_out_of_dur_zero {c : BitVec 32} {t u : State} (hdur : t.dur = 0)
    (h : exec (.fill c) t = .next u) : u.out = t.out := by
  cases h
  rw [respond_out, (fillCount_eq_zero_iff c t).mpr (.inr hdur), sampleSteps]

/-- Settles O21: `CANCEL` leaves nothing owed, and `TONE` writes all three registers of a note. -/
theorem newRequestPreemptsTheOldNote : Obligations.NewRequestPreemptsTheOldNote := by
  refine ⟨fun s t u c hcancel hfill => ?_, fun s f f' d d' p' => rfl⟩
  cases hcancel
  exact exec_fill_out_of_dur_zero (t := respond 0 [] (s.setDur 0)) rfl hfill

/-! ### The naturals of octave 4 (R42 (a)) -/

/-- R42 (a), by the letter: the frequency of a natural of octave 4 in every admissible table. -/
theorem lookupLetter_four_of_admissible {t : Tables} (h : t.Admissible) (l : Letter) :
    lookupLetter t 4 l = octaveFourNaturals[(letterIndex l).val]'(letterIndex l).isLt := by
  have hentry := List.getElem_of_eq h.1 (i := (letterIndex l).val) (by simp)
  rw [List.getElem_map, Vector.getElem_toList] at hentry
  exact hentry

/-- Settles O22: the lookup by `lookupLetter_four_of_admissible`; each of its seven values is far from both
ends of the range, so that no accidental faults. -/
theorem octaveFourNaturals : Obligations.OctaveFourNaturals := by
  intro s l acc dur h
  refine execNote_of_some dur ?_
  rw [lookupLetter_four_of_admissible h]
  cases l <;> cases acc <;> rfl

end Sys2Proof.Machine
end

section
/-! PROOFS. Words and samples as bytes, least significant first (spec/20_memory.md R47, R48). -/

namespace Sys2Proof.Machine

/-- Byte `k` of a number stands `8 k` bits up. -/
theorem leBytes_eq_map_range (n v : Nat) :
    leBytes n v = (List.range n).map fun k => BitVec.ofNat 8 (v >>> (8 * k)) := by
  induction n generalizing v with
  | zero => rfl
  | succ n ih =>
    have hshift : ∀ k, (v / 2 ^ 8) >>> (8 * k) = v >>> (8 * (k + 1)) := fun k => by
      rw [← Nat.shiftRight_eq_div_pow, ← Nat.shiftRight_add, Nat.mul_add, Nat.add_comm]
    rw [leBytes, ih, List.range_succ_eq_map, List.map_cons, List.map_map]
    simp only [hshift]
    rfl

/-- Byte `k` of a bit vector is its bits `8 k + 7 : 8 k`. -/
theorem leBytes_toNat {m : Nat} (n : Nat) (w : BitVec m) :
    leBytes n w.toNat = (List.range n).map fun k => w.extractLsb' (8 * k) 8 :=
  leBytes_eq_map_range n w.toNat

theorem leBytes_toNat_getElem? {m n k : Nat} (w : BitVec m) (h : k < n) :
    (leBytes n w.toNat)[k]? = some (w.extractLsb' (8 * k) 8) := by
  rw [leBytes_toNat, List.getElem?_map, List.getElem?_range h, Option.map_some]

theorem length_leBytes (n v : Nat) : (leBytes n v).length = n := by
  rw [leBytes_eq_map_range, List.length_map, List.length_range]

/-- The `n` low bytes of a number give the number back, but for what lies above them. -/
theorem leValue_leBytes (n v : Nat) : leValue (leBytes n v) = v % 2 ^ (8 * n) := by
  induction n generalizing v with
  | zero => exact (Nat.mod_one v).symm
  | succ n ih =>
    rw [leBytes, leValue, ih, BitVec.toNat_ofNat, Nat.mul_succ, Nat.add_comm (8 * n), Nat.pow_add,
      Nat.mod_mul]

/-- No bit of a command word is lost. -/
theorem wordOfBytes_wordBytes (w : CmdWord) : wordOfBytes (wordBytes w) = some w := by
  rw [wordOfBytes, wordBytes, length_leBytes, if_pos rfl, leValue_leBytes, Nat.mod_eq_of_lt w.isLt,
    BitVec.ofNat_toNat, BitVec.setWidth_eq]

/-- Settles O49: each byte by `leBytes_toNat`, the way back by `wordOfBytes_wordBytes`. -/
theorem bytesAreLittleEndian : Obligations.BytesAreLittleEndian :=
  ⟨fun w _ hk => leBytes_toNat_getElem? w hk, fun r _ hk => leBytes_toNat_getElem? (responseWord r) hk,
    leBytes_toNat 2, wordOfBytes_wordBytes⟩

end Sys2Proof.Machine
end

section
/-! PROOFS. The encoding (spec/30_encoding.md R60 to R65): decoding and encoding are inverse to each other on
the legal words, and which words are illegal; and the fields of the response word (R69). -/

namespace Sys2Proof

/-! ### Decoding what was encoded (R61, R62) -/

/-- None of the instructions sets a must-be-zero bit of its row (R63). -/
theorem encode_and_mask (i : Instr) : encode i &&& i.op.mask = i.op.pattern := by
  cases i with
  | cfgsr sr => exact Laws.Mask.cfgsr sr
  | rdreg r => exact Laws.Mask.rdreg r
  | clrerr => exact Laws.Mask.clrerr
  | note o l a d => exact Laws.Mask.note o l a d
  | noten n d => exact Laws.Mask.noten n d
  | rest d => exact Laws.Mask.rest d
  | tone f d => exact Laws.Mask.tone f d
  | cancel => exact Laws.Mask.cancel
  | fill c => exact Laws.Mask.fill c

@[simp] theorem noteOperandA_oct (o l : BitVec 3) (a : BitVec 2) :
    (noteOperandA o l a).extractLsb' 8 3 = o := by
  revert o l a; decide

@[simp] theorem noteOperandA_let (o l : BitVec 3) (a : BitVec 2) :
    (noteOperandA o l a).extractLsb' 4 3 = l := by
  revert o l a; decide

@[simp] theorem noteOperandA_acc (o l : BitVec 3) (a : BitVec 2) :
    (noteOperandA o l a).extractLsb' 0 2 = a := by
  revert o l a; decide

/-- The fields of an encoded instruction are its operands. -/
theorem decodeFields_encode {i : Instr} (h : i.wf = true) : decodeFields i.op (encode i) = .ok i := by
  cases i with
  | cfgsr sr =>
    have hrate : sr ≠ 0 := of_decide_eq_true h
    rw [Instr.op, decodeFields, fieldSr_encode, operandA, if_neg hrate]
  | rdreg r => simp [Instr.op, decodeFields, encode, operandA, BitVec.extractLsb'_setWidth_of_le]
  | note o l a d => simp [Instr.op, decodeFields, encode, operandA, operandB]
  | noten n d =>
    simp [Instr.op, decodeFields, encode, operandA, operandB, BitVec.extractLsb'_setWidth_of_le]
  | tone f d =>
    simp [Instr.op, decodeFields, encode, operandA, operandB, BitVec.extractLsb'_setWidth_of_le]
  | rest d => rw [Instr.op, decodeFields, fieldB_encode, operandB]
  | fill c => rw [Instr.op, decodeFields, fieldB_encode, operandB]
  | clrerr | cancel => rfl

/-- Settles O1: an encoded instruction passes the opcode test and the mask test, and its fields are its
operands. -/
theorem decodeOfEncode : Obligations.DecodeOfEncode := by
  intro i hwf
  rw [decode, fieldOp_encode, opOf_byte]
  exact (if_pos (encode_and_mask i)).trans (decodeFields_encode hwf)

/-! ### Encoding what was decoded (R60, R62) -/

theorem letterOf_some {c : BitVec 3} {l : Letter} (h : letterOf c = some l) : letterCode l = c := by
  unfold letterOf at h; split at h <;> cases h <;> rfl

theorem accidentalOf_some {c : BitVec 2} {a : Accidental} (h : accidentalOf c = some a) :
    accidentalCode a = c := by
  unfold accidentalOf at h; split at h <;> cases h <;> rfl

theorem regOf_some {c : BitVec 4} {r : Reg} (h : regOf c = some r) : regCode r = c := by
  unfold regOf at h; split at h <;> cases h <;> rfl

/-- Operand `A` of `NOTE`, bit by bit (R62). -/
theorem noteOperandA_getLsbD (o l : BitVec 3) (a : BitVec 2) (j : Nat) :
    (noteOperandA o l a).getLsbD j =
      if j < 2 then a.getLsbD j else if j < 4 then false else if j < 7 then l.getLsbD (j - 4)
      else if j < 8 then false else if j < 11 then o.getLsbD (j - 8) else false := by
  have h : (noteOperandA o l a).getLsbD j = (0#13 ++ o ++ 0#1 ++ l ++ 0#2 ++ a).getLsbD j := rfl
  simp only [h, BitVec.getLsbD_append, BitVec.getLsbD_zero]
  grind

/-- The three fields of `NOTE` are all of `A` but its must-be-zero bits. -/
theorem noteOperandA_fields (a : BitVec 24) :
    noteOperandA (a.extractLsb' 8 3) (a.extractLsb' 4 3) (a.extractLsb' 0 2) =
      a &&& ~~~Op.note.zeroA := by
  ext j hj
  rw [← BitVec.getLsbD_eq_getElem, noteOperandA_getLsbD]
  interval_cases j <;> simp [Op.zeroA]

/-- A field in the low bits of `A` is all of it but the bits above. -/
theorem setWidth_lowField (a : BitVec 24) (n : Nat) :
    (a.extractLsb' 0 n).setWidth 24 = a &&& ~~~(BitVec.allOnes 24 <<< n) := by
  ext j hj
  simp [hj, -BitVec.reduceAllOnes, Bool.and_comm]

/-- No bit of `A` is left where all of them must be zero. -/
theorem and_not_ones24 (a : BitVec 24) : a &&& ~~~0xFFFFFF#24 = 0 := by simp

/-- No bit of `B` is left where all of them must be zero. -/
theorem and_not_ones32 (b : BitVec 32) : b &&& ~~~0xFFFFFFFF#32 = 0 := by simp

/-- What the field tests of R65 let pass: a well-formed instruction of the opcode, with the operands of the
word but for its must-be-zero bits. -/
theorem decodeFields_ok {op : Op} {c : BitVec 8} {a : BitVec 24} {b : BitVec 32} {i : Instr}
    (h : decodeFields op (wordOf c a b) = .ok i) :
    i.wf = true ∧ i.op = op ∧ operandA i = a &&& ~~~op.zeroA ∧ operandB i = b &&& ~~~op.zeroB := by
  cases op with
  | cfgsr =>
    rw [decodeFields, fieldSr_wordOf] at h
    split at h
    next => cases h
    next hrate =>
      cases h
      exact ⟨decide_eq_true hrate, rfl, BitVec.and_allOnes.symm, (and_not_ones32 b).symm⟩
  | rdreg =>
    rw [decodeFields, fieldReg_wordOf] at h
    split at h
    next r hr =>
      cases h
      refine ⟨rfl, rfl, ?_, (and_not_ones32 b).symm⟩
      rw [operandA, regOf_some hr]; exact setWidth_lowField a 4
    next => cases h
  | note =>
    rw [decodeFields, fieldLet_wordOf, fieldAcc_wordOf, fieldB_wordOf] at h
    split at h
    next l acc hl hacc =>
      cases h
      refine ⟨rfl, rfl, ?_, BitVec.and_allOnes.symm⟩
      rw [operandA, letterOf_some hl, accidentalOf_some hacc, BitVec.ofNat_toNat, BitVec.setWidth_eq,
        fieldOct_wordOf]
      exact noteOperandA_fields a
    next => cases h
  | noten | tone =>
    rw [decodeFields, fieldHalf_wordOf, fieldB_wordOf] at h
    cases h
    exact ⟨rfl, rfl, setWidth_lowField a 16, BitVec.and_allOnes.symm⟩
  | rest | fill =>
    rw [decodeFields, fieldB_wordOf] at h
    cases h
    exact ⟨rfl, rfl, (and_not_ones24 a).symm, BitVec.and_allOnes.symm⟩
  | clrerr | cancel =>
    cases h
    exact ⟨rfl, rfl, (and_not_ones24 a).symm, (and_not_ones32 b).symm⟩

/-- A value without any bit of a mask is unchanged by clearing the mask. -/
theorem and_compl_of_and_eq_zero {n : Nat} {x m : BitVec n} (h : x &&& m = 0) : x &&& ~~~m = x :=
  calc x &&& ~~~m = (x &&& m) ||| (x &&& ~~~m) := by rw [h]; exact BitVec.zero_or.symm
    _ = x := by rw [← BitVec.and_or_distrib_left, BitVec.or_not_self, BitVec.and_allOnes]

/-- Settles O2: the word is put together from its fields; the masks leave nothing of `A` and `B` but the
operands of the instruction. -/
theorem encodeOfDecode : Obligations.EncodeOfDecode := by
  intro w i h
  cases hop : opOf (fieldOp w) with
  | none => cases (decode_unassigned w hop).symm.trans h
  | some op =>
    rw [← wordOf_fields w, opOf_some hop, decode_wordOf] at h
    split at h
    next hzero =>
      obtain ⟨hwf, hiop, ha, hb⟩ := decodeFields_ok h
      refine ⟨hwf, ?_⟩
      rw [encode, hiop, ha, hb, and_compl_of_and_eq_zero hzero.1, and_compl_of_and_eq_zero hzero.2,
        ← opOf_some hop, wordOf_fields]
    next => cases h

/-! ### The illegal words (R64, R65) -/

/-- Which bytes are none of the nine opcodes (R64 (a)). -/
theorem opOf_eq_none_iff (b : BitVec 8) :
    opOf b = none ↔ ¬ (b = 0x01 ∨ b = 0x02 ∨ b = 0x03 ∨ b = 0x10 ∨ b = 0x11 ∨ b = 0x12 ∨ b = 0x13 ∨
      b = 0x14 ∨ b = 0x20) := by
  revert b; decide

/-- R64 (c): the field values that are illegal for an opcode. -/
def BadField (op : Op) (w : CmdWord) : Prop :=
  match op with
  | .cfgsr => fieldSr w = 0
  | .rdreg => 6 ≤ (fieldReg w).toNat
  | .note => fieldLet w = 7 ∨ fieldAcc w = 3
  | _ => False

theorem regOf_eq_none_iff (c : BitVec 4) : regOf c = none ↔ 6 ≤ c.toNat := by
  revert c; decide

theorem letterOf_eq_none_iff (c : BitVec 3) : letterOf c = none ↔ c = 7 := by
  revert c; decide

theorem accidentalOf_eq_none_iff (c : BitVec 2) : accidentalOf c = none ↔ c = 3 := by
  revert c; decide

/-- The third test of R65 raises `ILLEGAL_OPERAND` on an illegal field value, and nothing else. -/
theorem decodeFields_error_iff (op : Op) (w : CmdWord) (c : Cause) :
    decodeFields op w = .error c ↔ c = .illegalOperand ∧ BadField op w := by
  cases op with
  | cfgsr =>
    rw [decodeFields, BadField]
    split
    next hrate => simp [hrate, eq_comm (b := c)]
    next hrate => exact iff_of_false nofun fun h => hrate h.2
  | rdreg =>
    rw [decodeFields, BadField, ← regOf_eq_none_iff]
    split <;> simp [*, eq_comm (b := c)]
  | note =>
    rw [decodeFields, BadField, ← letterOf_eq_none_iff, ← accidentalOf_eq_none_iff]
    cases letterOf (fieldLet w) <;> cases accidentalOf (fieldAcc w) <;> simp [eq_comm (b := c)]
  | clrerr | noten | rest | tone | cancel | fill =>
    exact iff_of_false nofun And.right

/-- The must-be-zero bits of an opcode in the whole word: its mask of R63 without `OP`. -/
def Op.zeroBits : Op → CmdWord
  | .cfgsr => 0x00000000FFFFFFFF
  | .rdreg => 0x00FFFFF0FFFFFFFF
  | .clrerr => 0x00FFFFFFFFFFFFFF
  | .note => 0x00FFF88C00000000
  | .noten => 0x00FF000000000000
  | .rest => 0x00FFFFFF00000000
  | .tone => 0x00FF000000000000
  | .cancel => 0x00FFFFFFFFFFFFFF
  | .fill => 0x00FFFFFF00000000

theorem Op.zeroBits_eq (op : Op) : op.zeroBits = wordOf 0 op.zeroA op.zeroB := by cases op <;> decide

/-- A word sets no must-be-zero bit exactly when its operands `A` and `B` set none. -/
theorem and_zeroBits_eq_zero_iff (w : CmdWord) (op : Op) :
    w &&& op.zeroBits = 0 ↔ fieldSr w &&& op.zeroA = 0 ∧ fieldB w &&& op.zeroB = 0 :=
  calc w &&& op.zeroBits = 0
    _ ↔ wordOf (fieldOp w &&& 0) (fieldSr w &&& op.zeroA) (fieldB w &&& op.zeroB) = wordOf 0 0 0 := by
      rw [← wordOf_and, wordOf_fields, ← op.zeroBits_eq]; rfl
    _ ↔ _ := by rw [wordOf_inj]; exact and_iff_right BitVec.and_zero

/-- R65 on a word of an assigned opcode: the must-be-zero bits, then the field values. -/
theorem decode_of_opOf {w : CmdWord} {op : Op} (h : opOf (fieldOp w) = some op) :
    decode w = if w &&& op.zeroBits = 0 then decodeFields op w else .error .illegalOperand := by
  simp only [and_zeroBits_eq_zero_iff]
  have hdecode := decode_wordOf op (fieldSr w) (fieldB w)
  rwa [← opOf_some h, wordOf_fields] at hdecode

/-- R64: the fault of a word, by its opcode, its must-be-zero bits and its fields. -/
theorem decode_error_iff (w : CmdWord) (c : Cause) :
    decode w = .error c ↔
      (c = .illegalOpcode ∧ opOf (fieldOp w) = none) ∨
      (c = .illegalOperand ∧ ∃ op : Op, opOf (fieldOp w) = some op ∧
        (w &&& op.zeroBits ≠ 0 ∨ BadField op w)) := by
  cases hop : opOf (fieldOp w) with
  | none => simp [decode_unassigned w hop, eq_comm (b := c)]
  | some op =>
    rw [decode_of_opOf hop]
    split
    next hzero => simp [hzero, decodeFields_error_iff]
    next hbits =>
      have hbits : w &&& op.zeroBits ≠ 0#64 := hbits
      simp [hbits, eq_comm (b := c)]

/-- The opcode of a byte, as an equation between bytes. -/
theorem opOf_eq_some_iff (b : BitVec 8) (op : Op) : opOf b = some op ↔ b = op.byte :=
  ⟨opOf_some, fun h => h ▸ opOf_byte op⟩

/-- The nine rows of the opcode map, in its order. -/
theorem Op.exists_iff {p : Op → Prop} :
    (∃ op, p op) ↔ p .cfgsr ∨ p .rdreg ∨ p .clrerr ∨ p .note ∨ p .noten ∨ p .rest ∨ p .tone ∨ p .cancel ∨
      p .fill := by
  constructor
  · rintro ⟨op, h⟩
    cases op <;> simp [h]
  · rintro (h | h | h | h | h | h | h | h | h) <;> exact ⟨_, h⟩

/-- Settles O3: `decode_error_iff`, written out along the rows of the opcode map. -/
theorem illegalWordsAreExactly : Obligations.IllegalWordsAreExactly := by
  intro w op
  refine ⟨?_, ?_, ?_⟩
  · rw [← opOf_eq_none_iff, decode_error_iff]
    simp [op, fieldOp]
  · rw [decode_error_iff]
    simp [opOf_eq_some_iff, Op.exists_iff, Op.byte, Op.zeroBits, BadField, op, fieldOp, fieldSr, fieldReg,
      fieldLet, fieldAcc]
  · rw [Ne, decode_error_iff]
    rintro (⟨h, -⟩ | ⟨h, -⟩) <;> cases h

end Sys2Proof

namespace Sys2Proof.Machine

/-! ### The response word (R69) -/

/-- Settles O48: the word is its three fields put together. -/
theorem responseWordLayout : Obligations.ResponseWordLayout := by
  intro r
  refine ⟨?_, ?_, BitVec.extractLsb'_append_eq_right, rfl⟩
  · -- `fault`
    calc (responseWord r).extractLsb' 60 4 = (r.fault ++ 0#28).extractLsb' 28 4 :=
          BitVec.extractLsb'_append_eq_of_le (by decide)
      _ = r.fault := BitVec.extractLsb'_append_eq_left
  · -- the zeros
    calc (responseWord r).extractLsb' 32 28 = (r.fault ++ 0#28).extractLsb' 0 28 :=
          BitVec.extractLsb'_append_eq_of_le (by decide)
      _ = 0 := BitVec.extractLsb'_append_eq_right

end Sys2Proof.Machine
end

section
/-! PROOFS. Note setup (spec/40_frequency_lookup.md R80 to R87): for each of `NOTE`, `NOTEN`, `REST`, `TONE` and
`CANCEL`, which words stand for it, what it writes and what it leaves. -/

namespace Sys2Proof

/-! ### The words of the note-setup commands (R82 to R86) -/

/-- R65 for an opcode that takes all of `B` as an operand: only `A` has must-be-zero bits. -/
theorem decode_wordOf_of_zeroB {op : Op} (h : op.zeroB = 0) (a : BitVec 24) (b : BitVec 32) :
    decode (wordOf op.byte a b) =
      if a &&& op.zeroA = 0 then decodeFields op (wordOf op.byte a b) else .error .illegalOperand := by
  have hb : b &&& op.zeroB = 0 := by rw [h]; exact BitVec.and_zero
  simp only [decode_wordOf, hb, and_true]

/-- A word of the opcode of `NOTE` that passes both tests of R65. -/
theorem decode_note_legal {a : BitVec 24} {l : Letter} {acc : Accidental} (hzero : a &&& Op.note.zeroA = 0)
    (hlet : a.extractLsb' 4 3 = letterCode l) (hacc : a.extractLsb' 0 2 = accidentalCode acc)
    (b : BitVec 32) :
    decode (wordOf Op.note.byte a b) = .ok (.note (Fin.ofNat 8 (a.extractLsb' 8 3).toNat) l acc b) := by
  rw [decode_wordOf_of_zeroB rfl, if_pos hzero, decodeFields, fieldLet_wordOf, fieldAcc_wordOf,
    fieldB_wordOf, hlet, hacc, letterOf_code, accidentalOf_code]
  simp [Fin.ext_iff]

/-- A word of the opcode of `NOTE` that fails one of the tests of R65. -/
theorem decode_note_illegal {a : BitVec 24}
    (h : a &&& Op.note.zeroA ≠ 0 ∨ a.extractLsb' 4 3 = 7 ∨ a.extractLsb' 0 2 = 3) (b : BitVec 32) :
    decode (wordOf Op.note.byte a b) = .error .illegalOperand := by
  rw [decode_wordOf_of_zeroB rfl]
  split
  next hzero =>
    refine (decodeFields_error_iff .note _ _).mpr ⟨rfl, ?_⟩
    rw [BadField, fieldLet_wordOf, fieldAcc_wordOf]
    exact h.resolve_left (not_not_intro hzero)
  next => rfl

/-- The operands of `NOTEN`. -/
theorem decodeFields_noten_wordOf (c : BitVec 8) (a : BitVec 24) (b : BitVec 32) :
    decodeFields .noten (wordOf c a b) = .ok (.noten (a.extractLsb' 0 16) b) := by
  rw [decodeFields, fieldHalf_wordOf, fieldB_wordOf]

/-- The operands of `TONE`. -/
theorem decodeFields_tone_wordOf (c : BitVec 8) (a : BitVec 24) (b : BitVec 32) :
    decodeFields .tone (wordOf c a b) = .ok (.tone (a.extractLsb' 0 16) b) := by
  rw [decodeFields, fieldHalf_wordOf, fieldB_wordOf]

/-- The operand of `REST`. -/
theorem decodeFields_rest_wordOf (c : BitVec 8) (a : BitVec 24) (b : BitVec 32) :
    decodeFields .rest (wordOf c a b) = .ok (.rest b) := by
  rw [decodeFields, fieldB_wordOf]

end Sys2Proof

namespace Sys2Proof.Machine

/-! ### The unit shift of `NOTE` (R82, R87) -/

/-- R82: what an accidental adds, in units of 1 Hz; "not a semitone shift". -/
def accidentalShift : Accidental → Int
  | .none => 0
  | .plus => 1
  | .minus => -1

theorem rangeCheck_of_mem {f : Int} (h : 0 ≤ f ∧ f ≤ 65535) : rangeCheck f = some (BitVec.ofInt 16 f) :=
  if_neg (by omega)

theorem rangeCheck_eq_none_iff (f : Int) : rangeCheck f = none ↔ f < 0 ∨ 65535 < f := by
  unfold rangeCheck; split <;> simp [*]

/-- Every accidental, none too, is a shift and the range check: an entry of `FTAB` as it stands passes. -/
theorem shiftFreq_eq_rangeCheck (f0 : BitVec 16) (acc : Accidental) :
    shiftFreq f0 acc = rangeCheck (f0.toNat + accidentalShift acc) := by
  cases acc with
  | none =>
    have := f0.isLt
    rw [accidentalShift, Int.add_zero, rangeCheck_of_mem (by omega), BitVec.ofInt_natCast,
      BitVec.ofNat_toNat, BitVec.setWidth_eq, shiftFreq]
  | plus => rfl
  | minus => rfl

/-- R82: the two cases of `FREQ_RANGE`. -/
theorem shiftFreq_eq_none_iff (f0 : BitVec 16) (acc : Accidental) :
    shiftFreq f0 acc = none ↔ (acc = .minus ∧ f0 = 0) ∨ (acc = .plus ∧ f0 = 65535) := by
  rw [shiftFreq_eq_rangeCheck, rangeCheck_eq_none_iff]
  have := f0.isLt
  cases acc <;> simp only [accidentalShift, reduceCtorEq, false_and, true_and, or_false, false_or]
  case none => exact iff_of_false (by omega) not_false
  case plus => bv_omega
  case minus => bv_omega

/-! ### The clamp of `NOTEN` (R83, R87) -/

/-- `clamp` (00 R13), its bounds in order. -/
theorem clamp_eq_max_min {lo hi : Int} (h : lo ≤ hi) (v : Int) : clamp v lo hi = max lo (min hi v) := by
  unfold clamp; split
  · omega
  · split <;> omega

/-- R83: the note number is the signed operand, clamped. -/
theorem noteNumber_eq (n : BitVec 16) : (noteNumber n : Int) = max 0 (min 84 n.toInt) := by
  rw [noteNumber, clamp_eq_max_min (by decide), Int.toNat_of_nonneg (le_max_left _ _)]

/-! ### The commands -/

/-- Settles O15: the words by the tests of R65; the effect by the range check that every accidental comes
down to. -/
theorem noteLooksUpByLetter : Obligations.NoteLooksUpByLetter := by
  constructor
  · intro a b l acc
    exact ⟨fun ⟨hzero, hlet, hacc⟩ => decode_note_legal hzero hlet hacc b, fun h => decode_note_illegal h b⟩
  · intro s oct l acc dur f0 f
    have hf : f = f0 + accidentalShift acc := by
      cases acc with
      | none => exact (Int.add_zero f0).symm
      | plus => rfl
      | minus => rfl
    have hshift : shiftFreq (lookupLetter s.tables oct l) acc = rangeCheck f :=
      hf ▸ shiftFreq_eq_rangeCheck _ acc
    exact ⟨fun hin => execNote_of_some dur (hshift.trans (rangeCheck_of_mem hin)),
      fun hout => execNote_of_none dur (hshift.trans ((rangeCheck_eq_none_iff f).mpr hout))⟩

/-- Settles O16: the given `c` is the note number of the model, by which `NOTEN` looks up. -/
theorem notenLooksUpByNumber : Obligations.NotenLooksUpByNumber := by
  constructor
  · intro a b
    rw [← decodeFields_noten_wordOf Op.noten.byte]
    exact decode_wordOf_of_zeroB (op := .noten) rfl a b
  · intro s n dur c hc
    obtain rfl : noteNumber n = c := Int.ofNat_inj.mp ((noteNumber_eq n).trans hc.symm)
    rfl

/-- Settles O17: all of `A` must be zero, and the effect is a note setup with `FREQ` 0. -/
theorem restSetsSilence : Obligations.RestSetsSilence := by
  constructor
  · intro a b
    have hA : a &&& Op.rest.zeroA = a := and_ones24 a
    have h := decode_wordOf_of_zeroB (op := .rest) rfl a b
    simp only [hA, decodeFields_rest_wordOf] at h
    exact h
  · intro s dur
    rfl

/-- Settles O18: `A[23:16]` must be zero, and the effect is a note setup that also writes `PHASE`. -/
theorem toneSetsFrequencyAndPhase : Obligations.ToneSetsFrequencyAndPhase := by
  constructor
  · intro a b
    rw [← decodeFields_tone_wordOf Op.tone.byte]
    exact decode_wordOf_of_zeroB (op := .tone) rfl a b
  · intro s f dur
    rfl

/-- Settles O19: all of `A` and `B` must be zero, and the effect is one write of `DUR`. -/
theorem cancelTruncatesTheNote : Obligations.CancelTruncatesTheNote := by
  constructor
  · intro a b
    have hA : a &&& Op.cancel.zeroA = a := and_ones24 a
    have hB : b &&& Op.cancel.zeroB = b := and_ones32 b
    have h := decode_wordOf .cancel a b
    simp only [hA, hB] at h
    exact h
  · intro s
    rfl

/-- Settles O20: the lookups read the tables, never `FREQ` or `DUR`, and a note setup writes both. -/
theorem noteSetupDiscardsTheOldNote : Obligations.NoteSetupDiscardsTheOldNote := by
  rintro s f' d' i (⟨o, l, a, d, rfl, hminus, hplus⟩ | ⟨n, d, rfl⟩ | ⟨d, rfl⟩ | ⟨f, d, rfl⟩)
  · -- `NOTE`, in range
    have hrange : shiftFreq (lookupLetter s.tables o l) a ≠ none := fun h =>
      ((shiftFreq_eq_none_iff _ _).mp h).elim hminus hplus
    obtain ⟨f, hf⟩ := Option.ne_none_iff_exists'.mp hrange
    exact (execNote_of_some (s := { s with freq := f', dur := d' }) d hf).trans
      (execNote_of_some d hf).symm
  · rfl -- `NOTEN`
  · rfl -- `REST`
  · rfl -- `TONE`

end Sys2Proof.Machine
end

section
/-! PROOFS. Binary32 values as rational numbers (spec/41_oscillator.md R100, R101): every operation returns the
value its exact result rounds to, and what follows from that alone about the size of the result. -/

namespace Sys2Proof.Machine

/-! ### The value of an encoding (R100) -/

/-- The factor a sign bit stands for. -/
def signFactor (neg : Bool) : ℚ := if neg then -1 else 1

theorem signFactor_xor (a b : Bool) : signFactor (a ^^ b) = signFactor a * signFactor b := by
  cases a <;> cases b <;> simp [signFactor]

theorem signFactor_div (a b : Bool) : signFactor a / signFactor b = signFactor a * signFactor b := by
  cases b <;> simp [signFactor, div_neg]

theorem signFactor_not (a : Bool) : signFactor (!a) = -signFactor a := by
  cases a <;> simp [signFactor]

theorem abs_signFactor (a : Bool) : |signFactor a| = 1 := by
  cases a <;> simp [signFactor]

theorem unitsPerOne_pos : (0 : ℚ) < unitsPerOne := by norm_num [unitsPerOne]

theorem fvalue_of_funits {x : F32} {u : Int} (h : funits x = some u) :
    fvalue x = (u : ℚ) / unitsPerOne := by
  rw [fvalue, h]

/-- A finite value is its sign and its magnitude. -/
theorem fvalue_of_finite {x : F32} (h : ffinite x = true) :
    fvalue x = signFactor (fsign x) * (fmag x / unitsPerOne) := by
  rw [fvalue_of_funits (funits_of_finite h)]
  cases fsign x <;> simp [signFactor, neg_div]

theorem fvalue_of_nonneg {x : F32} (h : FNonneg x) : fvalue x = (fmag x : ℚ) / unitsPerOne := by
  rw [fvalue_of_funits (funits_of_nonneg h)]; rfl

theorem fvalue_fzero : fvalue fzero = 0 := by decide +kernel

/-- The largest finite value, in units. -/
theorem fvalue_fmax : fvalue fmax = (magOf (infCode - 1) : ℚ) / unitsPerOne :=
  fvalue_of_nonneg (by decide)

/-- A value that is not negative is its magnitude. -/
theorem FNonneg.ext {a b : F32} (ha : FNonneg a) (hb : FNonneg b) (h : fmag a = fmag b) : a = b := by
  have hcode : fcode a = fcode b := magOf_strictMono.injective h
  have hmsb (x : F32) (hx : FNonneg x) : x.toNat = fcode x := by
    have := BitVec.msb_eq_false_iff_two_mul_lt.mp hx.2
    unfold fcode; omega
  exact BitVec.eq_of_toNat_eq (by rw [hmsb a ha, hmsb b hb, hcode])

/-- The sign bit flipped: the same magnitude. -/
theorem fcode_fneg (x : F32) : fcode (fneg x) = fcode x := by
  have h : (0x80000000 : F32).toNat % 2 ^ 31 = 0 := rfl
  rw [fcode, fneg, BitVec.toNat_xor, Nat.xor_mod_two_pow, h, Nat.xor_zero, fcode]

theorem fsign_fneg (x : F32) : fsign (fneg x) = !fsign x := by
  have h : (0x80000000 : F32).msb = true := rfl
  rw [fsign, fneg, BitVec.msb_xor, h, Bool.xor_true, fsign]

theorem ffinite_fneg (x : F32) : ffinite (fneg x) = ffinite x := by
  rw [ffinite, fcode_fneg, ffinite]

theorem fvalue_fneg {x : F32} (h : ffinite x = true) : fvalue (fneg x) = -fvalue x := by
  rw [fvalue_of_finite h, fvalue_of_finite ((ffinite_fneg x).trans h), fsign_fneg, fmag, fcode_fneg, fmag]
  cases fsign x <;> simp [signFactor]

/-! ### A rounded magnitude is nearest, ties to even (R100) -/

section
variable {n d : Nat} (hd : 0 < d) (hfin : roundMag n d < infCode)
include hd hfin

/-- `roundMag_nearest`, on rational numbers. -/
theorem roundMag_nearest_nonneg (m : Nat) :
    |(magOf (roundMag n d) : ℚ) - n / d| ≤ |(magOf m : ℚ) - n / d| ∧
      (|(magOf (roundMag n d) : ℚ) - n / d| = |(magOf m : ℚ) - n / d| →
        (magOf m : ℚ) ≠ magOf (roundMag n d) → roundMag n d % 2 = 0) := by
  have hd' : (0 : ℚ) < d := by exact_mod_cast hd
  have hdist (a : Nat) : |(a : ℚ) - n / d| = (((a * d : Int) - n).natAbs : ℚ) / d := by
    rw [Nat.cast_natAbs, eq_div_iff hd'.ne', ← abs_of_pos hd', ← abs_mul, abs_of_pos hd', sub_mul,
      div_mul_cancel₀ _ hd'.ne']
    push_cast; rfl
  obtain ⟨hle, heven⟩ := roundMag_nearest n d hd hfin m
  rw [hdist, hdist]
  refine ⟨?_, fun heq hne => heven ?_ fun hm => hne (by rw [hm])⟩
  · gcongr
  · exact_mod_cast (div_left_inj' hd'.ne').mp heq

/-- A value of the other sign is no nearer than zero. -/
theorem roundMag_nearest_neg (m : Nat) :
    |(magOf (roundMag n d) : ℚ) - n / d| ≤ |-(magOf m : ℚ) - n / d| ∧
      (|(magOf (roundMag n d) : ℚ) - n / d| = |-(magOf m : ℚ) - n / d| →
        -(magOf m : ℚ) ≠ magOf (roundMag n d) → roundMag n d % 2 = 0) := by
  obtain ⟨hle, heven⟩ := roundMag_nearest_nonneg hd hfin 0
  have hx : (0 : ℚ) ≤ n / d := by positivity
  have hm : (0 : ℚ) ≤ magOf m := by positivity
  have hzero : |((magOf 0 : Nat) : ℚ) - n / d| = n / d := by simp [abs_of_nonneg hx]
  have hneg : |-(magOf m : ℚ) - n / d| = magOf m + n / d := by
    rw [← neg_add', abs_neg, abs_of_nonneg (by positivity)]
  rw [hzero] at hle heven
  rw [hneg]
  refine ⟨by linarith, fun heq hne => heven (by linarith) ?_⟩
  have h0 : (magOf m : ℚ) = 0 := by linarith
  simpa [h0] using hne

end

/-- The parity of an encoding is that of its magnitude. -/
theorem fpack_toNat_mod_two (neg : Bool) (n d : Nat) : (fpack neg n d).toNat % 2 = roundMag n d % 2 := by
  rw [fpack, BitVec.toNat_ofNat]
  cases neg <;> simp; omega

/-- A packed value is what its exact value rounds to, unless that is beyond the largest finite value. -/
theorem roundsTo_fpack (neg : Bool) {n d : Nat} (hd : 0 < d) (h : n ≤ magOf (infCode - 1) * d) :
    RoundsTo (signFactor neg * (n / d / unitsPerOne)) (fpack neg n d) := by
  have hfin : roundMag n d < infCode := (roundMag_le hd h).trans_lt (by decide)
  have hr : ffinite (fpack neg n d) = true := by rw [ffinite_fpack]; exact decide_eq_true hfin
  have hU := unitsPerOne_pos
  have hdist (v : ℚ) : |signFactor neg * (v / unitsPerOne) - signFactor neg * (n / d / unitsPerOne)| =
      |v - n / d| / unitsPerOne := by
    rw [← mul_sub, abs_mul, abs_signFactor, one_mul, ← sub_div, abs_div, abs_of_pos hU]
  have hvalue : fvalue (fpack neg n d) = signFactor neg * (magOf (roundMag n d) / unitsPerOne) := by
    rw [fvalue_of_finite hr, fsign_fpack, fmag_fpack]
  refine ⟨hr, fun c hc => ?_⟩
  obtain ⟨v, hv, hnear, heven⟩ : ∃ v : ℚ, fvalue c = signFactor neg * (v / unitsPerOne) ∧
      |(magOf (roundMag n d) : ℚ) - n / d| ≤ |v - n / d| ∧
      (|(magOf (roundMag n d) : ℚ) - n / d| = |v - n / d| →
        v ≠ magOf (roundMag n d) → roundMag n d % 2 = 0) := by
    by_cases hsign : fsign c = neg
    · exact ⟨fmag c, by rw [fvalue_of_finite hc, hsign], roundMag_nearest_nonneg hd hfin _⟩
    · refine ⟨-fmag c, ?_, roundMag_nearest_neg hd hfin _⟩
      rw [fvalue_of_finite hc, Bool.eq_not.mpr hsign, signFactor_not]; ring
  rw [hvalue, hv, hdist, hdist, fpack_toNat_mod_two]
  exact ⟨by gcongr, fun heq hne => heven ((div_left_inj' hU.ne').mp heq) fun h => hne (by rw [h])⟩

/-! ### The operations (R100) -/

/-- A magnitude that is not beyond the largest finite value, in units. -/
theorem le_fmax_units {n d : Nat} (hd : 0 < d) (h : (n : ℚ) / d / unitsPerOne ≤ fvalue fmax) :
    n ≤ magOf (infCode - 1) * d := by
  rw [fvalue_fmax, div_le_div_iff_of_pos_right unitsPerOne_pos, div_le_iff₀ (by exact_mod_cast hd)] at h
  exact_mod_cast h

/-- `roundsTo_fpack`, with the bound on the value itself. -/
theorem roundsTo_fpack_of_abs_le {x : ℚ} {neg : Bool} {n d : Nat} (hd : 0 < d)
    (hx : x = signFactor neg * (n / d / unitsPerOne)) (h : |x| ≤ fvalue fmax) :
    RoundsTo x (fpack neg n d) := by
  have hpos : (0 : ℚ) ≤ n / d / unitsPerOne := by positivity
  rw [hx, abs_mul, abs_signFactor, one_mul, abs_of_nonneg hpos] at h
  rw [hx]
  exact roundsTo_fpack neg hd (le_fmax_units hd h)

/-- A whole number of units is rounded once. -/
theorem roundsTo_fround (u : Int) (z : Bool) (h : |(u : ℚ) / unitsPerOne| ≤ fvalue fmax) :
    RoundsTo ((u : ℚ) / unitsPerOne) (fround u z) := by
  unfold fround
  split
  next h0 => exact roundsTo_fpack_of_abs_le one_pos (by simp [h0]) h
  next =>
    refine roundsTo_fpack_of_abs_le one_pos ?_ h
    rw [Nat.cast_one, div_one, ← mul_div_assoc, Nat.cast_natAbs]
    congr 1
    rcases lt_or_ge u 0 with hneg | hpos
    · simp [signFactor, hneg, abs_of_neg hneg]
    · simp [signFactor, hpos.not_gt, abs_of_nonneg hpos]

section
variable {a b : F32} (ha : ffinite a = true) (hb : ffinite b = true)
include ha hb

theorem roundsTo_fadd (h : |fvalue a + fvalue b| ≤ fvalue fmax) :
    RoundsTo (fvalue a + fvalue b) (fadd a b) := by
  have hua := funits_of_finite ha
  have hub := funits_of_finite hb
  rw [fvalue_of_funits hua, fvalue_of_funits hub, ← add_div, ← Int.cast_add] at h ⊢
  rw [fadd, hua, hub]
  exact roundsTo_fround _ _ h

theorem roundsTo_fsub (h : |fvalue a - fvalue b| ≤ fvalue fmax) :
    RoundsTo (fvalue a - fvalue b) (fsub a b) := by
  rw [sub_eq_add_neg, ← fvalue_fneg hb] at h ⊢
  exact roundsTo_fadd ha ((ffinite_fneg b).trans hb) h

theorem roundsTo_fmul (h : |fvalue a * fvalue b| ≤ fvalue fmax) :
    RoundsTo (fvalue a * fvalue b) (fmul a b) := by
  rw [fmul, if_pos ⟨ha, hb⟩]
  refine roundsTo_fpack_of_abs_le (by decide) ?_ h
  rw [fvalue_of_finite ha, fvalue_of_finite hb, signFactor_xor]
  push_cast; ring

theorem roundsTo_fdiv (h0 : fvalue b ≠ 0) (h : |fvalue a / fvalue b| ≤ fvalue fmax) :
    RoundsTo (fvalue a / fvalue b) (fdiv a b) := by
  have hb0 : fmag b ≠ 0 := fun h => h0 (by rw [fvalue_of_finite hb, h]; simp)
  rw [fdiv, if_pos ⟨ha, hb, hb0⟩]
  refine roundsTo_fpack_of_abs_le (by omega) ?_ h
  have hU := unitsPerOne_pos.ne'
  rw [fvalue_of_finite ha, fvalue_of_finite hb, signFactor_xor, mul_div_mul_comm, signFactor_div,
    div_div_div_cancel_right₀ hU]
  push_cast
  rw [div_right_comm, mul_div_cancel_right₀ _ hU]

end

/-- Settles O28: each operation packs its exact result. -/
theorem floatOpsRoundToNearestEven : Obligations.FloatOpsRoundToNearestEven := fun _ _ ha hb =>
  ⟨roundsTo_fadd ha hb, roundsTo_fsub ha hb, roundsTo_fmul ha hb, roundsTo_fdiv ha hb⟩

/-! ### The conversions (R101, 00 R14) -/

theorem fvalue_cvt {n : Int} (h : n.natAbs < 2 ^ 24) : fvalue (cvt n) = n := by
  rw [fvalue_of_funits (funits_cvt n h), Int.cast_mul, Int.cast_natCast,
    mul_div_cancel_right₀ _ unitsPerOne_pos.ne']

/-- `cvt` of a natural number (R101). -/
theorem fvalue_cvt_natCast {n : Nat} (h : n < 2 ^ 24) : fvalue (cvt n) = n :=
  fvalue_cvt (by omega)

theorem ffinite_cvt {n : Int} (h : n.natAbs < 2 ^ 24) : ffinite (cvt n) = true :=
  ffinite_of_funits (funits_cvt n h)

theorem ffloor_eq_floor {p : F32} (h : ffinite p = true) : ffloor p = ⌊fvalue p⌋ := by
  have hu := funits_of_finite h
  rw [ffloor, hu, fvalue_of_funits hu, Rat.floor_intCast_div_natCast]

/-- Rounding toward zero is the floor of a value that is not negative, and the ceiling of a negative one. -/
theorem ftrunc_eq {v : F32} (h : ffinite v = true) :
    ftrunc v = if 0 ≤ fvalue v then ⌊fvalue v⌋ else ⌈fvalue v⌉ := by
  have hu := funits_of_finite h
  have hU := unitsPerOne_pos
  rw [ftrunc, hu, fvalue_of_funits hu]
  generalize (if fsign v then -(fmag v : Int) else fmag v) = u
  rw [Rat.floor_intCast_div_natCast, Rat.ceil_intCast_div_natCast]
  dsimp only
  split
  next hpos =>
    rw [le_div_iff₀ hU, zero_mul] at hpos
    exact Int.tdiv_eq_ediv_of_nonneg (by exact_mod_cast hpos)
  next hneg =>
    rw [not_le, div_lt_iff₀ hU, zero_mul] at hneg
    have hu0 : u < 0 := by exact_mod_cast hneg
    rw [← Int.tdiv_eq_ediv_of_nonneg (by omega), Int.neg_tdiv, neg_neg]

/-- Settles O29: exact below 2^24 by `funits_cvt`; the floor and the truncation by those of whole units. -/
theorem conversionsAreExact : Obligations.ConversionsAreExact :=
  ⟨fun _ h => ⟨ffinite_cvt h, fvalue_cvt h⟩, fun _ h => ⟨ffloor_eq_floor h, ftrunc_eq h⟩⟩

/-! ### What rounding cannot do (R100) -/

/-- A representable magnitude, packed. -/
theorem fpack_exact {r : Nat} (h : r < infCode) :
    FNonneg (fpack false (magOf r) 1) ∧ fmag (fpack false (magOf r) 1) = magOf r := by
  have hround : roundMag (magOf r) 1 = r := roundMag_exact one_pos h.le (Nat.mul_one _).symm
  rw [fmag_fpack, FNonneg, ffinite_fpack, fsign_fpack, hround]
  exact ⟨⟨decide_eq_true h, rfl⟩, rfl⟩

/-- `x` does not round past a representable value above it. -/
theorem RoundsTo.le {x : ℚ} {r c : F32} (h : RoundsTo x r) (hc : ffinite c = true) (hx : x ≤ fvalue c) :
    fvalue r ≤ fvalue c := by
  by_contra! hlt
  have hnear := (h.2 c hc).1
  rw [abs_of_nonneg (by linarith), abs_of_nonneg (by linarith)] at hnear
  linarith

/-- `x` does not round past a representable value below it. -/
theorem RoundsTo.ge {x : ℚ} {r c : F32} (h : RoundsTo x r) (hc : ffinite c = true) (hx : fvalue c ≤ x) :
    fvalue c ≤ fvalue r := by
  by_contra! hlt
  have hnear := (h.2 c hc).1
  rw [abs_of_nonpos (by linarith), abs_of_nonpos (by linarith)] at hnear
  linarith

/-- A representable value is kept. -/
theorem RoundsTo.eq {x : ℚ} {r c : F32} (h : RoundsTo x r) (hc : ffinite c = true) (hx : x = fvalue c) :
    fvalue r = fvalue c :=
  le_antisymm (h.le hc hx.le) (h.ge hc hx.ge)

/-- Rounding is monotone. -/
theorem RoundsTo.mono {x y : ℚ} {r s : F32} (hr : RoundsTo x r) (hs : RoundsTo y s) (hxy : x < y) :
    fvalue r ≤ fvalue s := by
  by_contra! hlt
  have hrs := (hr.2 s hs.1).1
  have hsr := (hs.2 r hr.1).1
  have hx : fvalue s ≤ x := le_of_not_ge fun h => (hr.le hs.1 h).not_gt hlt
  have hy : y ≤ fvalue r := le_of_not_ge fun h => (hs.ge hr.1 h).not_gt hlt
  rw [abs_of_nonneg (by linarith), abs_of_nonpos (by linarith)] at hrs
  rw [abs_of_nonpos (by linarith), abs_of_nonneg (by linarith)] at hsr
  linarith

/-- Nothing up to 2^24 overflows. -/
theorem abs_le_fmax {x : ℚ} (h : |x| ≤ 2 ^ 24) : |x| ≤ fvalue fmax := h.trans (by decide +kernel)

/-- No finite value is beyond the largest. -/
theorem abs_fvalue_le_fmax {a : F32} (ha : ffinite a = true) : |fvalue a| ≤ fvalue fmax := by
  rw [fvalue_of_finite ha, abs_mul, abs_signFactor, one_mul, abs_of_nonneg (by positivity), fvalue_fmax,
    div_le_div_iff_of_pos_right unitsPerOne_pos, Nat.cast_le]
  exact magOf_strictMono.monotone (Nat.le_pred_of_lt (fcode_lt_of_finite ha))

section
variable {x : ℚ} {a b : F32} (ha : ffinite a = true) (hb : ffinite b = true)
  (hx : x ∈ Set.uIcc (fvalue a) (fvalue b))
include ha hb hx

/-- Between two finite values nothing overflows. -/
theorem abs_le_fmax_of_mem_uIcc : |x| ≤ fvalue fmax :=
  (abs_le_max_abs_abs hx.1 hx.2).trans (max_le
    (abs_min_le_max_abs_abs.trans (max_le (abs_fvalue_le_fmax ha) (abs_fvalue_le_fmax hb)))
    (abs_max_le_max_abs_abs.trans (max_le (abs_fvalue_le_fmax ha) (abs_fvalue_le_fmax hb))))

/-- What lies between two representable values rounds to a value between them. -/
theorem RoundsTo.mem_uIcc {r : F32} (h : RoundsTo x r) : fvalue r ∈ Set.uIcc (fvalue a) (fvalue b) := by
  rcases Set.mem_uIcc.mp hx with ⟨hl, hu⟩ | ⟨hl, hu⟩
  · exact Set.mem_uIcc.mpr (.inl ⟨h.ge ha hl, h.le hb hu⟩)
  · exact Set.mem_uIcc.mpr (.inr ⟨h.ge hb hl, h.le ha hu⟩)

end

end Sys2Proof.Machine
end

section
/-! PROOFS. The phase of the oscillator (spec/41_oscillator.md R102, R103, R106, R112): the bounds of the
increment, the exact wrap, and the two indices of a phase. -/

namespace Sys2Proof.Machine

/-! ### The value of a phase (10 R30) -/

theorem PhaseOk.nonneg {p : F32} (h : PhaseOk p) : FNonneg p := ⟨h.1, h.2.1⟩

theorem PhaseOk.fvalue_mem {p : F32} (h : PhaseOk p) : 0 ≤ fvalue p ∧ fvalue p < 128 := by
  rw [fvalue_of_nonneg h.nonneg]
  refine ⟨by positivity, (div_lt_iff₀ unitsPerOne_pos).mpr ?_⟩
  exact_mod_cast h.2.2

/-! ### The increment (R102, R103) -/

/-! Values that bound the quotient and the increment. -/

/-- 2^-16 (1 + 2^-16), just below 1/65535. -/
theorem fvalue_below_leastQuotient : fvalue 0x37800080 = 65537 / 2 ^ 32 := by decide +kernel

/-- 2^-17 (1 + 2^-23), just above 128/(2^24 - 1). -/
theorem fvalue_above_leastIncrement : fvalue 0x37000001 = (2 ^ 23 + 1) / 2 ^ 40 := by decide +kernel

/-- A number a little below 128/(2^24 - 1) still rounds up to the value above it. -/
theorem roundsTo_leastIncrement :
    RoundsTo (fvalue 0x37000001 - (2 ^ 24 - 1) / 2 ^ 65) 0x37000001 := by
  have hsum : fadd 0x37000001 0xAAFFFFFF = 0x37000001 := by decide +kernel
  have hvalue : fvalue 0x37000001 + fvalue 0xAAFFFFFF = fvalue 0x37000001 - (2 ^ 24 - 1) / 2 ^ 65 := by
    decide +kernel
  rw [← hvalue]
  conv => rhs; rw [← hsum]
  exact roundsTo_fadd rfl rfl (by decide +kernel)

theorem fvalue_greatestIncrement : fvalue 0x4AFFFF00 = 128 * 65535 := by decide +kernel

/-- What passes 128 * 65535 by a quarter of its last bit is rounded down to it. -/
theorem roundsTo_greatestIncrement : RoundsTo (128 * 65535 + 1 / 8) 0x4AFFFF00 := by
  have hsum : fadd 0x4AFFFF00 0x3E000000 = 0x4AFFFF00 := by decide +kernel
  have hvalue : fvalue 0x4AFFFF00 + fvalue 0x3E000000 = 128 * 65535 + 1 / 8 := by decide +kernel
  rw [← hvalue]
  conv => rhs; rw [← hsum]
  exact roundsTo_fadd rfl rfl (by decide +kernel)

section
variable {f : BitVec 16} {sr : BitVec 24} (hf : f ≠ 0) (hsr : sr ≠ 0)
include hf hsr

/-- The quotient `SR / F` is at least the value below 1/65535 and at most the largest rate (R102). -/
theorem rateQuotient_mem :
    65537 / 2 ^ 32 ≤ fvalue (fdiv (cvt sr.toNat) (cvt f.toNat)) ∧
      fvalue (fdiv (cvt sr.toNat) (cvt f.toNat)) ≤ 16777215 := by
  have hF : (1 : ℚ) ≤ f.toNat := by exact_mod_cast show 1 ≤ f.toNat by bv_omega
  have hF' : (f.toNat : ℚ) ≤ 65535 := by exact_mod_cast Nat.le_pred_of_lt f.isLt
  have hS : (1 : ℚ) ≤ sr.toNat := by exact_mod_cast show 1 ≤ sr.toNat by bv_omega
  have hS' : (sr.toNat : ℚ) ≤ 16777215 := by exact_mod_cast Nat.le_pred_of_lt sr.isLt
  have hvS : fvalue (cvt sr.toNat) = sr.toNat := fvalue_cvt_natCast sr.isLt
  have hvF : fvalue (cvt f.toNat) = f.toNat := fvalue_cvt_natCast (by omega)
  have hvmax : fvalue (cvt (16777215 : Nat)) = (16777215 : Nat) := fvalue_cvt_natCast (by decide)
  have hfin {n : Nat} (h : n < 2 ^ 24) : ffinite (cvt n) = true := (cvt_natCast h).1.1
  have hlo : fvalue 0x37800080 ≤ fvalue (cvt sr.toNat) / fvalue (cvt f.toNat) := by
    rw [hvS, hvF, fvalue_below_leastQuotient, le_div_iff₀ (by linarith)]; linarith
  have hhi : fvalue (cvt sr.toNat) / fvalue (cvt f.toNat) ≤ fvalue (cvt (16777215 : Nat)) := by
    rw [hvS, hvF, hvmax, div_le_iff₀ (by linarith)]; push_cast; linarith
  have hround := roundsTo_fdiv (hfin sr.isLt) (hfin (by omega)) (by rw [hvF]; linarith)
    (abs_le_fmax_of_mem_uIcc rfl (hfin (by decide)) (Set.Icc_subset_uIcc ⟨hlo, hhi⟩))
  rw [← fvalue_below_leastQuotient]
  exact ⟨hround.ge rfl hlo, (hround.le (hfin (by decide)) hhi).trans_eq (by rw [hvmax]; rfl)⟩

/-- The bounds of the increment (R102): the bounds of `128 / q`, which may pass them by less than rounding
takes away. -/
theorem phaseInc_mem : (128 : ℚ) / (2 ^ 24 - 1) ≤ fvalue (phaseInc f sr) ∧
    fvalue (phaseInc f sr) ≤ 128 * 65535 := by
  obtain ⟨hlo, hhi⟩ := rateQuotient_mem hf hsr
  have hq := (rateQuotient_bounds hf hsr).1.1
  generalize hdef : fdiv (cvt sr.toNat) (cvt f.toNat) = q at hlo hhi hq
  have hpos : 0 < fvalue q := by linarith
  have hmin : fvalue 0x37000001 - (2 ^ 24 - 1) / 2 ^ 65 < 128 / fvalue q := by
    rw [fvalue_above_leastIncrement, lt_div_iff₀ hpos]; linarith
  have hmax : 128 / fvalue q < 128 * 65535 + 1 / 8 := by
    rw [div_lt_iff₀ hpos]; linarith
  have hround : RoundsTo (128 / fvalue q) (phaseInc f sr) := by
    have h128 : fvalue (cvt 128) = 128 := fvalue_cvt (by decide)
    rw [phaseInc, hdef, ← h128]
    refine roundsTo_fdiv (ffinite_cvt (by decide)) hq hpos.ne' (abs_le_fmax ?_)
    rw [h128, abs_of_pos (by positivity)]; linarith
  have h1 := roundsTo_leastIncrement.mono hround hmin
  rw [fvalue_above_leastIncrement] at h1
  have h2 := hround.mono roundsTo_greatestIncrement hmax
  rw [fvalue_greatestIncrement] at h2
  exact ⟨le_trans (by norm_num) h1, h2⟩

/-- The sum of a phase and an increment (R102): it is not below the increment and at most 2^23. -/
theorem phaseSum_mem {p : F32} (hp : PhaseOk p) : FNonneg (fadd p (phaseInc f sr)) ∧
    fvalue (phaseInc f sr) ≤ fvalue (fadd p (phaseInc f sr)) ∧
      fvalue (fadd p (phaseInc f sr)) ≤ 2 ^ 23 := by
  obtain ⟨hp0, hp1⟩ := hp.fvalue_mem
  obtain ⟨hlo, hhi⟩ := phaseInc_mem hf hsr
  have hinc := (phaseInc_bounds hf hsr).1
  have h23 : fvalue 0x4B000000 = 2 ^ 23 := by decide +kernel
  have hround : RoundsTo (fvalue p + fvalue (phaseInc f sr)) (fadd p (phaseInc f sr)) :=
    roundsTo_fadd hp.1 hinc.1 (abs_le_fmax (abs_le.mpr ⟨by linarith, by linarith⟩))
  have hsign : fsign (fadd p (phaseInc f sr)) = false := by
    rw [fadd_of_nonneg hp.nonneg hinc, fsign_fpack]
  exact ⟨⟨hround.1, hsign⟩, hround.ge hinc.1 (by linarith),
    (hround.le rfl (by rw [h23]; linarith)).trans_eq h23⟩

end

/-- Settles O30: the increment by `phaseInc_mem`, the sum by `phaseSum_mem`. -/
theorem phaseIncrementIsBounded : Obligations.PhaseIncrementIsBounded := by
  intro f sr hf hsr
  obtain ⟨hlo, hhi⟩ := phaseInc_mem hf hsr
  obtain ⟨hfin, hsign⟩ := (phaseInc_bounds hf hsr).1
  refine ⟨hfin, hsign, hlo, hhi, fun p hp => ?_⟩
  obtain ⟨hsum, hge, hle⟩ := phaseSum_mem hf hsr hp
  exact ⟨hsum.1, by linarith, by linarith⟩

/-! ### The wrap (R106) -/

/-- One turn is 128. -/
theorem unitsPerTurn_cast : (unitsPerTurn : ℚ) = 128 * unitsPerOne := by
  rw [unitsPerTurn, Nat.cast_mul]; rfl

/-- The whole turns of a value that is not negative, by its magnitude. -/
theorem floor_fvalue_div_turn {p : F32} (h : FNonneg p) :
    ⌊fvalue p / 128⌋ = (fmag p / unitsPerTurn : Nat) := by
  rw [fvalue_of_nonneg h, div_div, mul_comm, ← unitsPerTurn_cast, Rat.floor_natCast_div_natCast]
  rfl

/-- The wrap takes off whole turns, exactly. -/
theorem fvalue_phaseWrap {p : F32} (h : FNonneg p) :
    fvalue (phaseWrap p) = fvalue p - 128 * ⌊fvalue p / 128⌋ := by
  obtain ⟨hok, hmag⟩ := funits_phaseWrap h.1 h.2
  have hdiv : ((fmag p % unitsPerTurn : Nat) : ℚ) =
      fmag p - unitsPerTurn * (fmag p / unitsPerTurn : Nat) := by
    rw [eq_sub_iff_add_eq, add_comm]; exact_mod_cast Nat.div_add_mod (fmag p) unitsPerTurn
  have hU := unitsPerOne_pos.ne'
  rw [floor_fvalue_div_turn h, fvalue_of_nonneg hok.nonneg, fvalue_of_nonneg h, hmag, hdiv, unitsPerTurn_cast,
    Int.cast_natCast]
  field_simp

/-- Settles O31: the sum is a value that is not negative, and `phaseAdvance` wraps it. -/
theorem phaseAdvanceWrapsExactly : Obligations.PhaseAdvanceWrapsExactly := by
  intro p f sr hp hf hsr
  have hok := phaseOk_phaseAdvance hp hf hsr
  exact ⟨hok, fvalue_phaseWrap (phaseSum_mem hf hsr hp).1, hok.fvalue_mem⟩

/-- A magnitude of a turn or more is a significand at a scale of 2^-16 or more. -/
theorem exists_scale_of_turn_le {m : Nat} (h : unitsPerTurn ≤ magOf m) :
    ∃ k q, magOf m = q * 2 ^ (k + 133) ∧ 2 ^ 23 ≤ q ∧ q < 2 ^ 24 := by
  obtain ⟨k, q, rfl, hq, hk⟩ := exists_scale m
  rw [magOf_scale k q hq.le hk] at h ⊢
  have hk133 : 133 ≤ k := by
    by_contra! hlt
    have : q * 2 ^ k < 2 ^ 24 * 2 ^ 132 :=
      Nat.mul_lt_mul_of_lt_of_le hq (Nat.pow_le_pow_right (by decide) (by omega)) (by positivity)
    rw [unitsPerTurn_eq] at h
    omega
  exact ⟨k - 133, q, by rw [Nat.sub_add_cancel hk133], by omega, hq⟩

/-- R102: "+0.0 or at least 2^-17". -/
def ZeroOrNormal (p : F32) : Prop := p = fzero ∨ (1 : ℚ) / 2 ^ 17 ≤ fvalue p

/-- The bound 2^-17 on a magnitude. -/
theorem two_pow_neg17_le_iff {p : F32} (h : FNonneg p) :
    (1 : ℚ) / 2 ^ 17 ≤ fvalue p ↔ 2 ^ 132 ≤ fmag p := by
  have hU : (unitsPerOne : ℚ) = 2 ^ 17 * 2 ^ 132 := by norm_num [unitsPerOne]
  rw [fvalue_of_nonneg h, le_div_iff₀ unitsPerOne_pos, hU, one_div, inv_mul_cancel_left₀ (by positivity)]
  exact_mod_cast Iff.rfl

/-- The wrap of a value of at least 2^-17: without a whole turn it is that value, and otherwise a multiple of
2^-16. -/
theorem zeroOrNormal_phaseWrap {p : F32} (h : FNonneg p) (hp : (1 : ℚ) / 2 ^ 17 ≤ fvalue p) :
    ZeroOrNormal (phaseWrap p) := by
  obtain ⟨hok, hmag⟩ := funits_phaseWrap h.1 h.2
  rcases Nat.eq_zero_or_pos (fmag (phaseWrap p)) with h0 | hpos
  · exact .inl (hok.nonneg.ext phaseOk_fzero.nonneg h0)
  · refine .inr ((two_pow_neg17_le_iff hok.nonneg).mpr ?_)
    rw [two_pow_neg17_le_iff h] at hp
    rw [hmag] at hpos ⊢
    rcases Nat.lt_or_ge (fmag p) unitsPerTurn with hlt | hge
    · rwa [Nat.mod_eq_of_lt hlt]
    · obtain ⟨k, q, hq, -, -⟩ := exists_scale_of_turn_le hge
      have hdvd : 2 ^ 133 ∣ fmag p % unitsPerTurn := by
        refine (Nat.dvd_mod_iff (Dvd.intro (2 ^ 23) (by decide))).mpr ?_
        rw [fmag, hq, pow_add]; exact Dvd.intro_left _ (mul_assoc _ _ _)
      exact le_trans (by decide) (Nat.le_of_dvd hpos hdvd)

theorem zeroOrNormal_phaseAdvance {p : F32} {f : BitVec 16} {sr : BitVec 24} (hp : PhaseOk p) (hf : f ≠ 0)
    (hsr : sr ≠ 0) : ZeroOrNormal (phaseAdvance p (phaseInc f sr)) := by
  obtain ⟨hsum, hge, -⟩ := phaseSum_mem hf hsr hp
  exact zeroOrNormal_phaseWrap hsum (le_trans (le_trans (by norm_num) (phaseInc_mem hf hsr).1) hge)

theorem zeroOrNormal_sampleSteps (k : Nat) {s : State} (hp : PhaseOk s.phase) (hsr : s.srate ≠ 0)
    (h : ZeroOrNormal s.phase) : ZeroOrNormal (sampleSteps k s).phase := by
  induction k with
  | zero => exact h
  | succ k ih =>
    rw [sampleSteps_add k 1 s, sampleSteps, sampleSteps, sampleStep_phase]
    split
    next => exact ih
    next hf => exact zeroOrNormal_phaseAdvance (phaseOk_sampleSteps k hp hsr) hf (by rwa [sampleSteps_srate])

/-- Settles O32: only `TONE`, which sets `+0.0`, and the sample steps of `FILL` write the phase. -/
theorem phaseIsZeroOrNormal : Obligations.PhaseIsZeroOrNormal := by
  rintro s t ⟨hphase, hrate, -⟩ h hstep
  cases hport : s.port with
  | nil => cases (step_nil s hport).symm.trans hstep; exact h
  | cons w ws =>
    rcases step_effect hport hstep with ⟨c, rfl⟩ | ⟨i, u, v, vs, -, heffect, rfl⟩
    · exact h
    · cases heffect with
      | tone f d => exact .inl rfl
      | fill c => exact zeroOrNormal_sampleSteps _ (s := s.setPort ws) hphase hrate h
      | _ => exact h

/-! ### The wrap as repeated subtraction (R106, C3) -/

/-- Below 2^24 a turn less is representable: the last significand bit stays a bit of 128. -/
theorem exists_magOf_sub_turn {m : Nat} (h : unitsPerTurn ≤ magOf m) (hlt : magOf m < 2 ^ 173) :
    ∃ r < infCode, magOf r = magOf m - unitsPerTurn := by
  obtain ⟨k, q, hm, hq, hq'⟩ := exists_scale_of_turn_le h
  have hk : k ≤ 16 := by
    by_contra! hgt
    have : 2 ^ 23 * 2 ^ 150 ≤ q * 2 ^ (k + 133) :=
      Nat.mul_le_mul hq (Nat.pow_le_pow_right (by decide) (by omega))
    omega
  have hturn : unitsPerTurn = 2 ^ (23 - k) * 2 ^ (k + 133) := by
    rw [unitsPerTurn_eq, ← pow_add]; congr 1; omega
  rw [hm, hturn, ← Nat.sub_mul]
  exact exists_code _ _ ((Nat.sub_le _ _).trans_lt hq') (by omega)

/-- `fsub(x, cvt(128))` is exact from one turn to 2^24. -/
theorem fsub_turn {x : F32} (h : FNonneg x) (hge : unitsPerTurn ≤ fmag x) (hlt : fmag x < 2 ^ 173) :
    FNonneg (fsub x (cvt 128)) ∧ fmag (fsub x (cvt 128)) = fmag x - unitsPerTurn := by
  obtain ⟨r, hr, hsub⟩ := exists_magOf_sub_turn hge hlt
  have hneg : funits (fneg (cvt 128)) = some (-(unitsPerTurn : Int)) := by decide +kernel
  have hx : fsub x (cvt 128) = fpack false (magOf r) 1 := by
    rw [fsub, fadd, funits_of_nonneg h, hneg, h.2, hsub, ← fround_natCast]
    change fround ((fmag x : Int) + -(unitsPerTurn : Int)) false = _
    rw [Int.add_neg_eq_sub, ← Int.ofNat_sub hge]; rfl
  rw [hx, ← show magOf r = fmag x - unitsPerTurn from hsub]
  exact fpack_exact hr

/-- As many subtractions as there are whole turns are the wrap. -/
theorem phaseWrap_eq_iterate (k : Nat) {x : F32} (h : FNonneg x) (hlt : fmag x < 2 ^ 173)
    (hk : fmag x / unitsPerTurn = k) : phaseWrap x = (fun y => fsub y (cvt 128))^[k] x := by
  induction k generalizing x with
  | zero =>
    obtain ⟨hok, hmag⟩ := funits_phaseWrap h.1 h.2
    exact hok.nonneg.ext h (hmag.trans (Nat.mod_eq_of_lt (Nat.lt_of_div_eq_zero (by decide) hk)))
  | succ k ih =>
    have hge : unitsPerTurn ≤ fmag x := by
      by_contra! hc
      rw [Nat.div_eq_of_lt hc] at hk; omega
    obtain ⟨hnext, hmag⟩ := fsub_turn h hge hlt
    obtain ⟨hwx, hwxm⟩ := funits_phaseWrap h.1 h.2
    obtain ⟨hwy, hwym⟩ := funits_phaseWrap hnext.1 hnext.2
    have hsame : phaseWrap x = phaseWrap (fsub x (cvt 128)) := hwx.nonneg.ext hwy.nonneg (by
      rw [hwxm, hwym, hmag, Nat.mod_eq_sub_mod hge])
    rw [Nat.div_eq_sub_div (by decide) hge, ← hmag] at hk
    rw [hsame, Function.iterate_succ_apply]
    exact ih hnext (by omega) (Nat.succ.inj hk)

/-- Settles O33: `phaseWrap_eq_iterate`, with the bounds in units. -/
theorem wrapIsRepeatedSubtraction : Obligations.WrapIsRepeatedSubtraction := by
  intro p k hfin hsign hlt hk
  have h : FNonneg p := ⟨hfin, hsign⟩
  refine phaseWrap_eq_iterate k h ?_ ?_
  · rw [fvalue_of_nonneg h, div_lt_iff₀ unitsPerOne_pos] at hlt
    exact show fmag p < 2 ^ 24 * unitsPerOne by exact_mod_cast hlt
  · rw [floor_fvalue_div_turn h] at hk
    exact_mod_cast hk.symm

/-! ### The indices of a phase (R112, 20 R49) -/

/-- `i & 127`. -/
theorem waveIndex_val (i : Int) : ((waveIndex i).val : Int) = i % 128 := by
  rw [waveIndex, BitVec.val_toFin, BitVec.toNat_ofInt]; omega

theorem PhaseOk.ffloor_mem {p : F32} (h : PhaseOk p) : 0 ≤ ffloor p ∧ ffloor p ≤ 127 := by
  obtain ⟨h0, h1⟩ := h.fvalue_mem
  rw [ffloor_eq_floor h.1, Int.le_floor, ← Int.lt_add_one_iff, Int.floor_lt]
  exact ⟨by exact_mod_cast h0, by exact_mod_cast h1⟩

/-- Settles O36: the floor of a phase is an index, so that only the index after 127 wraps. -/
theorem waveIndicesStayInTable : Obligations.WaveIndicesStayInTable := by
  intro p hp
  obtain ⟨h0, h1⟩ := hp.ffloor_mem
  rw [waveIndex_val, waveIndex_val]
  refine ⟨h0, h1, by omega, ?_⟩
  split <;> omega

end Sys2Proof.Machine
end

section
/-! PROOFS. The sample of a phase (spec/41_oscillator.md R104, R105): the interpolated value lies between its two
table entries, whatever the waveform, so that the cast keeps its integer part. -/

namespace Sys2Proof.Machine

/-! ### Between two values (R104) -/

/-- A fraction of a number lies between zero and the number. -/
theorem mul_mem_uIcc {d r : ℚ} (h0 : 0 ≤ r) (h1 : r ≤ 1) : d * r ∈ Set.uIcc 0 d := by
  rcases le_total 0 d with hd | hd
  · exact Set.mem_uIcc.mpr (.inl ⟨mul_nonneg hd h0, mul_le_of_le_one_right hd h1⟩)
  · exact Set.mem_uIcc.mpr (.inr ⟨by nlinarith, mul_nonpos_of_nonpos_of_nonneg hd h0⟩)

/-- `fadd(a, fmul(d, fr))` of R104, where `d` is the exact difference to `b` and `fr` a fraction: each of its two
roundings stays between values that are representable. -/
theorem fadd_fmul_mem_uIcc {a b d fr : F32} (ha : ffinite a = true) (hb : ffinite b = true)
    (hd : ffinite d = true) (hfr : ffinite fr = true) (hdiff : fvalue d = fvalue b - fvalue a)
    (h0 : 0 ≤ fvalue fr) (h1 : fvalue fr ≤ 1) :
    ffinite (fadd a (fmul d fr)) = true ∧
      fvalue (fadd a (fmul d fr)) ∈ Set.uIcc (fvalue a) (fvalue b) ∧
      (fvalue fr = 0 → fvalue (fadd a (fmul d fr)) = fvalue a) := by
  have hprod : fvalue d * fvalue fr ∈ Set.uIcc (fvalue fzero) (fvalue d) := by
    rw [fvalue_fzero]; exact mul_mem_uIcc h0 h1
  have hx := roundsTo_fmul hd hfr (abs_le_fmax_of_mem_uIcc rfl hd hprod)
  have hxmem := hx.mem_uIcc rfl hd hprod
  have hsum : fvalue a + fvalue (fmul d fr) ∈ Set.uIcc (fvalue a) (fvalue b) := by
    rw [fvalue_fzero] at hxmem
    rcases Set.mem_uIcc.mp hxmem with ⟨hl, hu⟩ | ⟨hl, hu⟩
    · exact Set.mem_uIcc.mpr (.inl ⟨by linarith, by linarith⟩)
    · exact Set.mem_uIcc.mpr (.inr ⟨by linarith, by linarith⟩)
  have hr := roundsTo_fadd ha hx.1 (abs_le_fmax_of_mem_uIcc ha hb hsum)
  refine ⟨hr.1, hr.mem_uIcc ha hb hsum, fun hzero => hr.eq ha ?_⟩
  have hx0 : fvalue (fmul d fr) = fvalue fzero := hx.eq rfl (by rw [hzero, mul_zero, fvalue_fzero])
  rw [hx0, fvalue_fzero, add_zero]

/-! ### The entries and the fraction -/

/-- An entry as an integer fits a sample (20 R41). -/
theorem sample_toInt_mem (v : Sample) : -32768 ≤ v.toInt ∧ v.toInt ≤ 32767 :=
  ⟨BitVec.le_toInt v, Int.le_of_lt_add_one (BitVec.toInt_lt (x := v))⟩

theorem ffinite_waveAt (t : Tables) (i : Int) : ffinite (waveAt t i) = true :=
  ffinite_cvt (by have := sample_toInt_mem t.wave[waveIndex i]; omega)

/-- An entry is converted exactly (20 R50). -/
theorem fvalue_waveAt (t : Tables) {i : Int} {k : Fin 128} (h : waveIndex i = k) :
    fvalue (waveAt t i) = (t.wave[k]).toInt := by
  subst h
  exact fvalue_cvt (by have := sample_toInt_mem t.wave[waveIndex i]; omega)

/-- The value of an entry fits a sample. -/
theorem fvalue_waveAt_mem (t : Tables) (i : Int) : fvalue (waveAt t i) ∈ Set.Icc (-32768 : ℚ) 32767 := by
  have hmem := sample_toInt_mem t.wave[waveIndex i]
  rw [fvalue_waveAt t rfl]
  exact ⟨by exact_mod_cast hmem.1, by exact_mod_cast hmem.2⟩

/-- The difference of two entries is exact. -/
theorem fsub_waveAt (t : Tables) (i j : Int) :
    ffinite (fsub (waveAt t j) (waveAt t i)) = true ∧
      fvalue (fsub (waveAt t j) (waveAt t i)) = fvalue (waveAt t j) - fvalue (waveAt t i) := by
  have hi := sample_toInt_mem t.wave[waveIndex i]
  have hj := sample_toInt_mem t.wave[waveIndex j]
  have hd : ((t.wave[waveIndex j]).toInt - (t.wave[waveIndex i]).toInt).natAbs < 2 ^ 24 := by omega
  have hdiff : fvalue (waveAt t j) - fvalue (waveAt t i) =
      fvalue (cvt ((t.wave[waveIndex j]).toInt - (t.wave[waveIndex i]).toInt)) := by
    rw [fvalue_waveAt t rfl, fvalue_waveAt t rfl, fvalue_cvt hd, Int.cast_sub]
  have hround := roundsTo_fsub (ffinite_waveAt t j) (ffinite_waveAt t i)
    (by rw [hdiff]; exact abs_fvalue_le_fmax (ffinite_cvt hd))
  exact ⟨hround.1, (hround.eq (ffinite_cvt hd) hdiff).trans hdiff.symm⟩

/-- The fraction of a phase (R104). -/
theorem phaseFraction_mem {p : F32} (hp : PhaseOk p) :
    ffinite (fsub p (cvt (ffloor p))) = true ∧ 0 ≤ fvalue (fsub p (cvt (ffloor p))) ∧
      fvalue (fsub p (cvt (ffloor p))) ≤ 1 ∧
      (fvalue p = ffloor p → fvalue (fsub p (cvt (ffloor p))) = 0) := by
  have hi := hp.ffloor_mem
  have hfin : ffinite (cvt (ffloor p)) = true := ffinite_cvt (by omega)
  have hval : fvalue (cvt (ffloor p)) = ffloor p := fvalue_cvt (by omega)
  have hone : fvalue (cvt 1) = 1 := by rw [fvalue_cvt (by decide), Int.cast_one]
  have hlo : (ffloor p : ℚ) ≤ fvalue p := by rw [ffloor_eq_floor hp.1]; exact Int.floor_le _
  have hhi : fvalue p < ffloor p + 1 := by rw [ffloor_eq_floor hp.1]; exact Int.lt_floor_add_one _
  have hround := roundsTo_fsub hp.1 hfin (abs_le_fmax (by
    rw [hval]; exact abs_le.mpr ⟨by linarith, by linarith⟩))
  rw [hval] at hround
  refine ⟨hround.1, ?_, ?_, fun h => ?_⟩
  · rw [← fvalue_fzero]; exact hround.ge rfl (by rw [fvalue_fzero]; linarith)
  · rw [← hone]; exact hround.le (ffinite_cvt (by decide)) (by rw [hone]; linarith)
  · rw [← fvalue_fzero]; exact hround.eq rfl (by rw [fvalue_fzero, h, sub_self])

/-! ### The sample (R104, R105) -/

/-- The interpolated value lies between the two entries, and is the first one where the phase has no fraction. -/
theorem interp_mem (t : Tables) {p : F32} (hp : PhaseOk p) :
    ffinite (interp t p) = true ∧
      fvalue (interp t p) ∈
        Set.uIcc (fvalue (waveAt t (ffloor p))) (fvalue (waveAt t (ffloor p + 1))) ∧
      (fvalue p = ffloor p → fvalue (interp t p) = fvalue (waveAt t (ffloor p))) := by
  obtain ⟨hfin, h0, h1, hzero⟩ := phaseFraction_mem hp
  obtain ⟨hd, hdiff⟩ := fsub_waveAt t (ffloor p) (ffloor p + 1)
  obtain ⟨hr, hmem, heq⟩ :=
    fadd_fmul_mem_uIcc (ffinite_waveAt t _) (ffinite_waveAt t _) hd hfin hdiff h0 h1
  exact ⟨hr, hmem, fun h => heq (hzero h)⟩

/-- Settles O34: `interp_mem`, with the entries by their indices. -/
theorem interpLiesBetweenNeighbours : Obligations.InterpLiesBetweenNeighbours := by
  intro t p i hp hi
  have hfloor : ffloor p = i.val := (ffloor_eq_floor hp.1).trans hi.symm
  have hfirst : waveIndex (ffloor p) = i := by
    rw [hfloor]; exact Fin.ext (by have := waveIndex_val i.val; omega)
  have hsecond : waveIndex (ffloor p + 1) = Fin.ofNat 128 (i.val + 1) := by
    rw [hfloor]; exact Fin.ext (by have := waveIndex_val (i.val + 1); rw [Fin.val_ofNat]; omega)
  obtain ⟨hr, hmem, heq⟩ := interp_mem t hp
  rw [fvalue_waveAt t hfirst, fvalue_waveAt t hsecond] at hmem
  rw [fvalue_waveAt t hfirst] at heq
  refine ⟨hr, hmem.1, hmem.2, fun h => heq (by rw [h, hfloor]; rfl), fun hab => ?_⟩
  rwa [← hab, Set.uIcc_self] at hmem

/-- The integer part of an interpolated value fits a sample. -/
theorem ftrunc_interp_mem (t : Tables) {p : F32} (hp : PhaseOk p) :
    -32768 ≤ ftrunc (interp t p) ∧ ftrunc (interp t p) ≤ 32767 := by
  obtain ⟨hfin, hmem, -⟩ := interp_mem t hp
  obtain ⟨hlo, hhi⟩ := Set.uIcc_subset_Icc (fvalue_waveAt_mem t _) (fvalue_waveAt_mem t _) hmem
  rw [ftrunc_eq hfin]
  split
  · exact ⟨Int.le_floor.mpr (by exact_mod_cast hlo), by exact_mod_cast (Int.floor_le _).trans hhi⟩
  · exact ⟨by exact_mod_cast hlo.trans (Int.le_ceil _), Int.ceil_le.mpr (by exact_mod_cast hhi)⟩

/-- Settles O35: the integer part fits a sample. -/
theorem castNeverOverflows : Obligations.CastNeverOverflows := by
  intro t p hp
  obtain ⟨hlo, hhi⟩ := ftrunc_interp_mem t hp
  rw [cast16, BitVec.toInt_ofInt_eq_self (by decide) hlo (Int.lt_add_one_of_le hhi),
    ftrunc_eq (interp_mem t hp).1]

/-- The sample at the phase `+0.0` is the first entry of the waveform. -/
theorem cast16_interp_fzero (t : Tables) : cast16 (interp t fzero) = t.wave[0] := by
  have hvalue : fvalue (interp t fzero) = (t.wave[0]).toInt :=
    ((interp_mem t phaseOk_fzero).2.2 (by rw [fvalue_fzero]; rfl)).trans (fvalue_waveAt t rfl)
  apply BitVec.eq_of_toInt_eq
  rw [castNeverOverflows t fzero phaseOk_fzero, hvalue, Int.floor_intCast, Int.ceil_intCast, ite_self]

end Sys2Proof.Machine
end

section
/-! PROOFS. `FILL` (spec/41_oscillator.md R107 to R110): the sample steps it makes, what they leave unchanged, and
how two fills add up. -/

namespace Sys2Proof.Machine

/-! ### One sample step (R107) -/

/-- Settles O23: the two branches of the step. -/
theorem sampleStepEmitsThenAdvances : Obligations.SampleStepEmitsThenAdvances := by
  intro s hdur
  exact ⟨by rw [sampleStep_dur]; bv_omega, fun h => if_pos h, fun h => if_neg h⟩

/-! ### Several sample steps (R108) -/

theorem sampleSteps_eq_iterate (k : Nat) (s : State) : sampleSteps k s = sampleStep^[k] s := by
  induction k generalizing s with
  | zero => rfl
  | succ k ih => rw [sampleSteps, ih, Function.iterate_succ_apply]

/-- Sample steps write `DUR`, `PHASE` and `OUT` alone. -/
theorem sampleSteps_frame (k : Nat) (s : State) :
    sampleSteps k s = { s with
      dur := (sampleSteps k s).dur, phase := (sampleSteps k s).phase, out := (sampleSteps k s).out } := by
  induction k generalizing s with
  | zero => rfl
  | succ k ih =>
    rw [sampleSteps, ih (sampleStep s)]
    rcases sampleStep_cases s with ⟨-, h⟩ | ⟨-, h⟩ <;> rw [h] <;> rfl

/-- Sample steps lower `DUR` by their number. -/
theorem sampleSteps_dur_eq {k : Nat} {s : State} (h : k ≤ s.dur.toNat) :
    (sampleSteps k s).dur = BitVec.ofNat 32 (s.dur.toNat - k) := by
  rw [← sampleSteps_dur k s h, BitVec.ofNat_toNat, BitVec.setWidth_eq]

/-- During a rest every sample is 0 (R110). -/
theorem sampleSteps_out_of_rest (k : Nat) {s : State} (h : s.freq = 0) :
    (sampleSteps k s).out = s.out ++ List.replicate k 0 := by
  induction k generalizing s with
  | zero => exact (List.append_nil _).symm
  | succ k ih =>
    rw [sampleSteps, ih (by rw [sampleStep_freq, h]), sampleStep_out, if_pos h, List.append_assoc,
      List.replicate_succ, List.singleton_append]

/-- The operand of `FILL`. -/
theorem decodeFields_fill_wordOf (c : BitVec 8) (a : BitVec 24) (b : BitVec 32) :
    decodeFields .fill (wordOf c a b) = .ok (.fill b) := by
  rw [decodeFields, fieldB_wordOf]

/-- `FILL`, by the samples it emits. -/
theorem exec_fill {cnt : BitVec 32} {s : State} {k : Nat} {samples : List Sample} (hk : k = fillCount cnt s)
    (hout : (sampleSteps k s).out = s.out ++ samples) :
    exec (.fill cnt) s = .next { s with
      dur := BitVec.ofNat 32 (s.dur.toNat - k), phase := (sampleSteps k s).phase, out := s.out ++ samples,
      responses := s.responses ++
        [{ fault := 0, value := BitVec.ofNat 32 (s.dur.toNat - k), samples := samples }] } := by
  have hdrop : (sampleSteps k s).out.drop s.out.length = samples := by rw [hout, List.drop_left]
  have hdur := sampleSteps_dur_eq (hk ▸ fillCount_le_dur cnt s)
  have hframe := sampleSteps_frame k s
  rw [hdur, hout] at hframe
  rw [exec, execFill, ← hk, hdrop, hdur]
  exact congrArg
    (fun u => Host.Outcome.next (respond (BitVec.ofNat 32 (s.dur.toNat - k)) samples u)) hframe

/-- Settles O24: all of `A` must be zero, and the effect is `exec_fill`, for the samples the steps append. -/
theorem fillEmitsMinOfCountAndDuration : Obligations.FillEmitsMinOfCountAndDuration := by
  constructor
  · intro a b
    have hA : a &&& Op.fill.zeroA = a := and_ones24 a
    have h := decode_wordOf_of_zeroB (op := .fill) rfl a b
    simp only [hA, decodeFields_fill_wordOf] at h
    exact h
  · intro s cnt k
    obtain ⟨samples, hout, hlength⟩ := sampleSteps_out k s
    rw [← sampleSteps_eq_iterate]
    exact ⟨samples, hlength, hout, exec_fill rfl hout⟩

/-- Settles O26: `exec_fill`, where the samples are zeros and the phase stays. -/
theorem restPathEmitsZeros : Obligations.RestPathEmitsZeros := by
  intro s cnt hrest k
  have h := exec_fill (cnt := cnt) (k := k) rfl (sampleSteps_out_of_rest k hrest)
  rw [sampleSteps_phase_of_rest k hrest] at h
  have hdur : BitVec.ofNat 32 (s.dur.toNat - k) = s.dur - BitVec.ofNat 32 k := by
    have := fillCount_le_dur cnt s
    bv_omega
  rwa [hdur] at h

/-! ### The first sample after `TONE` (R107) -/

/-- `FILL` of a sounding note emits the sample of the present phase first. -/
theorem exec_fill_out_cons {c : BitVec 32} {t u : State} (hf : t.freq ≠ 0) (hdur : t.dur ≠ 0) (hc : c ≠ 0)
    (h : exec (.fill c) t = .next u) : ∃ rest, u.out = t.out ++ soundingSample t :: rest := by
  have hcount : fillCount c t ≠ 0 := by rw [Ne, fillCount_eq_zero_iff]; exact not_or.mpr ⟨hc, hdur⟩
  obtain ⟨k, hk⟩ := Nat.exists_eq_succ_of_ne_zero hcount
  obtain ⟨rest, hout, -⟩ := sampleSteps_out k (sampleStep t)
  cases h
  refine ⟨rest, ?_⟩
  rw [respond_out, hk, sampleSteps, hout, sampleStep_out, if_neg hf, List.append_assoc, List.singleton_append]

/-- Settles O27: `TONE` leaves the phase at `+0.0`, where the sample is the first entry. -/
theorem firstSampleAfterToneIsWaveZero : Obligations.FirstSampleAfterToneIsWaveZero := by
  intro s t u f d c hf hd hc htone hfill
  cases htone
  obtain ⟨rest, hout⟩ :=
    exec_fill_out_cons (t := respond 0 [] ((setupNote f d s).setPhase fzero)) hf hd hc hfill
  exact ⟨rest, hout.trans (congrArg (fun v => s.out ++ v :: rest) (cast16_interp_fzero s.tables))⟩

/-! ### Two fills (R108) -/

/-- A sample step neither reads nor writes the responses. -/
theorem sampleStep_answer (s : State) (r : Response) : sampleStep (s.answer r) = (sampleStep s).answer r := by
  rcases sampleStep_cases s with ⟨hf, h⟩ | ⟨hf, h⟩ <;> rw [h]
  · exact if_pos hf
  · exact if_neg hf

theorem sampleSteps_answer (k : Nat) (s : State) (r : Response) :
    sampleSteps k (s.answer r) = (sampleSteps k s).answer r := by
  induction k generalizing s with
  | zero => rfl
  | succ k ih => rw [sampleSteps, sampleStep_answer, ih, sampleSteps]

/-- What two fills emit together is what one fill of the sum of their counts emits. -/
theorem fillCount_add {a b : BitVec 32} (h : a.toNat + b.toNat < 2 ^ 32) (s : State) :
    fillCount (a + b) s = fillCount a s + fillCount b (sampleSteps (fillCount a s) s) := by
  have hsum : (a + b).toNat = a.toNat + b.toNat := BitVec.toNat_add_of_lt h
  rw [fillCount, fillCount, fillCount, sampleSteps_dur _ s (Nat.min_le_right _ _), hsum]
  omega

/-- `FILL` is its sample steps and one response. -/
theorem exec_fill_answer {c : BitVec 32} {s t : State} (h : exec (.fill c) s = .next t) :
    ∃ r, t = (sampleSteps (fillCount c s) s).answer r := by
  cases h; exact ⟨_, rfl⟩

/-- Settles O25: the first response apart, the second fill goes on where the first sample steps of the one fill
end. -/
theorem splitFillsEqualOneFill : Obligations.SplitFillsEqualOneFill := by
  intro s t u v a b hlt ha hb hab
  obtain ⟨ra, rfl⟩ := exec_fill_answer ha
  obtain ⟨rb, rfl⟩ := exec_fill_answer hb
  obtain ⟨rab, rfl⟩ := exec_fill_answer hab
  have hcount : fillCount b ((sampleSteps (fillCount a s) s).answer ra) =
      fillCount b (sampleSteps (fillCount a s) s) := rfl
  rw [hcount, sampleSteps_answer, ← sampleSteps_add, ← fillCount_add hlt]
  exact ⟨rfl, by simp only [State.answer_responses, List.length_append, List.length_singleton]⟩

end Sys2Proof.Machine
end

section
/-! PROOFS. The system commands `CFGSR`, `RDREG` and `CLRERR` (spec/42_system.md R130 to R132): which words
stand for each, what it writes and answers, and what it leaves. -/

namespace Sys2Proof

/-! ### The words of the system commands (R65) -/

/-- R65 for an opcode that takes no operand `B`: all of it must be zero. -/
theorem decode_wordOf_of_zeroB_ones {op : Op} (h : op.zeroB = 0xFFFFFFFF) (a : BitVec 24) (b : BitVec 32) :
    decode (wordOf op.byte a b) =
      if a &&& op.zeroA = 0 ∧ b = 0 then decodeFields op (wordOf op.byte a b)
      else .error .illegalOperand := by
  have hb : b &&& op.zeroB = b := by rw [h]; exact and_ones32 b
  simp only [decode_wordOf, hb]

/-- The operand of `CFGSR`, which must not be 0. -/
theorem decodeFields_cfgsr_wordOf (c : BitVec 8) (a : BitVec 24) (b : BitVec 32) :
    decodeFields .cfgsr (wordOf c a b) = if a = 0 then .error .illegalOperand else .ok (.cfgsr a) := by
  rw [decodeFields, fieldSr_wordOf]

/-- A word of the opcode of `CFGSR`: all of `A` is the operand, so `A` has no must-be-zero bit (R130). -/
theorem decode_cfgsr (a : BitVec 24) (b : BitVec 32) :
    decode (wordOf Op.cfgsr.byte a b) =
      if b = 0 ∧ a ≠ 0 then .ok (.cfgsr a) else .error .illegalOperand := by
  have hA : a &&& Op.cfgsr.zeroA = 0 := BitVec.and_zero
  rw [decode_wordOf_of_zeroB_ones rfl, decodeFields_cfgsr_wordOf]
  by_cases ha : a = 0
  · rw [if_pos ha, ite_self, if_neg fun h => h.2 ha]
  · simp only [hA, ha, ne_eq, not_false_eq_true, and_true, true_and, if_false]

/-- A number of four bits is its low field and no more. -/
theorem setWidth_lowField_of_lt {a : BitVec 24} (h : a.toNat < 16) : (a.extractLsb' 0 4).setWidth 24 = a := by
  apply BitVec.eq_of_toNat_eq
  rw [BitVec.toNat_setWidth, BitVec.extractLsb'_toNat]; omega

/-- A word of the opcode of `RDREG` whose `A` is a register index (R131). -/
theorem decode_rdreg_legal {a : BitVec 24} (h : a.toNat ≤ 5) :
    ∃ r, regCode r = a.extractLsb' 0 4 ∧ decode (wordOf Op.rdreg.byte a 0) = .ok (.rdreg r) := by
  have hA := setWidth_lowField_of_lt (a := a) (by omega)
  have hindex : regOf (a.extractLsb' 0 4) ≠ none := by
    rw [Ne, regOf_eq_none_iff, BitVec.extractLsb'_toNat]; omega
  obtain ⟨r, hr⟩ := Option.ne_none_iff_exists'.mp hindex
  have hcode := regOf_some hr
  refine ⟨r, hcode, ?_⟩
  rw [← hA, ← hcode]
  exact decodeOfEncode (.rdreg r) rfl

/-- A word of the opcode of `RDREG` that fails one of the tests of R65: an `A` that passes the must-be-zero
test is its field `reg`. -/
theorem decode_rdreg_illegal {a : BitVec 24} {b : BitVec 32} (h : b ≠ 0 ∨ 6 ≤ a.toNat) :
    decode (wordOf Op.rdreg.byte a b) = .error .illegalOperand := by
  rw [decode_wordOf_of_zeroB_ones rfl]
  split
  next hzero =>
    have hA : (a.extractLsb' 0 4).setWidth 24 = a :=
      (setWidth_lowField a 4).trans (and_compl_of_and_eq_zero hzero.1)
    refine (decodeFields_error_iff .rdreg _ _).mpr ⟨rfl, ?_⟩
    rw [BadField, fieldReg_wordOf, ← BitVec.toNat_setWidth_of_le (by decide : 4 ≤ 24), hA]
    exact h.resolve_left (not_not_intro hzero.2)
  next => rfl

end Sys2Proof

namespace Sys2Proof.Machine

/-! ### The view `INC` (10_state.md R26, 42 R131) -/

theorem incView_of_rest {s : State} (h : s.freq = 0) : incView s = 0 :=
  if_pos h

theorem incView_of_sounding {s : State} (h : s.freq ≠ 0) : incView s = phaseInc s.freq s.srate := by
  rw [incView, if_neg h, fbits]

/-! ### The commands -/

/-- Settles O37: the words by `decode_cfgsr`; the effect is one write of `SRATE`. -/
theorem cfgsrSetsTheRate : Obligations.CfgsrSetsTheRate :=
  ⟨decode_cfgsr, fun _ _ h => if_neg h⟩

/-- Settles O39: the words by the tests of R65; the value is that of the register, and the response is all
that is written. -/
theorem rdregReadsEveryRegister : Obligations.RdregReadsEveryRegister := by
  constructor
  · intro a b
    refine ⟨?_, decode_rdreg_illegal⟩
    rintro ⟨rfl, ha⟩
    exact decode_rdreg_legal ha
  · intro s r
    refine ⟨regValue s r, rfl, ?_⟩
    cases r with
    | srate => exact BitVec.toNat_setWidth_of_le (by decide)
    | freq => exact BitVec.toNat_setWidth_of_le (by decide)
    | inc => exact ⟨incView_of_rest, incView_of_sounding⟩
    | status | dur | phase => rfl

/-- Settles O40: all of `A` and `B` must be zero, and the effect is one write of the fault fields. -/
theorem clrerrClearsTheFaultFlag : Obligations.ClrerrClearsTheFaultFlag := by
  constructor
  · intro a b
    have hA : a &&& Op.clrerr.zeroA = a := and_ones24 a
    have h := decode_wordOf_of_zeroB_ones (op := .clrerr) rfl a b
    simp only [hA] at h
    exact h
  · intro s
    rfl

/-- Settles O38: the test of the rate 0 leads to the fault entry. -/
theorem cfgsrZeroTakesTheFault : Obligations.CfgsrZeroTakesTheFault := by
  intro s
  rw [exec, execCfgsr, if_pos rfl]
  rfl

end Sys2Proof.Machine
end

section
/-! PROOFS. The Sequencer (spec/43_host_operations.md R144 to R156): what one invocation reads, what it answers,
and what it leaves of the host. -/

namespace Sys2Proof.Machine

/-! ### Dispatch on a character (R145, R147) -/

/-- An invocation dispatches on the next significant character, unless it is a NUL (R145, R155). -/
theorem resolve_of_ahead {p : HostParams} {h : HostState} {c : Byte} {text : Script}
    (hahead : h.ahead p = c :: text) (hc : c ≠ 0) :
    resolve p h = dispatchSong p (h.skipSpace p) (upper c) text := by
  unfold HostState.ahead at hahead
  simp only [resolve, hahead, if_neg hc]

/-- A command whose integer argument is settled (R146), by its letter in upper case. -/
theorem resolve_of_int {p : HostParams} {h : HostState} {c u : Byte} {text : Script} {n : Int} {used : Nat}
    {k : Int → HostState → Resolved × HostState} (hahead : h.ahead p = c :: text)
    (hn : parseInt p text = .int n used) (hc : upper c = u) (hu : u ≠ 0)
    (hk : ∀ h', dispatchSong p h' u text = withInt p h' text k) :
    resolve p h = k n ((h.skipSpace p).advance (1 + used)) := by
  have hc0 : c ≠ 0 := by rintro rfl; exact hu hc.symm
  rw [resolve_of_ahead hahead hc0, hc, hk]
  simp only [withInt, hn]

/-- A clamp to a range of naturals loses nothing as a natural number. -/
theorem clamp_toNat {lo hi : Int} (hlo : 0 ≤ lo) (h : lo ≤ hi) (n : Int) :
    ((clamp n lo hi).toNat : Int) = max lo (min hi n) := by
  rw [clamp_eq_max_min h]; exact Int.toNat_of_nonneg (hlo.trans (le_max_left _ _))

/-- Settles O51: each letter, in either case, is one of the three setters, on the clamped argument. -/
theorem octaveLengthAndTempoAreClamped : Obligations.OctaveLengthAndTempoAreClamped := by
  intro p h c text n used hahead hn
  refine ⟨fun hc => ?_, fun hc => ?_, fun hc => ?_⟩
  · have hupper : upper c = ascii 'O' := by rcases hc with rfl | rfl <;> rfl
    rw [resolve_of_int hahead hn (k := fun n h' => (.quiet, setOctave n h'))
      hupper (by decide) fun _ => rfl]
    exact ⟨rfl, clamp_toNat (by decide) (by decide) n⟩
  · have hupper : upper c = ascii 'L' := by rcases hc with rfl | rfl <;> rfl
    rw [resolve_of_int hahead hn (k := fun n h' => (.quiet, setDivisor n h'))
      hupper (by decide) fun _ => rfl]
    exact ⟨rfl, clamp_toNat (by decide) (by decide) n⟩
  · have hupper : upper c = ascii 'T' := by rcases hc with rfl | rfl <;> rfl
    rw [resolve_of_int hahead hn (k := fun n h' => (.quiet, setTempo n h'))
      hupper (by decide) fun _ => rfl]
    exact ⟨rfl, rfl⟩

/-- A clamp to the signed 16-bit range before the block's own clamp changes nothing (R151). -/
theorem clamp_numberOperand (n : Int) :
    max 0 (min 84 (BitVec.ofInt 16 (clamp n (-32768) 32767)).toInt) = max 0 (min 84 n) := by
  rw [clamp_eq_max_min (by decide), BitVec.toInt_ofInt_eq_self (by decide) (by omega) (by omega)]
  omega

/-- Settles O53: `P` computes with its own argument, and the operand of `N` is clamped by the block. -/
theorem restAndNumberCommands : Obligations.RestAndNumberCommands := by
  intro p h c text n used hahead hn
  refine ⟨fun hc => ?_, fun hc => ?_⟩
  · have hupper : upper c = ascii 'P' := by rcases hc with rfl | rfl <;> rfl
    rw [resolve_of_int hahead hn (k := fun n h' => (.command (restCommand n h'), h'))
      hupper (by decide) fun _ => rfl, ← clamp_eq_max_min (by decide)]
    exact ⟨rfl, rfl⟩
  · have hupper : upper c = ascii 'N' := by rcases hc with rfl | rfl <;> rfl
    rw [resolve_of_int hahead hn (k := fun n h' => (.command (numberCommand n h'), h'))
      hupper (by decide) fun _ => rfl]
    exact ⟨_, rfl, clamp_numberOperand n⟩

/-! ### Notes (R149) -/

/-- The suffix of an accidental, before text that does not go on with a sign where there is none. -/
theorem parseAccidental_append {acc : Accidental} {sign rest : Script}
    (h : acc = .plus ∧ sign = [ascii '+'] ∨ acc = .minus ∧ sign = [ascii '-'] ∨
      acc = .none ∧ sign = [] ∧ rest.head? ≠ some (ascii '+') ∧ rest.head? ≠ some (ascii '-')) :
    parseAccidental (sign ++ rest) = (acc, sign.length) := by
  rcases h with ⟨rfl, rfl⟩ | ⟨rfl, rfl⟩ | ⟨rfl, rfl, hplus, hminus⟩
  · rfl
  · rfl
  · cases rest with
    | nil => rfl
    | cons b rest =>
      rw [List.head?_cons, Ne, Option.some_inj] at hplus hminus
      simp only [List.nil_append, parseAccidental, if_neg hplus, if_neg hminus, List.length_nil]

/-- What a note letter gives, by the suffixes that follow it. -/
theorem resolveNote_append {acc : Accidental} {sign rest : Script} (h : HostState) (l : Letter)
    (hacc : parseAccidental (sign ++ rest) = (acc, sign.length)) :
    (resolveNote h l (sign ++ rest)).1 = .command (.note (Fin.ofNat 8 h.octave) l acc
      (durOperand (if parseDot rest then dottedLength h else noteLength h))) := by
  simp only [resolveNote, hacc, List.drop_left]

/-- Settles O52: the letter by the dispatch, its suffixes by `parseAccidental_append`. -/
theorem noteLetterGivesNoteCommand : Obligations.NoteLetterGivesNoteCommand := by
  rintro p h c text l acc sign rest hahead hletter hsign rfl
  have hc : c ≠ 0 := by rintro rfl; cases hletter
  have hdispatch : resolve p h = resolveNote (h.skipSpace p) l (sign ++ rest) := by
    rw [resolve_of_ahead hahead hc, dispatchSong, hletter]
  rw [hdispatch, resolveNote_append _ _ (parseAccidental_append hsign)]
  simp only [parseDot, decide_eq_true_eq]
  rfl

/-! ### A character that starts no command (R156) -/

/-- The letters that start a command come in both cases (R145). -/
theorem lower_mem_songStarts : ∀ u ∈ songStarts.map ascii, 0x61 ≤ u + 0x20 ∧ u + 0x20 ≤ 0x7A →
    u + 0x20 ∈ songStarts.map ascii := by
  decide

/-- A byte that starts no command does not in upper case either. -/
theorem upper_not_mem_songStarts {c : Byte} (h : c ∉ songStarts.map ascii) :
    upper c ∉ songStarts.map ascii := by
  unfold upper
  split
  next hlower =>
    have hc : c - 0x20 + 0x20 = c := BitVec.sub_add_cancel c 0x20
    exact fun hmem => h (hc ▸ lower_mem_songStarts _ hmem (hc.symm ▸ hlower))
  next => exact h

/-- R156: an unknown character aborts the script. -/
theorem dispatchSong_of_not_mem {c : Byte} (hc : c ∉ songStarts.map ascii) (p : HostParams) (h : HostState)
    (rest : Script) : dispatchSong p h c rest = (.abort .malformedCommand, h) := by
  simp only [songStarts, List.cons_append, List.nil_append, List.map_cons, List.mem_cons, not_or] at hc
  simp only [dispatchSong, noteLetter, hc, if_false]

theorem resolve_of_unknown {p : HostParams} {h : HostState} {c : Byte} {text : Script}
    (hahead : h.ahead p = c :: text) (hc : c ≠ 0) (hunknown : ∀ k ∈ songStarts, c ≠ ascii k) :
    resolve p h = (.abort .malformedCommand, h.skipSpace p) := by
  have hmem : c ∉ songStarts.map ascii := fun hmem =>
    (List.mem_map.mp hmem).elim fun k hk => hunknown k hk.1 hk.2.symm
  rw [resolve_of_ahead hahead hc, dispatchSong_of_not_mem (upper_not_mem_songStarts hmem)]

/-! ### What one invocation leaves (R144) -/

/-- The commands the Sequencer gives the block (R159), those of a host in octave `o`. -/
inductive SongCommand (o : Nat) : Instr → Prop
  | note (l : Letter) (a : Accidental) (d : BitVec 32) : SongCommand o (.note (Fin.ofNat 8 o) l a d)
  | noten (n : BitVec 16) (d : BitVec 32) : SongCommand o (.noten n d)
  | rest (d : BitVec 32) : SongCommand o (.rest d)

theorem SongCommand.wf {o : Nat} {i : Instr} (h : SongCommand o i) : i.wf = true := by
  cases h <;> rfl

/-- What an invocation of the Sequencer on the host `h` may answer. It writes the cursor and the fields its
commands set, and no others; the cursor does not go back. -/
structure SongStep (h : HostState) (x : Resolved × HostState) : Prop where
  frame : x.2 = { h with
    cursor := x.2.cursor, octave := x.2.octave, bpm := x.2.bpm, tempo := x.2.tempo
    divisor := x.2.divisor, articulation := x.2.articulation }
  cursor : h.cursor ≤ x.2.cursor
  inv : h.Inv → x.2.Inv
  command : ∀ i, x.1 = .command i → SongCommand h.octave i

section
variable {h : HostState} {x : Resolved × HostState} (hx : SongStep h x)
include hx

theorem SongStep.script : x.2.script = h.script := by rw [hx.frame]

theorem SongStep.heard : x.2.heard = h.heard := by rw [hx.frame]

theorem SongStep.audio : x.2.audio = h.audio := by rw [hx.frame]

theorem SongStep.warnings : x.2.warnings = h.warnings := by rw [hx.frame]

end

/-- An answer after the cursor has moved on. -/
theorem SongStep.of_advance {h : HostState} {n : Nat} {x : Resolved × HostState}
    (hx : SongStep (h.advance n) x) : SongStep h x where
  frame := hx.frame
  cursor := (Nat.le_add_right _ _).trans hx.cursor
  inv := hx.inv
  command := hx.command

/-- An answer that changes nothing of the host. -/
theorem songStep_self {h : HostState} {a : Resolved} (ha : ∀ i, a = .command i → SongCommand h.octave i) :
    SongStep h (a, h) :=
  ⟨rfl, le_rfl, id, ha⟩

theorem songStep_setOctave (n : Int) (h : HostState) : SongStep h (.quiet, setOctave n h) where
  frame := rfl
  cursor := le_rfl
  inv hinv := by
    have hoctave := clamp_toNat (lo := 0) (hi := 6) (by decide) (by decide) n
    exact ⟨show (clamp n 0 6).toNat ≤ 6 by omega, hinv.2⟩
  command := nofun

theorem songStep_setDivisor (n : Int) (h : HostState) : SongStep h (.quiet, setDivisor n h) where
  frame := rfl
  cursor := le_rfl
  inv hinv := by
    obtain ⟨hoctave, -, -, hbpm⟩ := hinv
    have hdivisor := clamp_toNat (lo := 1) (hi := 64) (by decide) (by decide) n
    exact ⟨hoctave, show 1 ≤ (clamp n 1 64).toNat by omega, show (clamp n 1 64).toNat ≤ 64 by omega, hbpm⟩
  command := nofun

/-- The beats per minute are in their range, whatever the argument (R154). -/
theorem bpmOf_mem (n : Int) : 32 ≤ bpmOf n ∧ bpmOf n ≤ 255 := by
  have hbpm := clamp_toNat (lo := 32) (hi := 255) (by decide) (by decide) n
  unfold bpmOf; omega

theorem songStep_setTempo (n : Int) (h : HostState) : SongStep h (.quiet, setTempo n h) where
  frame := rfl
  cursor := le_rfl
  inv hinv := by
    obtain ⟨hoctave, hdivisor, hdivisor', -⟩ := hinv
    exact ⟨hoctave, hdivisor, hdivisor', (bpmOf_mem n).1, (bpmOf_mem n).2, rfl⟩
  command := nofun

/-- A command with an argument, when its meaning is a `SongStep` for every argument. -/
theorem songStep_withInt {k : Int → HostState → Resolved × HostState} (hk : ∀ n h, SongStep h (k n h))
    (p : HostParams) (h : HostState) (text : Script) : SongStep h (withInt p h text k) := by
  unfold withInt
  split
  · exact (hk _ _).of_advance
  · exact songStep_self nofun
  · exact songStep_self nofun

theorem songStep_resolveNote (h : HostState) (l : Letter) (text : Script) :
    SongStep h (resolveNote h l text) where
  frame := rfl
  cursor := Nat.le_add_right _ _
  inv := id
  command := by rintro i ⟨⟩; exact .note _ _ _

theorem songStep_resolveArticulation (h : HostState) (text : Script) :
    SongStep h (resolveArticulation h text) := by
  have hset : ∀ a : Articulation, SongStep h (.quiet, { h.advance 2 with articulation := a }) := fun a =>
    ⟨rfl, Nat.le_add_right _ _, id, nofun⟩
  unfold resolveArticulation
  split
  · exact songStep_self nofun
  · dsimp only
    split_ifs
    · exact hset .legato
    · exact hset .normal
    · exact hset .staccato
    · exact hset h.articulation
    · exact songStep_self nofun

theorem songStep_dispatchSong (p : HostParams) (h : HostState) (c : Byte) (rest : Script) :
    SongStep h (dispatchSong p h c rest) := by
  unfold dispatchSong
  split
  · exact songStep_resolveNote h _ rest
  · split_ifs
    · exact songStep_withInt songStep_setOctave p h rest -- `O`
    · exact (songStep_setOctave _ _).of_advance -- `<`
    · exact (songStep_setOctave _ _).of_advance -- `>`
    · -- `P`
      exact songStep_withInt (fun _ _ => songStep_self (by rintro i ⟨⟩; exact .rest _)) p h rest
    · -- `N`
      exact songStep_withInt (fun _ _ => songStep_self (by rintro i ⟨⟩; exact .noten _ _)) p h rest
    · exact songStep_withInt songStep_setDivisor p h rest -- `L`
    · exact songStep_resolveArticulation h rest -- `M`
    · exact songStep_withInt songStep_setTempo p h rest -- `T`
    · exact songStep_self nofun

/-- Every invocation: it skips white space, and then ends the song or dispatches. -/
theorem songStep_resolve (p : HostParams) (h : HostState) : SongStep h (resolve p h) := by
  have hskip : SongStep (h.skipSpace p) (resolve p h) := by
    unfold resolve
    dsimp only
    split
    · exact songStep_self nofun
    · split
      · exact songStep_self nofun
      · exact songStep_dispatchSong p _ _ _
  exact hskip.of_advance

end Sys2Proof.Machine
end

section
/-! PROOFS. What a host sees of a word it sends (spec/00_scope.md R6, R16), and the control surface
(spec/43_host_operations.md R141 to R143, R154, R167; 70_reset_and_hazards.md R204). -/

namespace Sys2Proof.Machine

/-! ### A word on an empty port (R6, R17) -/

/-- A word sent on an empty port is executed as it stands. -/
theorem execWord_issueWord (w : CmdWord) {b : State} (hport : b.port = []) :
    execWord w b = .next (issueWord w b) := by
  obtain ⟨t, -, ht, -⟩ := execWord_answeredBy w b
  have hstep : step (deliver w b) = .next t := by
    have hdeliver : (deliver w b).port = [w] := by rw [deliver_port, hport, List.nil_append]
    have hrest : (deliver w b).setPort [] = b := by rw [← hport]; rfl
    rw [step_cons _ w [] hdeliver, hrest, ht]
  rw [ht, issueWord, hstep]

/-- A legal word sent on an empty port runs its instruction. -/
theorem exec_issueWord {w : CmdWord} {i : Instr} {b : State} (hport : b.port = []) (h : decode w = .ok i) :
    exec i b = .next (issueWord w b) := by
  rw [← execWord_of_decode_ok h, execWord_issueWord w hport]

/-- The word of an instruction runs it. -/
theorem exec_issueWord_encode {i : Instr} {b : State} (hport : b.port = []) (hwf : i.wf = true) :
    exec i b = .next (issueWord (encode i) b) :=
  exec_issueWord hport (decodeOfEncode i hwf)

/-- What an instruction answers is the block after its word. -/
theorem issueWord_encode_of_exec {i : Instr} {b t : State} (hport : b.port = []) (hwf : i.wf = true)
    (h : exec i b = .next t) : issueWord (encode i) b = t := by
  cases (exec_issueWord_encode hport hwf).symm.trans h; rfl

/-- After a word sent on an empty port the port is empty. -/
theorem issueWord_port (w : CmdWord) {b : State} (hport : b.port = []) : (issueWord w b).port = [] := by
  obtain ⟨t, r, ht, hr⟩ := execWord_answeredBy w b
  cases ht.symm.trans (execWord_issueWord w hport)
  exact hr.port.trans hport

theorem lastResponse_of_append {t : State} {rs : List Response} {r : Response}
    (h : t.responses = rs ++ [r]) : lastResponse t = r := by
  rw [lastResponse, h, List.getLast?_concat, Option.getD_some]

/-! ### The events of the control surface -/

/-- The host after the word of an instruction. -/
theorem afterWord_encode {i : Instr} (hwf : i.wf = true) (h : HostState) :
    h.afterWord (encode i) = h.afterCommand i := by
  rw [HostState.afterWord, decodeOfEncode i hwf]

/-- `CFGSR` of a rate that is not 0 is well formed. -/
theorem cfgsr_wf {sr : BitVec 24} (hsr : sr ≠ 0) : (Instr.cfgsr sr).wf = true := decide_eq_true hsr

/-- `CFGSR` sent on an empty port (R130). -/
theorem issueWord_cfgsr {sr : BitVec 24} {b : State} (hport : b.port = []) (hsr : sr ≠ 0) :
    issueWord (encode (.cfgsr sr)) b = respond 0 [] (b.setSrate sr) :=
  issueWord_encode_of_exec hport (cfgsr_wf hsr) (if_neg hsr)

/-- A nearest integer as a quotient of naturals: `x / y + 1/2` is `(2 x + y) / (2 y)` (R154). -/
theorem tempoAt_eq_floor (rate : BitVec 24) {bpm : Nat} (h : bpm ≠ 0) :
    (tempoAt rate bpm : Int) = ⌊(rate.toNat : ℚ) * 240 / bpm + 1 / 2⌋ := by
  have hsum : (rate.toNat : ℚ) * 240 / bpm + 1 / 2 =
      ((2 * (rate.toNat * 240) + bpm : Nat) : ℚ) / (2 * bpm : Nat) := by
    have hbpm : (bpm : ℚ) ≠ 0 := Nat.cast_ne_zero.mpr h
    push_cast
    field_simp
  rw [hsum, Rat.floor_natCast_div_natCast, tempoAt, Int.natCast_div]

/-- Settles O50: the tempo is a rounded quotient; a legal `CFGSR` of an agent computes it again. -/
theorem tempoIsNearestSampleCount : Obligations.TempoIsNearestSampleCount := by
  constructor
  · intro rate n
    have hbpm : (bpmOf n : Int) = max 32 (min 255 n) := clamp_toNat (by decide) (by decide) n
    rw [← hbpm, Int.cast_natCast]
    exact tempoAt_eq_floor rate (by omega)
  · intro p y a sr hsr hport hlo hhi
    refine ⟨_, rfl, ?_, ?_⟩
    · rw [issueWord_cfgsr hport hsr]; rfl
    · rw [afterWord_encode (cfgsr_wf hsr), ← tempoAt_eq_floor sr (by omega), Int.toNat_natCast]
      rfl

/-- Settles O59: `CANCEL` changes `DUR` alone, and nothing of the host; the cell waits for the request. -/
theorem playTruncatesAndRestarts : Obligations.PlayTruncatesAndRestarts := by
  intro p t y hrequest hport
  have hblock : issueWord (encode .cancel) y.block = respond 0 [] (y.block.setDur 0) :=
    issueWord_encode_of_exec hport rfl rfl
  refine ⟨_, rfl, ?_⟩
  rw [hblock, afterWord_encode rfl]
  refine ⟨rfl, rfl, rfl, fun n => ?_⟩
  simp only [startRequest, HostState.afterCommand, hrequest]
  exact ⟨_, rfl, rfl, rfl⟩

/-- `PlayTone` with operands that fit `TONE` (R142). -/
theorem playToneEvents_of_mem {h : HostState} {f : BitVec 16} {d : BitVec 32} {seconds : ℚ}
    (hd : toneDuration h.rate seconds = d.toNat) :
    playToneEvents h f.toNat seconds = .ok [.word .control (encode (.tone f d))] := by
  have hfit : 0 ≤ (f.toNat : Int) ∧ (f.toNat : Int) ≤ 65535 ∧ 0 ≤ (d.toNat : Int) ∧
      (d.toNat : Int) < 2 ^ 32 := by
    have := f.isLt
    have := d.isLt
    omega
  simp only [playToneEvents, hd, if_pos hfit, BitVec.ofInt_natCast, BitVec.ofNat_toNat, BitVec.setWidth_eq]

/-- Settles O60: `Beep` is `PlayTone` with 400 Hz and 8820 samples. -/
theorem playToneIsOneTone : Obligations.PlayToneIsOneTone := by
  constructor
  · intro h hrate
    have hd : toneDuration h.rate (1 / 5) = (8820 : BitVec 32).toNat := by
      rw [hrate]; decide +kernel
    exact playToneEvents_of_mem (f := 400) hd
  · intro h f d seconds hd
    exact playToneEvents_of_mem (by rw [hd]; rfl)

end Sys2Proof.Machine
end

section
/-! PROOFS. The Driver (spec/43_host_operations.md R157 to R159): what one of its moves does, which invariant of
the host every event keeps (R144), and why a conforming host sends legal words (60_exceptions.md R193). -/

namespace Sys2Proof.Machine

/-! ### One move of the Driver (R159) -/

section
variable {p : HostParams} {y : System} {r : FillRequest} (hrequest : y.host.request = some r)
include hrequest

theorem driverMove_of_full (hfull : r.want ≤ r.buf.length) :
    driverMove p y = .ok (deliverBuffer r y) := by
  simp only [driverMove, hrequest, if_pos hfull]

theorem driverMove_of_read (hroom : r.buf.length < r.want) (hread : p.pollsDur = true ∧ r.fresh = false) :
    driverMove p y = .ok (readMove r y) := by
  simp only [driverMove, hrequest, if_neg hroom.not_ge, if_pos hread]

theorem driverMove_of_awaiting (hroom : r.buf.length < r.want)
    (hread : ¬ (p.pollsDur = true ∧ r.fresh = false)) (hheard : y.host.heard = 0) :
    driverMove p y = sequencerMove p r y := by
  simp only [driverMove, hrequest, if_neg hroom.not_ge, if_neg hread, if_pos hheard]

theorem driverMove_of_playing (hroom : r.buf.length < r.want)
    (hread : ¬ (p.pollsDur = true ∧ r.fresh = false)) (hheard : y.host.heard ≠ 0) :
    driverMove p y = .ok (fillMove r y) := by
  simp only [driverMove, hrequest, if_neg hroom.not_ge, if_neg hread, if_neg hheard]

end

/-! ### One invocation of the Sequencer (R157, R158) -/

/-- The system after an invocation of the Sequencer, before its outcome is noted in the request: the host as
the invocation leaves it, and the block after the command, where there is one. -/
inductive Invoked (p : HostParams) (y : System) : System → Prop
  | alone (a : Resolved) (h : HostState) (hx : resolve p y.host = (a, h)) : Invoked p y { y with host := h }
  | issued (i : Instr) (h : HostState) (hx : resolve p y.host = (.command i, h))
      (dur : Response → BitVec 32) : Invoked p y (driverIssue i dur { y with host := h })

/-- How a request `r` goes on as `r'` after an invocation that neither ended the script nor exceeded the guard
(R158): a command of the host alone or of duration 0 is counted; any other was accepted by the block, and
its duration was heard. -/
inductive Counted (p : HostParams) (y z : System) (r r' : FillRequest) : Prop
  | silent (hguard : r'.guard = r.guard + 1) (hle : r'.guard ≤ p.loopGuard) (hheard : z.host.heard = 0)
  | sounding (i : Instr) (hguard : r'.guard = r.guard) (hfresh : r'.fresh = true)
      (hcommand : (resolve p y.host).1 = .command i) (hblock : z.block = issueWord (encode i) y.block)
      (haccepted : (lastResponse z.block).fault = 0) (hheard : z.host.heard = commandDur i)
      (hdur : commandDur i ≠ 0)

/-- What an invocation makes of the request `r`. -/
inductive Noted (p : HostParams) (y z : System) (r : FillRequest) : System → Prop
  | aborted (why : AbortCause) (g : Nat) (f : Bool) :
      Noted p y z r (abortRequest why { r with guard := g, fresh := f } z)
  | ended : Noted p y z r (z.setRequest r.silence)
  | counted (r' : FillRequest) (hwant : r'.want = r.want) (hbuf : r'.buf = r.buf)
      (h : Counted p y z r r') : Noted p y z r (z.setRequest r')

/-- The count of an invocation, for a request whose other fields are set. -/
theorem noted_countInvocation {p : HostParams} {y z : System} {r : FillRequest} (leftZero fresh : Bool)
    (hcounted : ∀ g, g = (if leftZero then r.guard + 1 else r.guard) → g ≤ p.loopGuard →
      Counted p y z r { r with guard := g, fresh := fresh }) :
    Noted p y z r (countInvocation p leftZero { r with fresh := fresh } z) := by
  unfold countInvocation
  by_cases hguard : p.loopGuard < if leftZero then r.guard + 1 else r.guard
  · rw [if_pos hguard]; exact .aborted _ _ fresh
  · rw [if_neg hguard]; exact .counted _ rfl rfl (hcounted _ rfl (Nat.not_lt.mp hguard))

/-- Everything an invocation can do in Awaiting-Command. -/
theorem sequencerMove_cases {p : HostParams} {y : System} (r : FillRequest) (hheard : y.host.heard = 0) :
    (sequencerMove p r y = .error .unsettledScript ∧ (resolve p y.host).1 = .unsettled) ∨
    ∃ z y', sequencerMove p r y = .ok y' ∧ Invoked p y z ∧ Noted p y z r y' := by
  rcases hx : resolve p y.host with ⟨a, h⟩
  have hstep := songStep_resolve p y.host
  rw [hx] at hstep
  cases a with
  | unsettled => rw [sequencerMove, hx]; exact .inl ⟨rfl, rfl⟩
  | ended => rw [sequencerMove, hx]; exact .inr ⟨_, _, rfl, .alone _ h hx, .ended⟩
  | abort why => rw [sequencerMove, hx]; exact .inr ⟨_, _, rfl, .alone _ h hx, .aborted why r.guard r.fresh⟩
  | quiet =>
    rw [sequencerMove, hx]
    refine .inr ⟨_, _, rfl, .alone _ h hx, noted_countInvocation true false fun g hg hle => ?_⟩
    exact .silent hg hle (hstep.heard.trans hheard)
  | command i =>
    simp only [sequencerMove, hx]
    split
    next haccepted =>
      refine .inr ⟨_, _, rfl, .issued i h hx _, noted_countInvocation _ true fun g hg hle => ?_⟩
      have hheard' : (if (lastResponse (issueWord (encode i) y.block)).fault = 0 then commandDur i else 0) =
        commandDur i := if_pos haccepted
      by_cases hdur : commandDur i = 0
      · exact .silent (by rw [hg, decide_eq_true hdur]; rfl) hle (hheard'.trans hdur)
      · exact .sounding i (by rw [hg, decide_eq_false hdur]; rfl) rfl (by rw [hx]) rfl haccepted hheard' hdur
    next => exact .inr ⟨_, _, rfl, .issued i h hx _, .aborted _ r.guard r.fresh⟩

/-! ### What a move leaves of the host, and what it sends (R140, R144) -/

/-- The host after an invocation, but for what the Driver heard of `DUR`. -/
theorem Invoked.host_eq {p : HostParams} {y z : System} (h : Invoked p y z) :
    z.host = { (resolve p y.host).2 with heard := z.host.heard } := by
  cases h with
  | alone a h hx => rw [hx]
  | issued i h hx dur => rw [hx]; rfl

/-- An invocation keeps the ranges. -/
theorem Invoked.inv {p : HostParams} {y z : System} (h : Invoked p y z) (hinv : y.host.Inv) :
    z.host.Inv := by
  rw [h.host_eq]; exact (songStep_resolve p y.host).inv hinv

/-- An invocation leaves the script and the audible stream. -/
theorem Invoked.keeps {p : HostParams} {y z : System} (h : Invoked p y z) :
    z.host.script = y.host.script ∧ z.host.audio = y.host.audio := by
  have hstep := songStep_resolve p y.host
  rw [h.host_eq]; exact ⟨hstep.script, hstep.audio⟩

/-- The commands a move of the Driver sends (R140, R159). -/
inductive DriverCommand : Instr → Prop
  | song {o : Nat} {i : Instr} (h : SongCommand o i) : DriverCommand i
  | fill (c : BitVec 32) : DriverCommand (.fill c)
  | rdreg : DriverCommand (.rdreg .dur)

theorem DriverCommand.wf {i : Instr} (h : DriverCommand i) : i.wf = true := by
  cases h with
  | song h => exact h.wf
  | fill c => rfl
  | rdreg => rfl

/-- The block is left alone, or takes the word of one command of the Driver. -/
def DriverBlock (b b' : State) : Prop :=
  b' = b ∨ ∃ i, b' = issueWord (encode i) b ∧ DriverCommand i

theorem Invoked.block {p : HostParams} {y z : System} (h : Invoked p y z) :
    DriverBlock y.block z.block := by
  cases h with
  | alone a h hx => exact .inl rfl
  | issued i h hx dur =>
    exact .inr ⟨i, rfl, .song ((songStep_resolve p y.host).command i (by rw [hx]))⟩

/-- Noting the outcome changes neither the ranges nor the block. -/
theorem Noted.keeps {p : HostParams} {y z y' : System} {r : FillRequest} (h : Noted p y z r y') :
    (z.host.Inv → y'.host.Inv) ∧ y'.block = z.block := by
  cases h <;> exact ⟨id, rfl⟩

/-- A move of the Driver keeps the ranges of the host and sends one command at most. -/
theorem driverMove_keeps {p : HostParams} {y y' : System} (h : driverMove p y = .ok y') :
    (y.host.Inv → y'.host.Inv) ∧ DriverBlock y.block y'.block := by
  cases hrequest : y.host.request with
  | none =>
    simp only [driverMove, hrequest] at h
    cases h; exact ⟨id, .inl rfl⟩
  | some r =>
    by_cases hfull : r.want ≤ r.buf.length
    · cases (driverMove_of_full hrequest hfull).symm.trans h; exact ⟨id, .inl rfl⟩
    have hroom := Nat.not_le.mp hfull
    by_cases hread : p.pollsDur = true ∧ r.fresh = false
    · cases (driverMove_of_read hrequest hroom hread).symm.trans h
      exact ⟨id, .inr ⟨_, rfl, .rdreg⟩⟩
    by_cases hheard : y.host.heard = 0
    · have hmove := (driverMove_of_awaiting hrequest hroom hread hheard).symm.trans h
      rcases sequencerMove_cases r hheard with ⟨he, -⟩ | ⟨z, y'', hok, hinvoked, hnoted⟩
      · cases he.symm.trans hmove
      · cases hok.symm.trans hmove
        obtain ⟨hinv, hblock⟩ := hnoted.keeps
        exact ⟨fun hy => hinv (hinvoked.inv hy), hblock ▸ hinvoked.block⟩
    · cases (driverMove_of_playing hrequest hroom hread hheard).symm.trans h
      exact ⟨id, .inr ⟨_, rfl, .fill _⟩⟩

/-! ### The ranges of the host (R144, 70 R204) -/

/-- The host works with a rate, and its tempo is that of the rate. -/
theorem setRate_inv (rate : BitVec 24) {h : HostState} (hinv : h.Inv) : (h.setRate rate).Inv := by
  obtain ⟨hoctave, hdivisor, hdivisor', hbpm, hbpm', -⟩ := hinv
  exact ⟨hoctave, hdivisor, hdivisor', hbpm, hbpm', rfl⟩

/-- The defaults are within the ranges, whatever the host was before (log 19). -/
theorem takeDefaults_inv (p : HostParams) (h : HostState) : (h.takeDefaults p).Inv := by
  have hoctave := clamp_toNat (lo := 0) (hi := 6) (by decide) (by decide) p.defaultOctave
  exact ⟨show (clamp p.defaultOctave 0 6).toNat ≤ 6 by omega, (by decide : 1 ≤ 4), (by decide : 4 ≤ 64),
    (bpmOf_mem _).1, (bpmOf_mem _).2, rfl⟩

theorem afterWord_inv (w : CmdWord) {h : HostState} (hinv : h.Inv) : (h.afterWord w).Inv := by
  unfold HostState.afterWord
  split
  next i _ =>
    cases i with
    | cfgsr sr => exact setRate_inv sr hinv
    | _ => exact hinv
  next => exact hinv

theorem startRequest_inv {n : Nat} {y y' : System} (hinv : y.host.Inv) (h : startRequest n y = .ok y') :
    y'.host.Inv := by
  unfold startRequest at h
  split at h
  · cases h
  · cases h
    dsimp only [System.setRequest]
    split <;> exact hinv

/-- Every event keeps the ranges. -/
theorem event_inv {p : HostParams} {e : Event} {y y' : System} (hinv : y.host.Inv)
    (h : y.event p e = .ok y') : y'.host.Inv := by
  cases e with
  | fillRequest n => exact startRequest_inv hinv h
  | driver => exact (driverMove_keeps h).1 hinv
  | publish t => cases h; exact hinv
  | word a w => cases h; exact afterWord_inv w hinv
  | openDevice a rate => cases h; exact setRate_inv rate (h := y.host) hinv
  | takeDefaults => cases h; exact takeDefaults_inv p y.host
  | reset => cases h; exact hinv

/-- Settles O54: one invocation by `songStep_resolve`, one event by `event_inv`. -/
theorem sequencerKeepsItsRanges : Obligations.SequencerKeepsItsRanges := by
  refine ⟨fun p h hinv => ?_, fun p e y y' => event_inv⟩
  have hstep := songStep_resolve p h
  refine ⟨hstep.inv hinv, hstep.cursor, hstep.script, fun i hi => ?_⟩
  have hcommand := hstep.command i hi
  refine ⟨decodeOfEncode i hcommand.wf, ?_⟩
  cases hcommand with
  | note l a d => exact .inl ⟨_, l, a, d, rfl, (Nat.mod_le _ _).trans hinv.1⟩
  | noten n d => exact .inr (.inl ⟨n, d, rfl⟩)
  | rest d => exact .inr (.inr ⟨d, rfl⟩)

/-! ### A conforming host (R140, R170, 60 R193) -/

/-- A port without words, and no fault so far but `FREQ_RANGE` (60 R193). -/
def LegalSoFar (b : State) : Prop := b.port = [] ∧ ∀ r ∈ b.responses, r.LegalWord

/-- A well-formed instruction has no fault but `FREQ_RANGE`. -/
theorem exec_legalWord {i : Instr} {s t : State} (hwf : i.wf = true) (h : exec i s = .next t) :
    ∃ r : Response, r.LegalWord ∧ t.responses = s.responses ++ [r] := by
  obtain ⟨sr, -, -, rfl⟩ | ⟨rfl, -⟩ | ⟨reg, -, rfl⟩ | ⟨-, rfl⟩ | ⟨o, l, a, d, f, -, -, rfl⟩ |
    ⟨o, l, a, d, -, -, rfl⟩ | ⟨n, d, -, rfl⟩ | ⟨d, -, rfl⟩ | ⟨f, d, -, rfl⟩ | ⟨-, rfl⟩ |
    ⟨c, -, rfl⟩ := exec_cases h
  · exact ⟨_, .inl rfl, rfl⟩ -- `CFGSR`
  · cases hwf -- `CFGSR 0`
  · exact ⟨_, .inl rfl, rfl⟩ -- `RDREG`
  · exact ⟨_, .inl rfl, rfl⟩ -- `CLRERR`
  · exact ⟨_, .inl rfl, rfl⟩ -- `NOTE`, in range
  · exact ⟨_, .inr rfl, rfl⟩ -- `NOTE`, `FREQ_RANGE`
  · exact ⟨_, .inl rfl, rfl⟩ -- `NOTEN`
  · exact ⟨_, .inl rfl, rfl⟩ -- `REST`
  · exact ⟨_, .inl rfl, rfl⟩ -- `TONE`
  · exact ⟨_, .inl rfl, rfl⟩ -- `CANCEL`
  · exact ⟨_, .inl rfl, congrArg (· ++ _) (sampleSteps_responses _ s)⟩ -- `FILL`

/-- A legal word is answered without a fault but `FREQ_RANGE`. -/
theorem LegalSoFar.after_word {b : State} {w : CmdWord} {i : Instr} (h : LegalSoFar b)
    (hdecode : decode w = .ok i) : LegalSoFar (issueWord w b) := by
  obtain ⟨hport, hlegal⟩ := h
  obtain ⟨r, hr, hresponses⟩ := exec_legalWord (encodeOfDecode w i hdecode).1 (exec_issueWord hport hdecode)
  refine ⟨issueWord_port w hport, ?_⟩
  rw [hresponses, List.forall_mem_append, List.forall_mem_singleton]
  exact ⟨hlegal, hr⟩

theorem LegalSoFar.after_driver {b b' : State} (h : LegalSoFar b) (hb : DriverBlock b b') :
    LegalSoFar b' := by
  rcases hb with rfl | ⟨i, rfl, hi⟩
  · exact h
  · exact h.after_word (decodeOfEncode i hi.wf)

/-- The words of a conforming agent once the block has the rate are legal. -/
theorem decode_ok_of_owesAfter {a a' : Agent} {owes : Bool} {w : CmdWord} {g : Bool → Stage} {g' : Stage}
    (h : (owesAfter a' a owes w).map g = some g') : ∃ i, decode w = .ok i := by
  cases hdecode : decode w with
  | ok i => exact ⟨i, rfl⟩
  | error c => simp only [owesAfter, hdecode, Option.map_none, reduceCtorEq] at h

/-- So are all its words. -/
theorem decode_ok_of_after {g g' : Stage} {a : Agent} {w : CmdWord} (h : g.after (.word a w) = some g') :
    ∃ i, decode w = .ok i := by
  cases g with
  | closed => cases h
  | opened a' rate =>
    simp only [Stage.after] at h
    split at h
    next hcfgsr => exact ⟨_, hcfgsr.2⟩
    next =>
      split at h
      · exact decode_ok_of_owesAfter h
      · cases h
  | configured a' owes => exact decode_ok_of_owesAfter h
  | ready a' owes => exact decode_ok_of_owesAfter h

theorem startRequest_block {n : Nat} {y y' : System} (h : startRequest n y = .ok y') :
    y'.block = y.block := by
  unfold startRequest at h
  split at h <;> cases h
  rfl

/-- No event of a conforming host is answered by a fault but `FREQ_RANGE`. -/
theorem LegalSoFar.after_event {p : HostParams} {g g' : Stage} {e : Event} {y y' : System}
    (hlegal : LegalSoFar y.block) (hafter : g.after e = some g') (h : y.event p e = .ok y') :
    LegalSoFar y'.block := by
  cases e with
  | fillRequest n => rw [startRequest_block h]; exact hlegal
  | driver => exact hlegal.after_driver (driverMove_keeps h).2
  | word a w =>
    obtain ⟨i, hdecode⟩ := decode_ok_of_after hafter
    cases h; exact hlegal.after_word hdecode
  | reset => cases h; exact ⟨rfl, nofun⟩
  | publish t | openDevice a rate | takeDefaults => cases h; exact hlegal

/-- Nor is a run of one, from whatever stage. -/
theorem LegalSoFar.after_events {p : HostParams} {es : List Event} {g : Stage} {y y' : System}
    (hlegal : LegalSoFar y.block) (hconforming : Conforming g es = true)
    (h : System.events p es y = .ok y') : LegalSoFar y'.block := by
  induction es generalizing g y with
  | nil => cases h; exact hlegal
  | cons e es ih =>
    rw [Conforming] at hconforming
    rw [System.events] at h
    split at hconforming
    next g' hafter =>
      split at h
      next y1 hevent => exact ih (hlegal.after_event hafter hevent) hconforming h
      next => cases h
    next => cases hconforming

/-- The boot sequence of a device with a rate is a conforming run (70 R202). -/
theorem conforming_bootEvents (a : Agent) {rate : BitVec 24} (h : rate ≠ 0) :
    Conforming .closed (bootEvents a rate) = true := by
  have hdecode : decode (encode (.cfgsr rate)) = .ok (.cfgsr rate) := decodeOfEncode _ (cfgsr_wf h)
  simp only [bootEvents, Conforming, Stage.after, hdecode, and_self, if_true]

/-- Settles O55: a move by `driverMove_keeps`, the boot sequence event by event, a run by
`LegalSoFar.after_events`. -/
theorem conformingHostSendsLegalWords : Obligations.ConformingHostSendsLegalWords := by
  refine ⟨fun p y y' h => ?_, fun p a rate y hrate hport => ?_, fun p es y y' hconforming hport hlegal h =>
    LegalSoFar.after_events ⟨hport, hlegal⟩ hconforming h⟩
  · refine (driverMove_keeps h).2.imp id fun ⟨i, hblock, hi⟩ => ⟨i, hblock, ?_⟩
    cases hi with
    | song hi =>
      cases hi with
      | note l a d => exact .inl ⟨_, l, a, d, rfl⟩
      | noten n d => exact .inr (.inl ⟨n, d, rfl⟩)
      | rest d => exact .inr (.inr (.inl ⟨d, rfl⟩))
    | fill c => exact .inr (.inr (.inr (.inl ⟨c, rfl⟩)))
    | rdreg => exact .inr (.inr (.inr (.inr rfl)))
  · refine ⟨conforming_bootEvents a hrate, _, rfl, ?_⟩
    rw [issueWord_cfgsr hport hrate, afterWord_encode (cfgsr_wf hrate)]
    exact ⟨rfl, rfl, takeDefaults_inv p _, rfl, rfl⟩

end Sys2Proof.Machine
end

section
/-! PROOFS. A callback that nothing interrupts (spec/43_host_operations.md R158 to R160, R162;
70_reset_and_hazards.md R207): it ends within its bound on the moves of the Driver, and delivers the buffer. -/

namespace Sys2Proof.Machine

/-! ### What the block answers the Driver (R159) -/

/-- `RDREG DUR` sent on an empty port (42 R131). -/
theorem issueWord_rdreg_dur {b : State} (hport : b.port = []) :
    issueWord (encode (.rdreg .dur)) b = respond b.dur [] b :=
  issueWord_encode_of_exec hport rfl rfl

theorem lastResponse_respond (v : BitVec 32) (vs : List Sample) (b : State) :
    lastResponse (respond v vs b) = ⟨0, v, vs⟩ :=
  lastResponse_of_append rfl

/-- `FILL` sent on an empty port: its response carries the `DUR` left, and as many samples as it emitted
(41 R108). -/
theorem issueWord_fill (c : BitVec 32) {b : State} (hport : b.port = []) :
    ∃ vs : List Sample, vs.length = fillCount c b ∧
      lastResponse (issueWord (encode (.fill c)) b) = ⟨0, (issueWord (encode (.fill c)) b).dur, vs⟩ := by
  obtain ⟨vs, hout, hlength⟩ := sampleSteps_out (fillCount c b) b
  rw [issueWord_encode_of_exec hport rfl (exec_fill rfl hout)]
  exact ⟨vs, hlength, lastResponse_of_append rfl⟩

/-- A command of the Sequencer that the block accepted leaves `DUR` at its duration (40 R82 to R84). -/
theorem issueWord_dur_of_accepted {o : Nat} {i : Instr} {b : State} (hport : b.port = [])
    (hi : SongCommand o i) (haccepted : (lastResponse (issueWord (encode i) b)).fault = 0) :
    (issueWord (encode i) b).dur = commandDur i := by
  rcases exec_effect (exec_issueWord_encode hport hi.wf) with ⟨c, ht⟩ | ⟨u, v, vs, heffect, ht⟩
  · rw [ht, lastResponse_of_append (raiseFault_responses c b)] at haccepted
    exact absurd haccepted (causeCode_ne_zero c)
  · rw [ht]
    cases hi <;> cases heffect <;> rfl

theorem fillOperand_toNat (room : Nat) : (fillOperand room).toNat = min room (2 ^ 32 - 1) := by
  rw [fillOperand, BitVec.toNat_ofNat, Nat.mod_eq_of_lt (by omega)]

theorem FillRequest.length_silence {r : FillRequest} (h : r.buf.length ≤ r.want) :
    r.silence.buf.length = r.want := by
  rw [FillRequest.silence, List.length_append, List.length_replicate]; omega

/-! ### How many moves are left (R158, 70 R207) -/

/-- What the next turn may cost beyond the samples it makes and the commands it counts: a read, an invocation
of the Sequencer, a `FILL`; a `FILL` that emits nothing, because what the Driver heard was out of date, is
followed by an invocation. -/
def turnCost (p : HostParams) (r : FillRequest) (y : System) : Nat :=
  if p.pollsDur = true ∧ r.fresh = false then 3
  else if y.host.heard = 0 then 2
  else if y.block.dur = 0 then 3
  else 1

/-- A bound on the moves that serve the rest of a request: two for each sample, two for each silent command
that the guard still allows, the present turn; and one, for a full buffer. -/
def movesLeft (p : HostParams) (r : FillRequest) (y : System) : Nat :=
  if r.want ≤ r.buf.length then 1
  else 2 * (r.want - r.buf.length) + 2 * (p.loopGuard - r.guard) + turnCost p r y

theorem turnCost_le_three (p : HostParams) (r : FillRequest) (y : System) : turnCost p r y ≤ 3 := by
  unfold turnCost; split_ifs <;> omega

theorem turnCost_of_unread {p : HostParams} {r : FillRequest} (y : System)
    (h : p.pollsDur = true ∧ r.fresh = false) : turnCost p r y = 3 :=
  if_pos h

theorem turnCost_of_awaiting {p : HostParams} {r : FillRequest} {y : System}
    (h : ¬ (p.pollsDur = true ∧ r.fresh = false)) (hheard : y.host.heard = 0) : turnCost p r y = 2 := by
  rw [turnCost, if_neg h, if_pos hheard]

theorem turnCost_of_playing {p : HostParams} {r : FillRequest} {y : System}
    (h : ¬ (p.pollsDur = true ∧ r.fresh = false)) (hheard : y.host.heard ≠ 0) :
    turnCost p r y = if y.block.dur = 0 then 3 else 1 := by
  rw [turnCost, if_neg h, if_neg hheard]

/-- A fresh response tells the Driver what the block owes. -/
theorem turnCost_of_fresh {p : HostParams} {r : FillRequest} {y : System} (hfresh : r.fresh = true)
    (hheard : y.host.heard = y.block.dur) : turnCost p r y = if y.block.dur = 0 then 2 else 1 := by
  have hread : ¬ (p.pollsDur = true ∧ r.fresh = false) := by
    simp only [hfresh, reduceCtorEq, and_false, not_false_eq_true]
  rw [turnCost, if_neg hread, hheard]
  split <;> rfl

/-- A move makes progress when it fills the buffer, or lowers the bound. -/
theorem movesLeft_lt {p : HostParams} {r r' : FillRequest} {y y' : System} (hroom : r.buf.length < r.want)
    (h : r'.want ≤ r'.buf.length ∨
      2 * (r'.want - r'.buf.length) + 2 * (p.loopGuard - r'.guard) + turnCost p r' y' <
        2 * (r.want - r.buf.length) + 2 * (p.loopGuard - r.guard) + turnCost p r y) :
    movesLeft p r' y' < movesLeft p r y := by
  rw [movesLeft, movesLeft, if_neg hroom.not_ge]
  split <;> omega

/-! ### A request in service -/

/-- The request `r` of `n` samples that began in the system `y0` is in service in `y`: it has at most `n`
samples, and while it has room the script is the one it began with. -/
structure Serving (y0 : System) (n : Nat) (r : FillRequest) (y : System) : Prop where
  request : y.host.request = some r
  want : r.want = n
  buf : r.buf.length ≤ n
  port : y.block.port = []
  audio : y.host.audio = y0.host.audio
  script : r.buf.length < n → y.host.script = y0.host.nextScript

/-- A request begins with an empty buffer and the script it is to work on. -/
theorem serving_of_startRequest (n : Nat) {y : System} (hrequest : y.host.request = none)
    (hport : y.block.port = []) :
    ∃ y', startRequest n y = .ok y' ∧
      Serving y n { want := n, buf := [], guard := 0, fresh := false } y' := by
  cases hpublished : y.host.published with
  | none =>
    have hscript : y.host.nextScript = y.host.script := by rw [HostState.nextScript, hpublished]; rfl
    simp only [startRequest, hrequest, hpublished]
    exact ⟨_, rfl, rfl, rfl, Nat.zero_le n, hport, rfl, fun _ => hscript.symm⟩
  | some t =>
    have hscript : y.host.nextScript = t := by rw [HostState.nextScript, hpublished]; rfl
    simp only [startRequest, hrequest, hpublished]
    exact ⟨_, rfl, rfl, rfl, Nat.zero_le n, hport, rfl, fun _ => hscript.symm⟩

section
variable {p : HostParams} {y0 y : System} {n : Nat} {r : FillRequest} (h : Serving y0 n r y)
  (hroom : r.buf.length < r.want)
include h hroom

/-- The move that reads `DUR`. -/
theorem Serving.after_readMove (hread : p.pollsDur = true ∧ r.fresh = false) :
    Serving y0 n { r with fresh := true } (readMove r y) ∧
      movesLeft p { r with fresh := true } (readMove r y) < movesLeft p r y := by
  have hblock := issueWord_rdreg_dur h.port
  have hheard : (readMove r y).host.heard = (readMove r y).block.dur := by
    simp only [readMove, driverIssue, System.setRequest, hblock, lastResponse_respond, respond_dur]
  refine ⟨⟨rfl, h.want, h.buf, issueWord_port _ h.port, h.audio, h.script⟩, movesLeft_lt hroom (.inr ?_)⟩
  rw [turnCost_of_unread y hread, turnCost_of_fresh rfl hheard]
  dsimp only
  split <;> omega

/-- The move that fills, for what the Driver last heard. -/
theorem Serving.after_fillMove (hread : ¬ (p.pollsDur = true ∧ r.fresh = false)) (hheard : y.host.heard ≠ 0) :
    ∃ r', Serving y0 n r' (fillMove r y) ∧ movesLeft p r' (fillMove r y) < movesLeft p r y := by
  obtain ⟨vs, hlength, hresponse⟩ := issueWord_fill (fillOperand (r.want - r.buf.length)) h.port
  rw [fillCount, fillOperand_toNat] at hlength
  have hbuf : (r.buf ++ vs).length = r.buf.length + vs.length := List.length_append
  have hmove : fillMove r y =
      (driverIssue (.fill (fillOperand (r.want - r.buf.length))) (·.value) y).setRequest
        { r with buf := r.buf ++ vs, fresh := true } := by
    simp only [fillMove, driverIssue, hresponse]
  have hheard' : (fillMove r y).host.heard = (fillMove r y).block.dur := by
    simp only [fillMove, driverIssue, System.setRequest, hresponse]
  refine ⟨{ r with buf := r.buf ++ vs, fresh := true }, ⟨by rw [hmove]; rfl, h.want, ?_,
    issueWord_port _ h.port, h.audio, fun hlt => h.script ?_⟩, movesLeft_lt hroom (.inr ?_)⟩
  · have := h.want; dsimp only; omega
  · dsimp only at hlt; omega
  · rw [turnCost_of_playing hread hheard, turnCost_of_fresh rfl hheard']
    dsimp only
    by_cases hdur : y.block.dur = 0
    · rw [if_pos hdur]
      split <;> omega
    · rw [if_neg hdur]
      have hemits : y.block.dur.toNat ≠ 0 := fun h0 => hdur (BitVec.eq_of_toNat_eq h0)
      split <;> omega

/-- A request whose buffer has been filled with silence. -/
theorem Serving.after_silence {r' : FillRequest} {y' : System} (hwant : r'.want = r.want)
    (hbuf : r'.buf = r.buf) (hrequest : y'.host.request = some r'.silence) (hport : y'.block.port = [])
    (haudio : y'.host.audio = y.host.audio) :
    Serving y0 n r'.silence y' ∧ movesLeft p r'.silence y' < movesLeft p r y := by
  have hn : r'.want = n := hwant.trans h.want
  have hfull : r'.silence.buf.length = n :=
    (FillRequest.length_silence (by rw [hwant, hbuf]; exact hroom.le)).trans hn
  exact ⟨⟨hrequest, hn, hfull.le, hport, haudio.trans h.audio, fun hlt => absurd hfull hlt.ne⟩,
    movesLeft_lt hroom (.inl (hn.trans hfull.symm).le)⟩

/-- The move that invokes the Sequencer, once its outcome is noted. -/
theorem Serving.after_invocation {z y' : System} (hread : ¬ (p.pollsDur = true ∧ r.fresh = false))
    (hheard : y.host.heard = 0) (hinvoked : Invoked p y z) (hnoted : Noted p y z r y') :
    ∃ r', Serving y0 n r' y' ∧ movesLeft p r' y' < movesLeft p r y := by
  have hport : z.block.port = [] := by
    rcases hinvoked.block with hz | ⟨i, hz, -⟩ <;> rw [hz]
    · exact h.port
    · exact issueWord_port _ h.port
  obtain ⟨hscript, haudio⟩ := hinvoked.keeps
  cases hnoted with
  | aborted why g f =>
    exact ⟨_, h.after_silence hroom (r' := { r with guard := g, fresh := f }) rfl rfl rfl hport haudio⟩
  | ended => exact ⟨_, h.after_silence hroom rfl rfl rfl hport haudio⟩
  | counted r' hwant hbuf hcounted =>
    refine ⟨r', ⟨rfl, hwant.trans h.want, hbuf ▸ h.buf, hport, haudio.trans h.audio,
      fun hlt => hscript.trans (h.script (hbuf ▸ hlt))⟩, movesLeft_lt hroom (.inr ?_)⟩
    rw [hwant, hbuf, turnCost_of_awaiting hread hheard]
    cases hcounted with
    | silent hguard hle hheard' =>
      have := turnCost_le_three p r' (z.setRequest r')
      omega
    | sounding i hguard hfresh hcommand hblock haccepted hheard' hdur =>
      have hi := (songStep_resolve p y.host).command i hcommand
      have hzdur : z.block.dur = commandDur i := by
        rw [hblock] at haccepted ⊢
        exact issueWord_dur_of_accepted h.port hi haccepted
      have hcost := turnCost_of_fresh (p := p) (y := z.setRequest r') hfresh (hheard'.trans hzdur.symm)
      rw [show (z.setRequest r').block.dur = commandDur i from hzdur, if_neg hdur] at hcost
      omega

/-- A move while there is room makes progress, or meets a form the source leaves open. -/
theorem Serving.progress :
    (driverMove p y = .error .unsettledScript ∧ (resolve p y.host).1 = .unsettled) ∨
    ∃ y' r', driverMove p y = .ok y' ∧ Serving y0 n r' y' ∧ movesLeft p r' y' < movesLeft p r y := by
  by_cases hread : p.pollsDur = true ∧ r.fresh = false
  · exact .inr ⟨_, _, driverMove_of_read h.request hroom hread, h.after_readMove hroom hread⟩
  by_cases hheard : y.host.heard = 0
  · rw [driverMove_of_awaiting h.request hroom hread hheard]
    rcases sequencerMove_cases r hheard with hstop | ⟨z, y', hmove, hinvoked, hnoted⟩
    · exact .inl hstop
    · obtain ⟨r', hserving, hlt⟩ := h.after_invocation hroom hread hheard hinvoked hnoted
      exact .inr ⟨y', r', hmove, hserving, hlt⟩
  · obtain ⟨r', hserving, hlt⟩ := h.after_fillMove hroom hread hheard
    exact .inr ⟨_, r', driverMove_of_playing h.request hroom hread hheard, hserving, hlt⟩

end

/-! ### The callback -/

theorem driverMoves_of_none (p : HostParams) (k : Nat) {y : System} (h : y.host.request = none) :
    driverMoves p k y = .ok y := by
  cases k with
  | zero => rfl
  | succ k => exact if_pos h

theorem driverMoves_of_ok {p : HostParams} {y y' : System} {r : FillRequest} (k : Nat)
    (hrequest : y.host.request = some r) (h : driverMove p y = .ok y') :
    driverMoves p (k + 1) y = driverMoves p k y' := by
  rw [driverMoves, if_neg (by rw [hrequest]; exact Option.some_ne_none r), h]

theorem driverMoves_of_error {p : HostParams} {y : System} {r : FillRequest} {e : HostStop} (k : Nat)
    (hrequest : y.host.request = some r) (h : driverMove p y = .error e) :
    driverMoves p (k + 1) y = .error e := by
  rw [driverMoves, if_neg (by rw [hrequest]; exact Option.some_ne_none r), h]

/-- What a callback of `n` samples in `y0` comes to: the buffer is delivered, or some invocation on its script
meets a form the source leaves open. -/
def Served (p : HostParams) (y0 : System) (n : Nat) (o : Except HostStop System) : Prop :=
  (∃ y' buf, o = .ok y' ∧ y'.host.request = none ∧
    y'.host.audio = y0.host.audio ++ buf ∧ buf.length = n) ∨
  (o = .error .unsettledScript ∧
    ∃ h : HostState, h.script = y0.host.nextScript ∧ (resolve p h).1 = .unsettled)

/-- A full buffer is delivered at the next move. -/
theorem Serving.served_of_full {p : HostParams} {y0 y : System} {n : Nat} {r : FillRequest}
    (h : Serving y0 n r y) (hfull : r.want ≤ r.buf.length) (k : Nat) :
    Served p y0 n (driverMoves p (k + 1) y) := by
  rw [driverMoves_of_ok k h.request (driverMove_of_full h.request hfull), driverMoves_of_none p k rfl]
  refine .inl ⟨_, r.buf, rfl, rfl, ?_, le_antisymm h.buf (h.want ▸ hfull)⟩
  rw [← h.audio]; rfl

/-- As many moves as `movesLeft` says serve a request. -/
theorem Serving.served {p : HostParams} {y0 y : System} {n : Nat} {r : FillRequest} {k : Nat}
    (h : Serving y0 n r y) (hk : movesLeft p r y ≤ k) : Served p y0 n (driverMoves p k y) := by
  induction k generalizing r y with
  | zero =>
    unfold movesLeft at hk
    split at hk <;> omega
  | succ k ih =>
    by_cases hfull : r.want ≤ r.buf.length
    · exact h.served_of_full hfull k
    have hroom := Nat.not_le.mp hfull
    rcases h.progress (p := p) hroom with ⟨hstop, hunsettled⟩ | ⟨y', r', hmove, h', hlt⟩
    · rw [driverMoves_of_error k h.request hstop]
      exact .inr ⟨rfl, y.host, h.script (h.want ▸ hroom), hunsettled⟩
    · rw [driverMoves_of_ok k h.request hmove]
      exact ih h' (by omega)

/-- Every callback, in every state of block and host. -/
theorem served_callback (p : HostParams) (n : Nat) {y : System} (hrequest : y.host.request = none)
    (hport : y.block.port = []) : Served p y n (callback p n y) := by
  obtain ⟨y', hstart, hserving⟩ := serving_of_startRequest n hrequest hport
  simp only [callback, hstart]
  refine hserving.served ?_
  have := turnCost_le_three p { want := n, buf := [], guard := 0, fresh := false } y'
  rw [movesLeft, moveBound]
  split
  · omega
  · dsimp only [List.length_nil]; omega

/-- Settles O58: `served_callback`, whose second case a settled script excludes. -/
theorem callbackDeliversExactlyTheBuffer : Obligations.CallbackDeliversExactlyTheBuffer := by
  constructor
  · intro p n y hrequest hport hsettled
    rcases served_callback p n hrequest hport with hserved | ⟨-, h, hscript, hunsettled⟩
    · exact hserved
    · exact absurd hunsettled (hsettled h hscript)
  · intro p n y e hrequest hport herror
    rcases served_callback p n hrequest hport with ⟨y', buf, hok, -⟩ | ⟨hstop, hunsettled⟩
    · cases hok.symm.trans herror
    · cases hstop.symm.trans herror
      exact ⟨rfl, hunsettled⟩

end Sys2Proof.Machine
end

section
/-! PROOFS. Callbacks that fall silent (spec/43_host_operations.md R156 to R158): a script that starts no note
before it aborts is emptied within one request, and the block is not touched. -/

namespace Sys2Proof.Machine

/-! ### Several moves (R159) -/

/-- From `y` the Driver comes to `z` by `j` moves. -/
def Leads (p : HostParams) (j : Nat) (y z : System) : Prop :=
  ∀ k, driverMoves p (k + j) y = driverMoves p k z

theorem leads_refl (p : HostParams) (y : System) : Leads p 0 y y := fun _ => rfl

theorem leads_of_move {p : HostParams} {y z : System} {r : FillRequest} (hrequest : y.host.request = some r)
    (h : driverMove p y = .ok z) : Leads p 1 y z :=
  fun k => driverMoves_of_ok k hrequest h

theorem Leads.trans {p : HostParams} {i j : Nat} {x y z : System} (hxy : Leads p i x y)
    (hyz : Leads p j y z) : Leads p (j + i) x z := fun k => by
  rw [← Nat.add_assoc, hxy, hyz]

/-- Moves that serve the request are all that any greater number of moves makes. -/
theorem Leads.driverMoves_eq {p : HostParams} {j k : Nat} {y z : System} (h : Leads p j y z)
    (hz : z.host.request = none) (hj : j ≤ k) : driverMoves p k y = .ok z := by
  rw [← Nat.sub_add_cancel hj, h, driverMoves_of_none p _ hz]

/-! ### A request that is silent so far -/

/-- From `s` to `t` the block did nothing but answer reads of `DUR`, and those only for a Driver that polls. -/
structure OnlyRead (p : HostParams) (s t : State) : Prop where
  frame : { t with responses := s.responses } = s
  same : p.pollsDur = false → t = s

theorem onlyRead_refl (p : HostParams) (s : State) : OnlyRead p s s := ⟨rfl, fun _ => rfl⟩

theorem OnlyRead.dur {p : HostParams} {s t : State} (h : OnlyRead p s t) : t.dur = s.dur := by
  rw [← h.frame]

theorem OnlyRead.port {p : HostParams} {s t : State} (h : OnlyRead p s t) : t.port = s.port := by
  rw [← h.frame]

/-- One read more. -/
theorem OnlyRead.respond {p : HostParams} {s t : State} (h : OnlyRead p s t) (hpolls : p.pollsDur = true)
    (v : BitVec 32) : OnlyRead p s (respond v [] t) :=
  ⟨h.frame, fun hnot => absurd (hpolls.symm.trans hnot) nofun⟩

/-- The Driver finds, or will find by its read, that no note is owed: the premise of R156 and R158 on the
system `y0` in which the request begins. -/
def Awaiting (p : HostParams) (y0 : System) (heard : BitVec 32) : Prop :=
  p.pollsDur = true ∧ y0.block.dur = 0 ∨ p.pollsDur = false ∧ heard = 0

/-- The request `r` of `n` samples, which began in `y0`, has no sample and no warning yet in `y`, and the block is
as it was. -/
structure Silent (p : HostParams) (y0 : System) (n : Nat) (r : FillRequest) (y : System) : Prop where
  request : y.host.request = some r
  want : r.want = n
  buf : r.buf = []
  audio : y.host.audio = y0.host.audio
  warnings : y.host.warnings = y0.host.warnings
  block : OnlyRead p y0.block y.block

/-- A request of the script in work, with none published, starts silent and leaves the script and the cursor. -/
theorem silent_of_startRequest (p : HostParams) (n : Nat) {y : System} (hrequest : y.host.request = none)
    (hpublished : y.host.published = none) :
    ∃ y', startRequest n y = .ok y' ∧ Silent p y n { want := n, buf := [], guard := 0, fresh := false } y' ∧
      y'.host.script = y.host.script ∧ y'.host.cursor = y.host.cursor ∧ y'.host.heard = y.host.heard := by
  simp only [startRequest, hrequest, hpublished]
  exact ⟨_, rfl, ⟨rfl, rfl, rfl, rfl, rfl, onlyRead_refl p _⟩, rfl, rfl, rfl⟩

section
variable {p : HostParams} {y0 y : System} {n : Nat} {r : FillRequest} (h : Silent p y0 n r y)
include h

theorem Silent.room (hn : n ≠ 0) : r.buf.length < r.want := by
  rw [h.buf, h.want]; exact Nat.pos_of_ne_zero hn

/-- At most one move, a read, comes before the Driver invokes the Sequencer; it leaves the host's script. -/
theorem Silent.leads_to_turn (hport : y0.block.port = []) (hn : n ≠ 0) (hfresh : r.fresh = false)
    (hawaiting : Awaiting p y0 y.host.heard) :
    ∃ y' r' j, j ≤ 1 ∧ Leads p j y y' ∧ Silent p y0 n r' y' ∧ r'.guard = r.guard ∧ y'.host.heard = 0 ∧
      y'.host.script = y.host.script ∧ y'.host.cursor = y.host.cursor ∧
      driverMove p y' = sequencerMove p r' y' := by
  rcases hawaiting with ⟨hpolls, hdur⟩ | ⟨hpolls, hheard⟩
  · have hread : p.pollsDur = true ∧ r.fresh = false := ⟨hpolls, hfresh⟩
    have hblock := issueWord_rdreg_dur (h.block.port.trans hport)
    have hheard : (readMove r y).host.heard = 0 := by
      simp only [readMove, driverIssue, System.setRequest, hblock, lastResponse_respond, h.block.dur, hdur]
    have hsilent : Silent p y0 n { r with fresh := true } (readMove r y) := by
      refine ⟨rfl, h.want, h.buf, h.audio, h.warnings, ?_⟩
      simp only [readMove, driverIssue, System.setRequest, hblock]
      exact h.block.respond hpolls _
    exact ⟨readMove r y, _, 1, le_rfl, leads_of_move h.request (driverMove_of_read h.request (h.room hn) hread),
      hsilent, rfl, hheard, rfl, rfl, driverMove_of_awaiting rfl (h.room hn) (fun hn => nomatch hn.2) hheard⟩
  · have hread : ¬ (p.pollsDur = true ∧ r.fresh = false) := fun hn => absurd (hn.1.symm.trans hpolls) nofun
    exact ⟨y, r, 0, Nat.zero_le 1, leads_refl p y, h, rfl, hheard, rfl, rfl,
      driverMove_of_awaiting h.request (h.room hn) hread hheard⟩

end

/-- What a callback of `n` samples in `y0` comes to when its script aborts in silence: the claims of R156 and
R158. -/
def FallsSilent (p : HostParams) (y0 : System) (n : Nat) (why : AbortCause) (y' : System) : Prop :=
  { y'.block with responses := y0.block.responses } = y0.block ∧
    (p.pollsDur = false → y'.block = y0.block) ∧ y'.host.script = [] ∧
    y'.host.warnings = y0.host.warnings ++ [why] ∧
    y'.host.audio = y0.host.audio ++ List.replicate n 0

/-- An abort of a silent request fills the buffer with silence, which the next move delivers. -/
theorem Silent.leads_of_abort {p : HostParams} {y0 y : System} {n : Nat} {r : FillRequest}
    (h : Silent p y0 n r y) (why : AbortCause) :
    ∃ z, Leads p 1 (abortRequest why r y) z ∧ z.host.request = none ∧ FallsSilent p y0 n why z := by
  have hsilence : r.silence.buf = List.replicate n 0 := by
    simp only [FillRequest.silence, h.buf, h.want, List.nil_append, List.length_nil, Nat.sub_zero]
  have hfull : r.silence.want ≤ r.silence.buf.length := by
    rw [hsilence, List.length_replicate]; exact h.want.le
  refine ⟨_, leads_of_move rfl (driverMove_of_full rfl hfull), rfl, h.block.frame, h.block.same, rfl,
    congrArg (· ++ [why]) h.warnings, ?_⟩
  rw [← hsilence, ← h.audio]
  rfl

/-- An invocation of the Sequencer that gives no block command leaves a silent request silent. -/
theorem Silent.of_resolve {p : HostParams} {y0 y : System} {n : Nat} {r : FillRequest} {a : Resolved}
    {h' : HostState} (h : Silent p y0 n r y) (hx : resolve p y.host = (a, h')) (g : Nat) (f : Bool) :
    Silent p y0 n { r with guard := g, fresh := f }
      (({ y with host := h' } : System).setRequest { r with guard := g, fresh := f }) := by
  have hstep := songStep_resolve p y.host
  rw [hx] at hstep
  exact ⟨rfl, h.want, h.buf, hstep.audio.trans h.audio, hstep.warnings.trans h.warnings, h.block⟩

/-! ### An unknown character (R156) -/

/-- Settles O56: the first invocation of the request aborts, after a read where the Driver polls. -/
theorem unknownCommandFallsSilent : Obligations.UnknownCommandFallsSilent := by
  intro p n y c text hrequest hpublished hport hn hawaiting hahead hc hunknown
  obtain ⟨y1, hstart, hsilent1, hscript1, hcursor1, hheard1⟩ :=
    silent_of_startRequest p n hrequest hpublished
  obtain ⟨y2, r2, j, hj, hleads, hsilent2, -, -, hscript2, hcursor2, hmove⟩ :=
    hsilent1.leads_to_turn hport hn rfl (by rw [hheard1]; exact hawaiting)
  have hahead2 : y2.host.ahead p = c :: text := by
    rw [← hahead]
    simp only [HostState.ahead, HostState.skipSpace, HostState.advance, hscript2, hscript1, hcursor2, hcursor1]
  have hx := resolve_of_unknown hahead2 hc hunknown
  rw [sequencerMove, hx] at hmove
  obtain ⟨z, hleads', hz, hfalls⟩ := (hsilent2.of_resolve hx r2.guard r2.fresh).leads_of_abort .malformedCommand
  refine ⟨z, ?_, hfalls⟩
  simp only [callback, hstart]
  refine ((hleads.trans (leads_of_move hsilent2.request hmove)).trans hleads').driverMoves_eq hz ?_
  unfold moveBound
  omega

/-! ### A runaway script (R158) -/

/-- The argument of `L1`, before the next `L1` or the end. -/
theorem parseInt_one {p : HostParams} (hdigits : 1 ≤ p.argDigits) (k : Nat) :
    parseInt p (ascii '1' :: (List.replicate k [ascii 'L', ascii '1']).flatten) = .int 1 1 := by
  have hdigit : (ascii '1' :: (List.replicate k [ascii 'L', ascii '1']).flatten).takeWhile isDigit =
      [ascii '1'] := by
    cases k <;> rfl
  have hneg : (ascii '1' :: (List.replicate k [ascii 'L', ascii '1']).flatten).head? ≠ some (ascii '-') := by
    rw [List.head?_cons]; decide
  have hone : ¬ p.argDigits < [ascii '1'].length := Nat.not_lt.mpr hdigits
  simp only [parseInt, hneg, if_false, hdigit]
  rw [if_neg (List.cons_ne_nil _ _), if_neg hone]
  rfl

/-- An invocation on the repetition `i` of `L1`: a command of the host alone, which takes two bytes. -/
theorem resolve_repeated {p : HostParams} {h : HostState} {m i : Nat} (hspace : ascii 'L' ∉ p.whitespace)
    (hdigits : 1 ≤ p.argDigits) (hscript : h.script = (List.replicate m [ascii 'L', ascii '1']).flatten)
    (hcursor : h.cursor = 2 * i) (hi : i < m) :
    ∃ h', resolve p h = (.quiet, h') ∧ h'.cursor = 2 * (i + 1) := by
  obtain ⟨k, rfl⟩ := Nat.exists_eq_add_of_lt hi
  have hdrop : h.script.drop h.cursor =
      ascii 'L' :: ascii '1' :: (List.replicate k [ascii 'L', ascii '1']).flatten := by
    rw [hscript, hcursor, Nat.add_assoc, List.replicate_add, List.flatten_append, List.drop_left']
    · rfl
    · simp [Nat.mul_comm]
  have hskip : h.skipSpace p = h := by
    rw [HostState.skipSpace, hdrop, List.takeWhile_cons_of_neg (by simpa using hspace)]
    rfl
  have hahead : h.ahead p = ascii 'L' :: ascii '1' :: (List.replicate k [ascii 'L', ascii '1']).flatten := by
    rw [HostState.ahead, hskip, hdrop]
  refine ⟨_, resolve_of_int hahead (parseInt_one hdigits k) (k := fun n h' => (.quiet, setDivisor n h'))
    (u := ascii 'L') rfl (by decide) fun _ => rfl, ?_⟩
  rw [hskip]
  show h.cursor + 2 = 2 * (i + 1)
  omega

/-- The request `r` in `y` stands before the repetition `i` of `L1`, with `i` commands counted. -/
structure AtRepetition (p : HostParams) (y0 : System) (n m i : Nat) (r : FillRequest) (y : System) : Prop where
  silent : Silent p y0 n r y
  guard : r.guard = i
  fresh : r.fresh = false
  awaiting : Awaiting p y0 y.host.heard
  script : y.host.script = (List.replicate m [ascii 'L', ascii '1']).flatten
  cursor : y.host.cursor = 2 * i

section
variable {p : HostParams} {y0 y : System} {n m i : Nat} {r : FillRequest} (h : AtRepetition p y0 n m i r y)
  (hport : y0.block.port = []) (hn : n ≠ 0) (hspace : ascii 'L' ∉ p.whitespace) (hdigits : 1 ≤ p.argDigits)
include h hport hn hspace hdigits

/-- One repetition takes two moves at most. It is counted, and aborts the script if the count exceeds the
guard. -/
theorem AtRepetition.next (hi : i < m) : ∃ j ≤ 2,
    (i + 1 ≤ p.loopGuard ∧ ∃ y' r', Leads p j y y' ∧ AtRepetition p y0 n m (i + 1) r' y') ∨
    ∃ y' r', Silent p y0 n r' y' ∧ Leads p j y (abortRequest .runawayScript r' y') := by
  obtain ⟨y1, r1, j, hj, hleads, hsilent, hguard, hheard, hscript, hcursor, hmove⟩ :=
    h.silent.leads_to_turn hport hn h.fresh h.awaiting
  obtain ⟨h', hx, hcursor'⟩ :=
    resolve_repeated hspace hdigits (hscript.trans h.script) (hcursor.trans h.cursor) hi
  have hstep := songStep_resolve p y1.host
  rw [hx] at hstep
  rw [sequencerMove, hx] at hmove
  have hleads' := hleads.trans (leads_of_move hsilent.request hmove)
  have hsilent' := hsilent.of_resolve hx (r1.guard + 1) false
  rw [← h.guard, ← hguard]
  refine ⟨1 + j, by omega, ?_⟩
  by_cases hlimit : p.loopGuard < r1.guard + 1
  · simp only [countInvocation, if_true, if_pos hlimit] at hleads'
    exact .inr ⟨_, _, hsilent', hleads'⟩
  · simp only [countInvocation, if_true, if_neg hlimit] at hleads'
    refine .inl ⟨Nat.not_lt.mp hlimit, _, _, hleads', hsilent', rfl, rfl, ?_, ?_, ?_⟩
    · exact h.awaiting.imp id fun hpolls => ⟨hpolls.1, hstep.heard.trans hheard⟩
    · exact hstep.script.trans (hscript.trans h.script)
    · rw [hguard, h.guard]; exact hcursor'

/-- Every repetition up to the guard is counted, and the next one aborts: two moves each, and one that delivers. -/
theorem AtRepetition.leads_to_silence {d : Nat} (hi : i ≤ p.loopGuard) (hm : p.loopGuard < m)
    (hd : p.loopGuard < i + d) : ∃ z, ∃ j ≤ 2 * d + 1,
      Leads p j y z ∧ z.host.request = none ∧ FallsSilent p y0 n .runawayScript z := by
  induction d generalizing i r y with
  | zero => omega
  | succ d ih =>
    obtain ⟨j, hj, ⟨hi', y', r', hleads, hnext⟩ | ⟨y', r', hsilent, hleads⟩⟩ :=
      h.next hport hn hspace hdigits (by omega)
    · obtain ⟨z, j', hj', hleads', hz⟩ := ih hnext hi' (by omega)
      exact ⟨z, j' + j, by omega, hleads.trans hleads', hz⟩
    · obtain ⟨z, hleads', hz⟩ := hsilent.leads_of_abort .runawayScript
      exact ⟨z, 1 + j, by omega, hleads.trans hleads', hz⟩

end

/-- Settles O57: by `AtRepetition.leads_to_silence`, from the first repetition on. -/
theorem runawayScriptFallsSilent : Obligations.RunawayScriptFallsSilent := by
  intro p n y m hrequest hpublished hport hn hawaiting hscript hcursor hm hspace hdigits
  obtain ⟨y1, hstart, hsilent, hscript1, hcursor1, hheard1⟩ :=
    silent_of_startRequest p n hrequest hpublished
  have hfirst : AtRepetition p y n m 0 _ y1 :=
    ⟨hsilent, rfl, rfl, by rw [hheard1]; exact hawaiting, hscript1.trans hscript, hcursor1.trans hcursor⟩
  obtain ⟨z, j, hj, hleads, hz, hfalls⟩ :=
    hfirst.leads_to_silence hport hn hspace hdigits (d := p.loopGuard + 1) (Nat.zero_le _) hm (by omega)
  refine ⟨z, ?_, hfalls⟩
  simp only [callback, hstart]
  refine hleads.driverMoves_eq hz ?_
  unfold moveBound
  omega

end Sys2Proof.Machine
end

section
/-! PROOFS. Faults (spec/60_exceptions.md R180 to R186): the fault entry, how long the fault stays recorded, and
that no command but `RDREG STATUS` depends on the record. -/

namespace Sys2Proof

/-- A legal word is the encoding of the one well-formed instruction it decodes to. -/
theorem decode_eq_ok_iff (w : CmdWord) (i : Instr) : decode w = .ok i ↔ i.wf = true ∧ encode i = w := by
  constructor
  · exact encodeOfDecode w i
  · rintro ⟨hwf, rfl⟩
    exact decodeOfEncode i hwf

end Sys2Proof

namespace Sys2Proof.Machine

/-! ### The fault entry (R185) -/

/-- A step on an illegal word is the fault entry. -/
theorem step_of_decode_error {s : State} {w : CmdWord} {ws : List CmdWord} {c : Cause}
    (hport : s.port = w :: ws) (h : decode w = .error c) :
    step s = .next (raiseFault c (s.setPort ws)) := by
  rw [step_cons s w ws hport, execWord_of_decode_error h]

/-- A step on a `NOTE` whose frequency leaves the range is the fault entry. -/
theorem step_of_freqRange {s : State} {w : CmdWord} {ws : List CmdWord} {o : Fin 8} {l : Letter}
    {a : Accidental} {d : BitVec 32} (hport : s.port = w :: ws) (hdecode : decode w = .ok (.note o l a d))
    (h : shiftFreq (lookupLetter s.tables o l) a = none) :
    step s = .next (raiseFault .freqRange (s.setPort ws)) := by
  rw [step_cons s w ws hport, execWord_of_decode_ok hdecode]
  exact execNote_of_none (s := s.setPort ws) d h

/-- Settles O8: each of the three causes leads to the fault entry, which writes what R185 lists. -/
theorem faultEntryChangesOnlyFaultState : Obligations.FaultEntryChangesOnlyFaultState := by
  rintro s w ws code hport (⟨hdecode, rfl⟩ | ⟨hdecode, rfl⟩ | ⟨o, l, a, d, hdecode, rfl, hrange⟩)
  · exact step_of_decode_error hport hdecode
  · exact step_of_decode_error hport hdecode
  · exact step_of_freqRange hport hdecode ((shiftFreq_eq_none_iff _ a).mpr hrange)

/-! ### How long a fault stays recorded (R186) -/

/-- No effect but that of `CLRERR` touches the fault fields. -/
theorem Effect.fault_fields {s u : State} {i : Instr} (h : Effect s i u) (hi : i ≠ .clrerr) :
    u.err = s.err ∧ u.cause = s.cause := by
  cases h with
  | clrerr => exact absurd rfl hi
  | fill c => exact ⟨sampleSteps_err _ s, sampleSteps_cause _ s⟩
  | _ => exact ⟨rfl, rfl⟩

/-- Settles O46: `CLRERR` acknowledges; a further fault keeps the first `CAUSE`, and no other effect touches
the fault fields. -/
theorem faultFlagStaysUntilClrerr : Obligations.FaultFlagStaysUntilClrerr := by
  intro s t w ws hport herr hstep
  constructor
  · rintro rfl
    have hdecode := decodeOfEncode .clrerr rfl
    cases (stepRunsTheDecodedCommand s _ ws _ hport hdecode).symm.trans hstep
    exact ⟨rfl, rfl⟩
  · intro hw
    rcases step_effect hport hstep with ⟨c, rfl⟩ | ⟨i, u, v, vs, hdecode, heffect, rfl⟩
    · exact ⟨rfl, if_pos herr⟩
    · have hi : i ≠ .clrerr := by
        rintro rfl
        exact hw ((decode_eq_ok_iff w _).mp hdecode).2.symm
      obtain ⟨hu, hcause⟩ := heffect.fault_fields hi
      exact ⟨hu.trans herr, hcause⟩

/-! ### No command depends on the record of a fault (R186, 10_state.md R25) -/

/-- The state with another record of its past: the fault fields and the responses already given. -/
def State.withRecord (s : State) (e : Bool) (c : BitVec 4) (rs : List Response) : State :=
  { s with err := e, cause := c, responses := rs }

/-- Two states alike but for the fault fields differ in their record alone. -/
theorem SameButFault.eq_withRecord {s t : State} (h : SameButFault s t) :
    t = s.withRecord t.err t.cause t.responses := by
  obtain ⟨hfreq, hdur, hphase, hsrate, hout, hport, htables⟩ := h
  rw [State.withRecord, hfreq, hdur, hphase, hsrate, hout, hport, htables]

theorem sameButFault_withRecord (s : State) (e : Bool) (c : BitVec 4) (rs : List Response) :
    SameButFault s (s.withRecord e c rs) :=
  ⟨rfl, rfl, rfl, rfl, rfl, rfl, rfl⟩

/-- A sample step neither reads nor writes the record. -/
theorem sampleStep_withRecord (s : State) (e : Bool) (c : BitVec 4) (rs : List Response) :
    sampleStep (s.withRecord e c rs) = (sampleStep s).withRecord e c rs := by
  rcases sampleStep_cases s with ⟨hf, h⟩ | ⟨hf, h⟩ <;> rw [h]
  · exact if_pos hf
  · exact if_neg hf

theorem sampleSteps_withRecord (k : Nat) (s : State) (e : Bool) (c : BitVec 4) (rs : List Response) :
    sampleSteps k (s.withRecord e c rs) = (sampleSteps k s).withRecord e c rs := by
  induction k generalizing s with
  | zero => rfl
  | succ k ih => rw [sampleSteps, sampleStep_withRecord, ih, sampleSteps]

/-- A command that takes `s` to `s'` has the outcome `o` from `s` with another record, whose responses are
`rs`: it leaves `s'` but for the record, and adds the same response unless it `sees` the record. -/
def AlikeOutcome (sees : Prop) (s s' : State) (rs : List Response)
    (o : Host.Outcome State Fault Refusal) : Prop :=
  ∃ e c r, o = .next (s'.withRecord e c (rs ++ [r])) ∧ (¬ sees → s'.responses = s.responses ++ [r])

/-- The fault entry reads the record, but only to write the fault fields. -/
theorem raiseFault_alike (sees : Prop) (cause : Cause) (s : State) (e : Bool) (c : BitVec 4)
    (rs : List Response) :
    AlikeOutcome sees s (raiseFault cause s) rs (.next (raiseFault cause (s.withRecord e c rs))) :=
  ⟨_, _, _, rfl, fun _ => rfl⟩

/-- An instruction does the same whatever the record, and only `RDREG STATUS` answers it. -/
theorem exec_withRecord {i : Instr} {s s' : State} (e : Bool) (c : BitVec 4) (rs : List Response)
    (h : exec i s = .next s') :
    AlikeOutcome (i = .rdreg .status) s s' rs (exec i (s.withRecord e c rs)) := by
  obtain ⟨sr, rfl, h0, rfl⟩ | ⟨rfl, rfl⟩ | ⟨r, rfl, rfl⟩ | ⟨rfl, rfl⟩ | ⟨o, l, a, d, f, rfl, hf, rfl⟩ |
    ⟨o, l, a, d, rfl, hf, rfl⟩ | ⟨n, d, rfl, rfl⟩ | ⟨d, rfl, rfl⟩ | ⟨f, d, rfl, rfl⟩ | ⟨rfl, rfl⟩ |
    ⟨cnt, rfl, rfl⟩ := exec_cases h
  · exact ⟨e, c, _, if_neg h0, fun _ => rfl⟩ -- `CFGSR`, a rate that is not 0
  · exact raiseFault_alike _ .illegalOperand s e c rs -- `CFGSR 0`
  · -- `RDREG`: every other register stands outside the record
    refine ⟨e, c, _, rfl, fun hr => ?_⟩
    cases r with
    | status => exact absurd rfl hr
    | _ => rfl
  · exact ⟨false, 0, _, rfl, fun _ => rfl⟩ -- `CLRERR`
  · -- `NOTE`, in range
    exact ⟨e, c, _, execNote_of_some (s := s.withRecord e c rs) d hf, fun _ => rfl⟩
  · -- `NOTE`, `FREQ_RANGE`
    rw [exec, execNote_of_none (s := s.withRecord e c rs) d hf]
    exact raiseFault_alike _ .freqRange s e c rs
  · exact ⟨e, c, _, rfl, fun _ => rfl⟩ -- `NOTEN`
  · exact ⟨e, c, _, rfl, fun _ => rfl⟩ -- `REST`
  · exact ⟨e, c, _, rfl, fun _ => rfl⟩ -- `TONE`
  · exact ⟨e, c, _, rfl, fun _ => rfl⟩ -- `CANCEL`
  · -- `FILL`: its sample steps leave the record
    have hcount : fillCount cnt (s.withRecord e c rs) = fillCount cnt s := rfl
    rw [exec, execFill, hcount, sampleSteps_withRecord]
    exact ⟨e, c, _, rfl, fun _ => congrArg (· ++ _) (sampleSteps_responses _ s)⟩

/-- The same of a word, legal or not. -/
theorem execWord_withRecord {w : CmdWord} {s s' : State} (e : Bool) (c : BitVec 4) (rs : List Response)
    (h : execWord w s = .next s') :
    AlikeOutcome (w = encode (.rdreg .status)) s s' rs (execWord w (s.withRecord e c rs)) := by
  cases hdecode : decode w with
  | error cause =>
    rw [execWord_of_decode_error hdecode] at h ⊢
    cases h
    exact raiseFault_alike _ cause s e c rs
  | ok i =>
    rw [execWord_of_decode_ok hdecode] at h ⊢
    obtain ⟨e', c', r, hexec, hr⟩ := exec_withRecord e c rs h
    refine ⟨e', c', r, hexec, fun hw => hr ?_⟩
    rintro rfl
    exact hw ((decode_eq_ok_iff w _).mp hdecode).2.symm

/-- Settles O47: the second state is the first with another record, and no word does anything else for
that. -/
theorem faultFlagNeverChangesExecution : Obligations.FaultFlagNeverChangesExecution := by
  intro s t s' t' w ws hsame hport hs ht
  rw [step_cons s w ws hport] at hs
  obtain ⟨e, c, r, hexec, hr⟩ := execWord_withRecord t.err t.cause t.responses hs
  have hstep : step t = execWord w ((s.setPort ws).withRecord t.err t.cause t.responses) := by
    rw [hsame.eq_withRecord]
    exact step_cons _ w ws hport
  cases ht.symm.trans (hstep.trans hexec)
  exact ⟨sameButFault_withRecord s' e c _, fun hw => ⟨r, hr hw, rfl⟩⟩

end Sys2Proof.Machine
end

section
/-! PROOFS. The reset input (spec/70_reset_and_hazards.md R200). -/

namespace Sys2Proof.Machine

/-- Settles O11: the two states agree field by field, and the law of `platformReset` says which value each
field takes. -/
theorem resetInputSetsEverything : Obligations.ResetInputSetsEverything := fun s =>
  State.ext_fields (platformReset_freq s) (platformReset_dur s) (platformReset_phase s)
    (platformReset_srate s) (platformReset_err s) (platformReset_cause s) (platformReset_out s)
    (platformReset_port s) (platformReset_responses s) (platformReset_tables s)

end Sys2Proof.Machine
end

section
/-! PROOFS. The words of the spec (spec/95_test_vectors.md 2.1), one for each command. -/

namespace Sys2Proof

/-- Settles O4: each word is the encoding of its command, which is well formed, so it decodes to it (O1). -/
theorem specWordsDecode : Obligations.SpecWordsDecode := by
  simp only [Obligations.SpecWordsDecode, decode_eq_ok_iff]
  decide

end Sys2Proof
end
